-- ==== Sys2Proof/Word.lean ====
section
/-! DEFINITION. The byte, the unit of the store (20_memory.md R80), and the instruction sets' names (00_scope.md R3, R4). -/

namespace Sys2Proof

/-- One byte of the store: the smallest addressable unit (20_memory.md R80). -/
abbrev Byte := BitVec 8

/-- The instruction set a configuration runs (00_scope.md R3, R4): A has two-byte tagged pairs, B one-byte prefix codes. -/
inductive Dialect where
  | A
  | B
  deriving DecidableEq, Repr

/-- The synthesis strategy of a configuration (00_scope.md R3). -/
inductive SynthMode where
  | direct
  | edge
  deriving DecidableEq, Repr

end Sys2Proof
end

