-- ==== Sys2Proof/Syntax.lean ====
section
/-! DEFINITION. The instructions of both dialects: one constructor for each row of spec/opcode_table.json, with the
operand forms of 30_encoding.md R113 and R116 already read. Ignored encoding bits are not operands (log entry 17). -/

namespace Sys2Proof

/-- The LT parameter form (30_encoding.md R113): a literal of 7 bits, or a table number with a stretch. -/
inductive LitOrTable where
  | lit (l : BitVec 7)
  | table (t : BitVec 3) (stretch : BitVec 4)
  deriving DecidableEq, Repr

/-- The WS parameter form (30_encoding.md R113): a shape, a wavetable number, or another byte, the no-op form. -/
inductive WaveSelect where
  | pulse
  | saw
  | tri
  | noise
  | table (w : BitVec 7)
  | other (p : Byte)
  deriving DecidableEq, Repr

/-- The instructions (30_encoding.md R112, R116). A byte operand read as U8 or S8 is kept as the byte P; the rule that
uses it reads it unsigned or signed. -/
inductive Instr where
  | aEnd
  | aDuty (p : LitOrTable)
  | aFade (p : Byte)
  | aInert (p : Byte)
  | aJump (p : Byte)
  | aFlo (p : Byte)
  | aFhi (p : Byte)
  | aVdep (depth : BitVec 7) (mode : Bool)
  | aVrate (p : Byte)
  | aPan (p : LitOrTable)
  | aBend (p : Byte)
  | aWait (p : Byte)
  | aVol (p : LitOrTable)
  | aLoop (p : Byte)
  | aWave (p : WaveSelect)
  | aNote (p : Byte)
  | aNrel (p : Byte)
  | aNop
  | bCtrl (p : BitVec 6)
  | bIncp (d : BitVec 4)
  | bIncw (d : BitVec 4)
  | bSetp (v : BitVec 4)
  | bSetw (v : BitVec 4)
  | bArp (semis : BitVec 5)
  | bVib (d : BitVec 3) (r : BitVec 2)
  | bWait (n : BitVec 4)
  | bLoop (o : BitVec 4)
  | bRsvd
  | bSync (v : Bool)
  | bRing (v : Bool)
  | bExt (v : Bool)
  | bNoff
  deriving DecidableEq, Repr

/-- The instruction set an instruction belongs to (00_scope.md R4). -/
def Instr.dialect : Instr → Dialect
  | .aEnd => .A
  | .aDuty _ => .A
  | .aFade _ => .A
  | .aInert _ => .A
  | .aJump _ => .A
  | .aFlo _ => .A
  | .aFhi _ => .A
  | .aVdep _ _ => .A
  | .aVrate _ => .A
  | .aPan _ => .A
  | .aBend _ => .A
  | .aWait _ => .A
  | .aVol _ => .A
  | .aLoop _ => .A
  | .aWave _ => .A
  | .aNote _ => .A
  | .aNrel _ => .A
  | .aNop => .A
  | .bCtrl _ => .B
  | .bIncp _ => .B
  | .bIncw _ => .B
  | .bSetp _ => .B
  | .bSetw _ => .B
  | .bArp _ => .B
  | .bVib _ _ => .B
  | .bWait _ => .B
  | .bLoop _ => .B
  | .bRsvd => .B
  | .bSync _ => .B
  | .bRing _ => .B
  | .bExt _ => .B
  | .bNoff => .B

/-- The pseudo-instruction A.STOP = A.LOOP 0 (30_encoding.md R124). -/
def Instr.aStop : Instr := .aLoop 0#8

/-- The pseudo-instruction B.STOP = B.LOOP 0 (30_encoding.md R124). -/
def Instr.bStop : Instr := .bLoop 0#4

/-- The pseudo-instruction A.HOLD = A.WAIT 255 (30_encoding.md R124). -/
def Instr.aHold : Instr := .aWait 255#8

/-- The pseudo-instruction B.HOLD = B.NOFF (30_encoding.md R124). -/
def Instr.bHold : Instr := .bNoff

end Sys2Proof
end

