-- ==== Sys2Proof/WellFormed.lean ====
section
/-! DEFINITION. Well-formed instructions: those an encoding of the spec yields. Operand widths are in the types; the one
check left is the no-op form of the waveform selector. -/

namespace Sys2Proof

/-- `other p` stands only for a byte that is neither a shape nor a wavetable: 4..0x7F (30_encoding.md R113). -/
def WaveSelect.wf : WaveSelect → Bool
  | .other p => decide (4 ≤ p.toNat) && decide (p.toNat < 0x80)
  | .pulse => true
  | .saw => true
  | .tri => true
  | .noise => true
  | .table _ => true

/-- A well-formed instruction: the waveform selector of A.WAVE is (30_encoding.md R113). -/
def Instr.wf : Instr → Bool
  | .aWave p => p.wf
  | .aEnd => true
  | .aDuty _ => true
  | .aFade _ => true
  | .aInert _ => true
  | .aJump _ => true
  | .aFlo _ => true
  | .aFhi _ => true
  | .aVdep _ _ => true
  | .aVrate _ => true
  | .aPan _ => true
  | .aBend _ => true
  | .aWait _ => true
  | .aVol _ => true
  | .aLoop _ => true
  | .aNote _ => true
  | .aNrel _ => true
  | .aNop => true
  | .bCtrl _ => true
  | .bIncp _ => true
  | .bIncw _ => true
  | .bSetp _ => true
  | .bSetw _ => true
  | .bArp _ => true
  | .bVib _ _ => true
  | .bWait _ => true
  | .bLoop _ => true
  | .bRsvd => true
  | .bSync _ => true
  | .bRing _ => true
  | .bExt _ => true
  | .bNoff => true

end Sys2Proof
end

