-- ==== Sys2Proof/Decode.lean ====
section
/-! DEFINITION. The decoder of both dialects, total on any bytes (30_encoding.md R110 to R118), and the encoder written
from the same tables. The length of an instruction depends on the dialect alone (R110). -/

namespace Sys2Proof

/-- Why bytes decode to no instruction. No byte value is illegal in either dialect (30_encoding.md R114, R118), so the
only reason is that there are not enough bytes, or too many. -/
inductive DecodeError where
  | wrongLength (got : Nat)
  deriving DecidableEq, Repr

/-- The instruction width in bytes, `IW` (30_encoding.md R110). -/
def instrWidth : Dialect → Nat
  | .A => 2
  | .B => 1

/-- The LT form (30_encoding.md R113). -/
def readLT (p : Byte) : LitOrTable :=
  if p.getLsbD 7 then .table (p.extractLsb' 4 3) (p.extractLsb' 0 4) else .lit (p.extractLsb' 0 7)

/-- The WS form (30_encoding.md R113). -/
def readWS (p : Byte) : WaveSelect :=
  if p = 0#8 then .pulse
  else if p = 1#8 then .saw
  else if p = 2#8 then .tri
  else if p = 3#8 then .noise
  else if p.getLsbD 7 then .table (p.extractLsb' 0 7)
  else .other p

/-- Dialect A: the tag selects the operation and a tag outside the map is A.NOP (30_encoding.md R112, R114). -/
def decodeA (tag p : Byte) : Instr :=
  if tag = 0x45#8 then .aEnd
  else if tag = 0x44#8 then .aDuty (readLT p)
  else if tag = 0x46#8 then .aFade p
  else if tag = 0x49#8 then .aInert p
  else if tag = 0x4A#8 then .aJump p
  else if tag = 0x4C#8 then .aFlo p
  else if tag = 0x48#8 then .aFhi p
  else if tag = 0x59#8 then .aVdep (p.extractLsb' 0 7) (p.getLsbD 7)
  else if tag = 0x5A#8 then .aVrate p
  else if tag = 0x50#8 then .aPan (readLT p)
  else if tag = 0x42#8 then .aBend p
  else if tag = 0x57#8 then .aWait p
  else if tag = 0x56#8 then .aVol (readLT p)
  else if tag = 0x47#8 then .aLoop p
  else if tag = 0x53#8 then .aWave (readWS p)
  else if tag = 0x4E#8 then .aNote p
  else if tag = 0x41#8 then .aNrel p
  else .aNop

/-- Dialect B: the procedure of 30_encoding.md R117, widest tag first. -/
def decodeB (x : Byte) : Instr :=
  if x.extractLsb' 2 6 = 0b111100#6 then .bSync (x.getLsbD 0)
  else if x.extractLsb' 2 6 = 0b111101#6 then .bRing (x.getLsbD 0)
  else if x.extractLsb' 2 6 = 0b111110#6 then .bExt (x.getLsbD 0)
  else if x.extractLsb' 2 6 = 0b111111#6 then .bNoff
  else if x.extractLsb' 4 4 = 0b1100#4 then .bWait (x.extractLsb' 0 4)
  else if x.extractLsb' 4 4 = 0b1101#4 then .bLoop (x.extractLsb' 0 4)
  else if x.extractLsb' 4 4 = 0b1110#4 then .bRsvd
  else if x.extractLsb' 5 3 = 0b010#3 then
    (if x.getLsbD 4 then .bIncw (x.extractLsb' 0 4) else .bIncp (x.extractLsb' 0 4))
  else if x.extractLsb' 5 3 = 0b011#3 then
    (if x.getLsbD 4 then .bSetw (x.extractLsb' 0 4) else .bSetp (x.extractLsb' 0 4))
  else if x.extractLsb' 5 3 = 0b100#3 then .bArp (x.extractLsb' 0 5)
  else if x.extractLsb' 5 3 = 0b101#3 then .bVib (x.extractLsb' 2 3) (x.extractLsb' 0 2)
  else .bCtrl (x.extractLsb' 0 6)

/-- The decoder: the bytes of one instruction in the order they lie in the store (30_encoding.md R111, R115). -/
def decode : Dialect → List Byte → Except DecodeError Instr
  | .A, [tag, p] => .ok (decodeA tag p)
  | .B, [x] => .ok (decodeB x)
  | _, bytes => .error (.wrongLength bytes.length)

/-- The LT form written back (30_encoding.md R113). -/
def writeLT : LitOrTable → Byte
  | .lit l => 0#1 ++ l
  | .table t st => 1#1 ++ t ++ st

/-- The WS form written back (30_encoding.md R113). -/
def writeWS : WaveSelect → Byte
  | .pulse => 0#8
  | .saw => 1#8
  | .tri => 2#8
  | .noise => 3#8
  | .table w => 1#1 ++ w
  | .other p => p

/-- The encoder: the bytes of an instruction, first byte at the lower address (30_encoding.md R112, R113, R116).
Ignored bits are written 0 (log entry 17). -/
def encode : Instr → List Byte
  | .aEnd => [0x45#8, 0#8]
  | .aDuty p => [0x44#8, writeLT p]
  | .aFade p => [0x46#8, p]
  | .aInert p => [0x49#8, p]
  | .aJump p => [0x4A#8, p]
  | .aFlo p => [0x4C#8, p]
  | .aFhi p => [0x48#8, p]
  | .aVdep depth mode => [0x59#8, BitVec.ofBool mode ++ depth]
  | .aVrate p => [0x5A#8, p]
  | .aPan p => [0x50#8, writeLT p]
  | .aBend p => [0x42#8, p]
  | .aWait p => [0x57#8, p]
  | .aVol p => [0x56#8, writeLT p]
  | .aLoop p => [0x47#8, p]
  | .aWave p => [0x53#8, writeWS p]
  | .aNote p => [0x4E#8, p]
  | .aNrel p => [0x41#8, p]
  | .aNop => [0#8, 0#8]
  | .bCtrl p => [0b00#2 ++ p]
  | .bIncp d => [0b0100#4 ++ d]
  | .bIncw d => [0b0101#4 ++ d]
  | .bSetp v => [0b0110#4 ++ v]
  | .bSetw v => [0b0111#4 ++ v]
  | .bArp semis => [0b100#3 ++ semis]
  | .bVib d r => [0b101#3 ++ d ++ r]
  | .bWait n => [0b1100#4 ++ n]
  | .bLoop o => [0b1101#4 ++ o]
  | .bRsvd => [0xE0#8]
  | .bSync v => [0b1111000#7 ++ BitVec.ofBool v]
  | .bRing v => [0b1111010#7 ++ BitVec.ofBool v]
  | .bExt v => [0b1111100#7 ++ BitVec.ofBool v]
  | .bNoff => [0xFC#8]

/-- The dialect whose instruction an opcode-table row of `nbits` bits is: 8 bits for B, 16 for A (30_encoding.md R110). -/
def tableDialect (nbits : Nat) : Dialect := if nbits ≤ 8 then .B else .A

/-- The bytes of a table word as they lie in the store: format A16 is the pair with TAG in bits 15..8 at the lower
address and P in bits 7..0 (30_encoding.md R111), format B8 is the byte. -/
def tableBytes (nbits w : Nat) : List Byte :=
  match tableDialect nbits with
  | .A => [BitVec.ofNat 8 (w / 256), BitVec.ofNat 8 w]
  | .B => [BitVec.ofNat 8 w]

/-- The instruction the decoder reads from an instruction whose bits are `w`, numbered as spec/opcode_table.json numbers
them. -/
def decodeTableWord (nbits w : Nat) : Option Instr :=
  match decode (tableDialect nbits) (tableBytes nbits w) with
  | .ok i => some i
  | .error _ => none

end Sys2Proof
end

