-- ==== Sys2Proof/Config.lean ====
section
/-! DEFINITION. The configuration record (00_scope.md R10), fixed for a model run (10_state.md R30), and the free values:
constants without a body for the results the spec does not state. -/

namespace Sys2Proof

/-- The configuration record of 00_scope.md R10. Its tables are plain lists; the filter kernels `firLP` and `firHP` are
the OPEN parameters of 45_synth.md R340 and must be supplied when `firEnable` holds (log entry 10). -/
structure Config where
  dialect : Dialect
  synthMode : SynthMode
  /-- `NCH`, channels. -/
  nch : Nat
  /-- `FS`, output frames per second. -/
  fs : Nat
  /-- `TICK_HZ`, ticks per second. -/
  tickHz : Nat
  /-- `OVERSAMPLE`, oscillator clocks per output sample. -/
  oversample : Nat
  songCap : Nat
  npat : Nat
  patLen : Nat
  nins : Nat
  progCap : Nat
  ntab : Nat
  tabCap : Nat
  nwave : Nat
  waveCap : Nat
  hasTables : Bool
  noteMax : Nat
  stepLimit : Nat
  /-- `FREQ_A`, note to 32-bit phase step (44_oscillator.md R284). -/
  freqA : List Nat
  /-- `FREQ_B`, note to 16-bit frequency register (44_oscillator.md R285). -/
  freqB : List Nat
  /-- `SINE`, 256 signed entries (44_oscillator.md R286). -/
  sine : List Int
  noiseTaps : BitVec 16
  noiseSeed : BitVec 16
  mixShift : Nat
  blepTaps : Nat
  /-- `BLEP_K[k][j]`, one row of taps for each sub-sample clock (45_synth.md R331). -/
  blepK : List (List Int)
  firEnable : Bool
  firTaps : Nat
  /-- `FIR_LP[b]`, low-pass kernels by high cutoff byte (45_synth.md R340). -/
  firLP : List (List Int)
  /-- `FIR_HP[b]`, high-pass kernels by low cutoff byte (45_synth.md R340). -/
  firHP : List (List Int)
  dlen : Nat
  dfb : Nat
  deriving DecidableEq, Repr

/-- FREE VALUE (DESIGN CHOICE, log entry 8): what a signed 64-bit EDGE accumulator holds when a kernel makes the exact
sum `v` leave 64 bits. The spec proves this cannot happen for coefficients in 0..32768 (45_synth.md R329) and states no
result for the other kernels it allows. -/
opaque Config.accOverflow : Int → BitVec 64

/-- FREE VALUE (DESIGN CHOICE, log entry 9): what a signed 32-bit FIR history cell holds when the stage input `v` leaves
32 bits, which 45_synth.md R341 does not state. -/
opaque Config.histOverflow : Int → BitVec 32

end Sys2Proof
end

