-- ==== Sys2Proof/Machine/Arith.lean ====
section
/-! DEFINITION. The integer and bit helpers the spec's pseudocode names (00_scope.md R15, R16). -/

namespace Sys2Proof.Machine

/-- `clamp(v, lo, hi)` is `min(max(v, lo), hi)` (00_scope.md R16). -/
def clamp (v lo hi : Int) : Int := min (max v lo) hi

/-- `asr(v, k)` is `floor(v / 2^k)` (00_scope.md R16). -/
def asr (v : Int) (k : Nat) : Int := v / ((2 ^ k : Nat) : Int)

/-- `sat16(v)` is `clamp(v, -32768, 32767)` (00_scope.md R16). -/
def sat16 (v : Int) : Int := clamp v (-32768) 32767

/-- Whether an integer fits a signed register of `w` bits. -/
def fitsSigned (w : Nat) (v : Int) : Bool :=
  decide (-((2 ^ (w - 1) : Nat) : Int) ≤ v) && decide (v < ((2 ^ (w - 1) : Nat) : Int))

/-- `r` with bit `i` set to `v` and every other bit kept. -/
def setBit (r : Byte) (i : Nat) (v : Bool) : Byte :=
  if v then r ||| (1#8 <<< i) else r &&& ~~~(1#8 <<< i)

/-- The two bytes of a 16-bit value, little-endian: the low byte first (20_memory.md R83). -/
def packLE (v : BitVec 16) : Byte × Byte := (v.extractLsb' 0 8, v.extractLsb' 8 8)

/-- The 16-bit value of two bytes, the first the low one (20_memory.md R83). -/
def unpackLE (lo hi : Byte) : BitVec 16 := hi ++ lo

end Sys2Proof.Machine
end

