-- ==== Sys2Proof/Machine/Tables.lean ====
section
/-! DEFINITION. The default lookup tables of the configuration record: note to phase step (rule R284), note to
frequency register (rule R285) and the vibrato sine (rule R286), each entry computed from the rule's formula. -/

namespace Sys2Proof.Machine

/-- FREQ_A for F_osc = 44100 (profile P-SIMPLE), notes 0 to 96 (44_oscillator.md R284). -/
def freqADirect : List Nat :=
  [0, 1592507, 1687203, 1787529, 1893821, 2006434, 2125742, 2252146, 2386065, 2527948, 2678268, 2837526, 3006254, 3185015, 3374406, 3575058] ++
  [3787642, 4012867, 4251485, 4504291, 4772130, 5055896, 5356535, 5675051, 6012507, 6370030, 6748811, 7150117, 7575285, 8025735, 8502970, 9008582] ++
  [9544261, 10111792, 10713070, 11350103, 12025015, 12740059, 13497623, 14300233, 15150569, 16051469, 17005939, 18017165, 19088521, 20223584, 21426141, 22700205] ++
  [24050030, 25480119, 26995246, 28600467, 30301139, 32102938, 34011878, 36034330, 38177043, 40447168, 42852281, 45400411, 48100060, 50960238, 53990491, 57200933] ++
  [60602278, 64205876, 68023757, 72068660, 76354085, 80894335, 85704563, 90800821, 96200119, 101920476, 107980983, 114401866, 121204555, 128411753, 136047513, 144137319] ++
  [152708170, 161788671, 171409126, 181601643, 192400238, 203840952, 215961966, 228803732, 242409110, 256823506, 272095026, 288274639, 305416341, 323577341, 342818251, 363203285] ++
  [384800477]

/-- FREQ_A for F_osc = 705600 (profiles P-BLEP and P-REG), notes 0 to 96 (44_oscillator.md R284). -/
def freqAEdge : List Nat :=
  [0, 99532, 105450, 111721, 118364, 125402, 132859, 140759, 149129, 157997, 167392, 177345, 187891, 199063, 210900, 223441] ++
  [236728, 250804, 265718, 281518, 298258, 315993, 334783, 354691, 375782, 398127, 421801, 446882, 473455, 501608, 531436, 563036] ++
  [596516, 631987, 669567, 709381, 751563, 796254, 843601, 893765, 946911, 1003217, 1062871, 1126073, 1193033, 1263974, 1339134, 1418763] ++
  [1503127, 1592507, 1687203, 1787529, 1893821, 2006434, 2125742, 2252146, 2386065, 2527948, 2678268, 2837526, 3006254, 3185015, 3374406, 3575058] ++
  [3787642, 4012867, 4251485, 4504291, 4772130, 5055896, 5356535, 5675051, 6012507, 6370030, 6748811, 7150117, 7575285, 8025735, 8502970, 9008582] ++
  [9544261, 10111792, 10713070, 11350103, 12025015, 12740059, 13497623, 14300233, 15150569, 16051469, 17005939, 18017165, 19088521, 20223584, 21426141, 22700205] ++
  [24050030]

/-- FREQ_B for F_osc = 44100, notes 0 to 96 (44_oscillator.md R285); P-SIMPLE holds it and never reads it. -/
def freqBDirect : List Nat :=
  [0, 6221, 6591, 6983, 7398, 7838, 8304, 8797, 9321, 9875, 10462, 11084, 11743, 12441, 13181, 13965] ++
  [14795, 15675, 16607, 17595, 18641, 19750, 20924, 22168, 23486, 24883, 26363, 27930, 29591, 31351, 33215, 35190] ++
  [37282, 39499, 41848, 44336, 46973, 49766, 52725, 55860, 59182, 62701, 65535, 65535, 65535, 65535, 65535, 65535] ++
  [65535, 65535, 65535, 65535, 65535, 65535, 65535, 65535, 65535, 65535, 65535, 65535, 65535, 65535, 65535, 65535] ++
  [65535, 65535, 65535, 65535, 65535, 65535, 65535, 65535, 65535, 65535, 65535, 65535, 65535, 65535, 65535, 65535] ++
  [65535, 65535, 65535, 65535, 65535, 65535, 65535, 65535, 65535, 65535, 65535, 65535, 65535, 65535, 65535, 65535] ++
  [65535]

/-- FREQ_B for F_osc = 705600 (profile P-REG), notes 0 to 96 (44_oscillator.md R285). -/
def freqBEdge : List Nat :=
  [0, 389, 412, 436, 462, 490, 519, 550, 583, 617, 654, 693, 734, 778, 824, 873] ++
  [925, 980, 1038, 1100, 1165, 1234, 1308, 1386, 1468, 1555, 1648, 1746, 1849, 1959, 2076, 2199] ++
  [2330, 2469, 2615, 2771, 2936, 3110, 3295, 3491, 3699, 3919, 4152, 4399, 4660, 4937, 5231, 5542] ++
  [5872, 6221, 6591, 6983, 7398, 7838, 8304, 8797, 9321, 9875, 10462, 11084, 11743, 12441, 13181, 13965] ++
  [14795, 15675, 16607, 17595, 18641, 19750, 20924, 22168, 23486, 24883, 26363, 27930, 29591, 31351, 33215, 35190] ++
  [37282, 39499, 41848, 44336, 46973, 49766, 52725, 55860, 59182, 62701, 65535, 65535, 65535, 65535, 65535, 65535] ++
  [65535]

/-- SINE, 256 signed entries round(127 * sin(2 * pi * i / 256)) (44_oscillator.md R286). -/
def sineDefault : List Int :=
  [0, 3, 6, 9, 12, 16, 19, 22, 25, 28, 31, 34, 37, 40, 43, 46] ++
  [49, 51, 54, 57, 60, 63, 65, 68, 71, 73, 76, 78, 81, 83, 85, 88] ++
  [90, 92, 94, 96, 98, 100, 102, 104, 106, 107, 109, 111, 112, 113, 115, 116] ++
  [117, 118, 120, 121, 122, 122, 123, 124, 125, 125, 126, 126, 126, 127, 127, 127] ++
  [127, 127, 127, 127, 126, 126, 126, 125, 125, 124, 123, 122, 122, 121, 120, 118] ++
  [117, 116, 115, 113, 112, 111, 109, 107, 106, 104, 102, 100, 98, 96, 94, 92] ++
  [90, 88, 85, 83, 81, 78, 76, 73, 71, 68, 65, 63, 60, 57, 54, 51] ++
  [49, 46, 43, 40, 37, 34, 31, 28, 25, 22, 19, 16, 12, 9, 6, 3] ++
  [0, -3, -6, -9, -12, -16, -19, -22, -25, -28, -31, -34, -37, -40, -43, -46] ++
  [-49, -51, -54, -57, -60, -63, -65, -68, -71, -73, -76, -78, -81, -83, -85, -88] ++
  [-90, -92, -94, -96, -98, -100, -102, -104, -106, -107, -109, -111, -112, -113, -115, -116] ++
  [-117, -118, -120, -121, -122, -122, -123, -124, -125, -125, -126, -126, -126, -127, -127, -127] ++
  [-127, -127, -127, -127, -126, -126, -126, -125, -125, -124, -123, -122, -122, -121, -120, -118] ++
  [-117, -116, -115, -113, -112, -111, -109, -107, -106, -104, -102, -100, -98, -96, -94, -92] ++
  [-90, -88, -85, -83, -81, -78, -76, -73, -71, -68, -65, -63, -60, -57, -54, -51] ++
  [-49, -46, -43, -40, -37, -34, -31, -28, -25, -22, -19, -16, -12, -9, -6, -3]

end Sys2Proof.Machine
end

