-- ==== Sys2Proof/Machine/Profiles.lean ====
section
/-! DEFINITION. The three profiles (00_scope.md R3) with the default parameters (00_scope.md R10), and the constraints a
configuration must meet (00_scope.md R3, R10, R13). -/

namespace Sys2Proof.Machine

/-- The default band-limited step kernel: the box kernel with two taps (45_synth.md R331). -/
def boxKernel (oversample : Nat) : List (List Int) :=
  (List.range oversample).map fun k =>
    let head := (32768 * (oversample - k)) / oversample
    [(head : Int), 32768 - (head : Int)]

/-- Profile P-SIMPLE: dialect A, direct synthesis (00_scope.md R3), every other parameter at its default (R10). -/
def pSimple : Config where
  dialect := .A
  synthMode := .direct
  nch := 4
  fs := 44100
  tickHz := 50
  oversample := 1
  songCap := 128
  npat := 64
  patLen := 32
  nins := 32
  progCap := 32
  ntab := 8
  tabCap := 32
  nwave := 8
  waveCap := 32
  hasTables := true
  noteMax := 96
  stepLimit := 256
  freqA := freqADirect
  freqB := freqBDirect
  sine := sineDefault
  noiseTaps := 0xB400#16
  noiseSeed := 1#16
  mixShift := 2
  blepTaps := 2
  blepK := boxKernel 1
  firEnable := false
  firTaps := 1
  firLP := []
  firHP := []
  dlen := 8820
  dfb := 0

/-- Profile P-BLEP: dialect A, edge synthesis, 16 clocks per sample (00_scope.md R3, R10). -/
def pBlep : Config :=
  { pSimple with
    synthMode := .edge, oversample := 16, freqA := freqAEdge, freqB := freqBEdge, blepK := boxKernel 16 }

/-- Profile P-REG: dialect B, edge synthesis (00_scope.md R3, R10). -/
def pReg : Config := { pBlep with dialect := .B }

/-- The profile that runs a dialect: P-SIMPLE for A and P-REG, the only one, for B (00_scope.md R3). -/
def profileOf : Dialect → Config
  | .A => pSimple
  | .B => pReg

/-- The identity FIR kernel `(32768, 0, ..., 0)` of `taps` coefficients (45_synth.md R340). -/
def identityKernel (taps : Nat) : List Int := 32768 :: List.replicate (taps - 1) 0

/-- `lo ≤ v ≤ hi`. -/
def inRange (v lo hi : Nat) : Bool := decide (lo ≤ v) && decide (v ≤ hi)

/-- The constraints on the counts and rates (00_scope.md R10; the pair B with DIRECT is no profile, R3). -/
def countsOk (c : Config) : Bool :=
  !(c.dialect == .B && c.synthMode == .direct) &&
  inRange c.nch 1 16 && inRange c.fs 1 1048576 && inRange c.tickHz 1 c.fs && inRange c.oversample 1 256 &&
  (c.synthMode == .edge || c.oversample == 1) &&
  inRange c.songCap 1 256 && inRange c.npat 1 256 && inRange c.patLen 1 256 && inRange c.nins 1 255 &&
  inRange c.progCap 1 255 && inRange c.ntab 0 8 && inRange c.tabCap 1 255 && inRange c.nwave 0 128 &&
  inRange c.waveCap 1 255 && inRange c.noteMax 1 254 && inRange c.stepLimit 1 65535 &&
  inRange c.mixShift 0 8 && inRange c.blepTaps 1 64 && inRange c.firTaps 1 64 && inRange c.dlen 1 1048576 &&
  inRange c.dfb 0 255

/-- The constraints on the lookup tables: their lengths and entry widths, and note 0 at 0 (00_scope.md R10;
44_oscillator.md R284 to R286). -/
def tablesOk (c : Config) : Bool :=
  c.freqA.length == c.noteMax + 1 && c.freqA.all (fun v => decide (v < 2 ^ 32)) && c.freqA.getD 0 0 == 0 &&
  c.freqB.length == c.noteMax + 1 && c.freqB.all (fun v => decide (v < 2 ^ 16)) && c.freqB.getD 0 0 == 0 &&
  c.sine.length == 256 && c.sine.all (fun v => decide (-127 ≤ v) && decide (v ≤ 127)) &&
  c.noiseTaps != 0 && c.noiseSeed != 0

/-- The constraints on the step kernel: one row for each clock, each row of `BLEP_TAPS` signed 32-bit coefficients
summing to 32768 (00_scope.md R10; 45_synth.md R331). -/
def blepOk (c : Config) : Bool :=
  c.blepK.length == c.oversample &&
  c.blepK.all fun row => row.length == c.blepTaps && row.all (fitsSigned 32) && row.foldl (· + ·) 0 == 32768

/-- The constraints on the filter kernels, which bind only when the filter bank is present: 256 kernels each, the two
fixed entries the identity (45_synth.md R340, R342). -/
def firOk (c : Config) : Bool :=
  !c.firEnable ||
  (c.firLP.length == 256 && c.firHP.length == 256 &&
   (c.firLP ++ c.firHP).all (fun row => row.length == c.firTaps && row.all (fitsSigned 32)) &&
   c.firHP.getD 0x00 [] == identityKernel c.firTaps && c.firLP.getD 0xFF [] == identityKernel c.firTaps)

/-- A configuration the model runs (00_scope.md R13): outside it, a command is refused. -/
def configOk (c : Config) : Bool := countsOk c && tablesOk c && blepOk c && firOk c

end Sys2Proof.Machine
end

