-- ==== Sys2Proof/Machine/Regs.lean ====
section
/-! DEFINITION. The register files of the engine (10_state.md), the host's commands and replies (46_host.md), and the
power-on value of each register file (the power-on columns of 10_state.md R31, R40, R50, R60 to R62). Registers are bit
vectors of the widths the spec gives; one marked "signed" is read with `toInt`. -/

namespace Sys2Proof.Machine

/-- The waveform selector `wave` (10_state.md R45): the values the spec says are ever written (log entry 18). -/
inductive Wave where
  | pulse
  | saw
  | tri
  | noise
  | table (w : BitVec 7)
  deriving DecidableEq, Repr

/-- The three kinds of modulation table (20_memory.md R87). -/
inductive Kind where
  | vol
  | duty
  | pan
  deriving DecidableEq, Repr

/-- A table binding `tb[k]` (10_state.md R43). -/
structure TableBinding where
  on : Bool
  t : BitVec 3
  idx : BitVec 8
  cnt : BitVec 4
  s : BitVec 4
  deriving DecidableEq, Repr

/-- The channel register file `ch[c]` (10_state.md R40). `gateBit` is dialect A's stored gate; in dialect B the gate is
`ctrl[0]` (R44, log entry 14). `ctrl` is also the shadow register `regs[4]` (R55). -/
structure Channel where
  instr : BitVec 8
  cursor : BitVec 8
  wait : BitVec 8
  active : Bool
  release : BitVec 8
  releaseOk : Bool
  trigNote : BitVec 8
  progNote : BitVec 8
  gateBit : Bool
  vol : BitVec 8
  /-- signed -/
  fade : BitVec 8
  duty : BitVec 8
  pan : BitVec 8
  wave : Wave
  /-- signed -/
  bendRate : BitVec 8
  /-- signed -/
  bendAcc : BitVec 32
  inertia : BitVec 32
  vibDepth : BitVec 7
  /-- `false` = vibrato on pitch, `true` = on duty -/
  vibMode : Bool
  vibRate : BitVec 8
  vibPhase : BitVec 8
  cutLo : BitVec 8
  cutHi : BitVec 8
  tbVol : TableBinding
  tbDuty : TableBinding
  tbPan : TableBinding
  /-- signed -/
  pitchEnv : BitVec 16
  /-- signed -/
  pitchRate : BitVec 4
  pw : BitVec 12
  /-- signed -/
  pwRate : BitVec 4
  ext : Bool
  ctrl : BitVec 8
  seqPat : BitVec 8
  /-- signed -/
  seqTr : BitVec 8
  lastInstr : BitVec 8
  deriving DecidableEq, Repr

/-- The oscillator register file `osc[c]` (10_state.md R50); `reg0` to `reg3` are the first four shadow bytes (R55), the
fifth, CTRL, is `Channel.ctrl` (log entry 15). -/
structure Osc where
  phase : BitVec 32
  curStep : BitVec 32
  step : BitVec 32
  duty : BitVec 8
  lfsr : BitVec 16
  wrapped : Bool
  reg0 : Byte
  reg1 : Byte
  reg2 : Byte
  reg3 : Byte
  deriving DecidableEq, Repr

/-- The synthesizer state of one channel and one stereo side: the EDGE accumulators (10_state.md R60) and the FIR
histories (R61). A part the configuration does not have is the empty list or stays 0. -/
structure Side where
  /-- signed cells -/
  blep : List (BitVec 64)
  /-- signed -/
  integ : BitVec 64
  /-- signed -/
  last : BitVec 32
  /-- signed cells, most recent first -/
  firh : List (BitVec 32)
  /-- signed cells, most recent first -/
  firl : List (BitVec 32)
  deriving DecidableEq, Repr

/-- The live-preview latch `eng.plonk[c]` (10_state.md R31). -/
inductive Plonk where
  | none
  | on (note instr : BitVec 8)
  | off
  deriving DecidableEq, Repr

/-- Everything the engine holds for one channel. -/
structure Voice where
  ch : Channel
  osc : Osc
  plonk : Plonk
  left : Side
  right : Side
  deriving DecidableEq, Repr

/-- `eng.mode` (10_state.md R31): 0 = IDLE, 1 = SONG, 2 = PATTERN, and 3 is never written. -/
inductive Mode where
  | idle
  | song
  | pattern
  deriving DecidableEq, Repr

/-- The engine-wide registers (10_state.md R31), the plonk latches apart. -/
structure Engine where
  mode : Mode
  songPos : BitVec 8
  songNext : BitVec 9
  row : BitVec 8
  rowWait : BitVec 8
  patCh : BitVec 4
  patIdx : BitVec 8
  sptCnt : BitVec 32
  tickRem : BitVec 32
  deriving DecidableEq, Repr

/-- The delay lines `DL` and `DR` and `dptr` (10_state.md R62). A line is held as its nonzero cells, indices rising. -/
structure Delay where
  left : List (Nat × BitVec 16)
  right : List (Nat × BitVec 16)
  ptr : Nat
  deriving DecidableEq, Repr

/-- One output frame, left and right, each a signed 16-bit sample (45_synth.md R351). -/
structure Frame where
  left : BitVec 16
  right : BitVec 16
  deriving DecidableEq, Repr

/-- The host's commands (46_host.md R361 to R371). -/
inductive Command where
  | init
  | shutdown
  | playSongFrom (r : BitVec 8)
  | playPatternFrom (p r : BitVec 8) (c : Nat)
  | plonk (note : BitVec 8) (c : Nat) (instr : BitVec 8) (isDown : Bool)
  | stop
  | silence
  | isPlaying
  | getSamples (n : BitVec 32)
  | newSong
  | capabilities
  | readStatus
  | readGates
  | readFaults
  | writeStore (addr : Nat) (b : Byte)
  | readStore (addr : Nat)
  deriving DecidableEq, Repr

/-- What the capability queries return (00_scope.md R11; 46_host.md R368). -/
structure Capabilities where
  channels : Nat
  patterns : Nat
  patternRows : Nat
  instruments : Nat
  programCap : Nat
  tables : Nat
  tableCap : Nat
  waves : Nat
  waveCap : Nat
  minOctave : Nat
  maxOctave : Nat
  hasTables : Bool
  deriving DecidableEq, Repr

/-- What a command answers the host (46_host.md R360). -/
inductive Reply where
  | ok
  | errRange
  | playing (b : Bool)
  | frames (out : List Frame)
  | caps (c : Capabilities)
  | word (w : BitVec 32)
  | byte (b : Byte)
  deriving DecidableEq, Repr

/-- What the per-tick snapshot shows of one channel (43_sequencer.md R266). -/
structure ChannelView where
  ch : Channel
  gate : Bool
  step : BitVec 32
  duty : BitVec 8
  regs : List Byte
  deriving DecidableEq, Repr

/-- The per-tick snapshot (43_sequencer.md R266). -/
structure Snapshot where
  channels : List ChannelView
  mode : Mode
  songPos : BitVec 8
  row : BitVec 8
  rowWait : BitVec 8
  deriving DecidableEq, Repr

/-- Where the engine stands inside a command: the model cuts a command into steps (log entry 3). Outside `GetSamples` it
is `command`. The five numbered steps of a tick are those of 43_sequencer.md R240. -/
inductive Phase where
  /-- between commands -/
  | command
  /-- head of the frame loop of `GetSamples` (45_synth.md R320) -/
  | frame
  /-- tick step 1: table steps -/
  | tables
  /-- tick step 2: live-preview events -/
  | plonks
  /-- tick step 3: the row step -/
  | row
  /-- tick step 4: entry of `RunProgram` for the current channel -/
  | run
  /-- tick step 4: the run loop of the current channel, at its test before a fetch -/
  | fetch
  /-- tick step 4: `Modulate` of the current channel -/
  | modulate
  /-- tick step 5 and the tick timer -/
  | snapshot
  /-- one frame -/
  | render
  deriving DecidableEq, Repr

/-- The binding record "off" (10_state.md R43). -/
def bindingOff : TableBinding := { on := false, t := 0, idx := 0, cnt := 0, s := 0 }

/-- The power-on column of 10_state.md R40. -/
def channelPowerOn : Channel where
  instr := 0
  cursor := 0
  wait := 0
  active := false
  release := 0
  releaseOk := false
  trigNote := 0
  progNote := 0
  gateBit := false
  vol := 0
  fade := 0
  duty := 0x80
  pan := 0x80
  wave := .pulse
  bendRate := 0
  bendAcc := 0
  inertia := 0
  vibDepth := 0
  vibMode := false
  vibRate := 0
  vibPhase := 0
  cutLo := 0x00
  cutHi := 0xFF
  tbVol := bindingOff
  tbDuty := bindingOff
  tbPan := bindingOff
  pitchEnv := 0
  pitchRate := 0
  pw := 0x800
  pwRate := 0
  ext := false
  ctrl := 0
  seqPat := 0
  seqTr := 0
  lastInstr := 0

/-- The power-on column of 10_state.md R50. -/
def oscPowerOn (cfg : Config) : Osc where
  phase := 0
  curStep := 0
  step := 0
  duty := 0x80
  lfsr := cfg.noiseSeed
  wrapped := false
  reg0 := 0
  reg1 := 0
  reg2 := 0x00
  reg3 := 0x08

/-- The EDGE and FIR state of one side, all 0 (10_state.md R60, R61): the accumulators exist in EDGE mode only, the
histories only with the filter bank. -/
def sidePowerOn (cfg : Config) : Side where
  blep := if cfg.synthMode = .edge then List.replicate cfg.blepTaps 0 else []
  integ := 0
  last := 0
  firh := if cfg.firEnable then List.replicate (cfg.firTaps - 1) 0 else []
  firl := if cfg.firEnable then List.replicate (cfg.firTaps - 1) 0 else []

/-- One channel at power-on. -/
def voicePowerOn (cfg : Config) : Voice where
  ch := channelPowerOn
  osc := oscPowerOn cfg
  plonk := .none
  left := sidePowerOn cfg
  right := sidePowerOn cfg

/-- The power-on values of 10_state.md R31. -/
def enginePowerOn : Engine where
  mode := .idle
  songPos := 0
  songNext := 0
  row := 0
  rowWait := 0
  patCh := 0
  patIdx := 0
  sptCnt := 0
  tickRem := 0

/-- The delay lines and `dptr` at 0 (10_state.md R62). -/
def delayPowerOn : Delay := { left := [], right := [], ptr := 0 }

end Sys2Proof.Machine
end

