-- ==== Sys2Proof/Machine/State.lean ====
section
/-! DEFINITION. The state of the engine as plain data, why a step can stop, and the state after reset. -/

namespace Sys2Proof.Machine

/-- Why the machine stops. Each is raised by `step` in a state no run reaches, where the spec's own index ranges
(20_memory.md R90, R94; 44_oscillator.md R287; 10_state.md R45) are already broken: safe (log entry 7). The engine's own
fault, RUNAWAY, stops nothing and is a bit of `State.faults` (60_exceptions.md R391). -/
inductive Fault where
  /-- Raised by tick step 1: a binding that is on names a table not below `NTAB`, whose address is not a table's. Safe. -/
  | tableRead
  /-- Raised by tick step 3: a row is due and `eng.row` is not below `PAT_LEN`, so its address is not a row's. Safe. -/
  | rowRead
  /-- Raised by `Modulate`: `prog_note` is above `NOTE_MAX`, past the end of the frequency table. Safe. -/
  | noteRead
  /-- Raised by a frame: a channel plays a wavetable not below `NWAVE`, whose address is not a wavetable's. Safe. -/
  | waveRead
  deriving DecidableEq, Repr

/-- Why a step has no meaning. -/
inductive Refusal where
  /-- Raised by an arm of `exec` whose instruction has no meaning yet: none is left. Safe. -/
  | notModelled (mnemonic : String)
  /-- Raised at the start of a command when the configuration breaks a constraint (00_scope.md R13). Safe. -/
  | badConfig
  /-- Raised when the host issues a command after `Shutdown` (93_implementation_defined.md row 15: refuse, "no move of the
  host", 46_host.md R373). Safe. -/
  | afterShutdown
  /-- Raised by the run loop if the fetched bytes decode to nothing, which no byte value does (30_encoding.md R114, R118):
  the decoder's only reason is a wrong number of bytes. Safe. -/
  | undecodable
  deriving DecidableEq, Repr

/-- The whole machine. `cfg` is the configuration, which no step changes (10_state.md R30, log entry 1). From `phase` on
the fields are the model's own: where the command in progress stands, the host's side (commands not yet issued, the
last reply), and the last snapshot (log entries 2 to 5). -/
structure State where
  /-- the configuration record (00_scope.md R10) -/
  cfg : Config
  /-- the engine registers (10_state.md R31) -/
  eng : Engine
  /-- `FAULTS` (10_state.md R33) -/
  faults : BitVec 16
  /-- the channel, oscillator and synthesizer registers, channels 0 to NCH-1 (10_state.md R40, R50, R60, R61) -/
  voices : List Voice
  /-- the store: the bytes that differ from the new-song image, addresses rising (20_memory.md R80, log entry 16) -/
  store : List Host.Cell
  /-- the delay lines (10_state.md R62) -/
  delay : Delay
  /-- where the command in progress stands -/
  phase : Phase
  /-- the channel that tick step 4 is at -/
  cur : Nat
  /-- `n` of `RunProgram`: instructions this run has executed (40_interpreter.md R151) -/
  runCount : Nat
  /-- frames `GetSamples` still owes (45_synth.md R320) -/
  framesLeft : Nat
  /-- frames `GetSamples` has produced so far, oldest first -/
  out : List Frame
  /-- commands the host will issue, next one first -/
  cmds : List Command
  /-- the answer of the last command that completed -/
  reply : Option Reply
  /-- the last tick's snapshot (43_sequencer.md R266) -/
  snap : Option Snapshot
  /-- the host has called `Shutdown` (46_host.md R361) -/
  closed : Bool
  deriving DecidableEq, Repr

/-- Power-on reset under a configuration (70_reset_and_hazards.md R410): every register at its power-on value, the store
at the new-song image (R411), no command pending. -/
def State.powerOn (cfg : Config) : State where
  cfg := cfg
  eng := enginePowerOn
  faults := 0
  voices := List.replicate cfg.nch (voicePowerOn cfg)
  store := []
  delay := delayPowerOn
  phase := .command
  cur := 0
  runCount := 0
  framesLeft := 0
  out := []
  cmds := []
  reply := none
  snap := none
  closed := false

/-- The machine right after reset, in profile P-SIMPLE with the default parameters (log entry 1). -/
def State.reset : State := State.powerOn pSimple

end Sys2Proof.Machine
end

