-- ==== Sys2Proof/Machine/Store.lean ====
section
/-! DEFINITION. Memory held sparsely in one canonical form, the store's address map and the engine's reads of it
(20_memory.md). The delay lines use the same sparse form. -/

namespace Sys2Proof.Machine

/-- The value at key `a`: the listed one, or what an unlisted key reads as. -/
def sparseGet {w : Nat} (d : Nat → BitVec w) : List (Nat × BitVec w) → Nat → BitVec w
  | [], a => d a
  | (k, v) :: rest, a => if k = a then v else sparseGet d rest a

/-- `(a, v)` put before the first larger key. -/
def sparseInsert {w : Nat} (a : Nat) (v : BitVec w) : List (Nat × BitVec w) → List (Nat × BitVec w)
  | [] => [(a, v)]
  | (k, u) :: rest => if a < k then (a, v) :: (k, u) :: rest else (k, u) :: sparseInsert a v rest

/-- Key `a` set to `v`: an entry equal to what the unlisted key reads as is left out. -/
def sparseSet {w : Nat} (d : Nat → BitVec w) (l : List (Nat × BitVec w)) (a : Nat) (v : BitVec w) :
    List (Nat × BitVec w) :=
  let rest := l.filter fun c => c.1 != a
  if v = d a then rest else sparseInsert a v rest

/-- The canonical form: keys strictly rising, no entry equal to what an unlisted key reads as. -/
abbrev sparseWf {w : Nat} (d : Nat → BitVec w) (l : List (Nat × BitVec w)) : Prop :=
  l.Pairwise (fun x y => x.1 < y.1) ∧ ∀ c ∈ l, c.2 ≠ d c.1

/-- The store memory (20_memory.md R80). -/
abbrev Memory := List Host.Cell

/-- The new-song image (70_reset_and_hazards.md R411): SONG_LEN = 1, TEMPO = 5, LOOP = 1, every other byte 0. It is what
an unlisted address reads as (log entry 16). -/
def newSongByte (a : Nat) : Byte :=
  if a = 0 then 1 else if a = 1 then 5 else if a = 2 then 1 else 0

/-- The byte at an address (00_scope.md R18; 20_memory.md R89). -/
def Memory.read (m : Memory) (a : Nat) : Byte := sparseGet newSongByte m a

/-- One byte written by the host (46_host.md R370). -/
def Memory.write (m : Memory) (a : Nat) (b : Byte) : Memory := sparseSet newSongByte m a b

/-- The store's canonical form. -/
abbrev Memory.wf (m : Memory) : Prop := sparseWf newSongByte m

/-- A delay line cell that nothing is listed for is 0 (10_state.md R62). -/
def delayBlank (_ : Nat) : BitVec 16 := 0

/-! The address map (20_memory.md R81). -/

/-- `INS_SIZE` (20_memory.md R81). -/
def insSize (c : Config) : Nat := 1 + c.progCap * instrWidth c.dialect

/-- `SONG_BASE` (20_memory.md R81). -/
def songBase : Nat := 4

/-- `PAT_BASE` (20_memory.md R81). -/
def patBase (c : Config) : Nat := songBase + c.songCap * c.nch * 2

/-- `INS_BASE` (20_memory.md R81). -/
def insBase (c : Config) : Nat := patBase c + c.npat * c.patLen * 6

/-- `TAB_BASE` (20_memory.md R81). -/
def tabBase (c : Config) : Nat := insBase c + c.nins * insSize c

/-- `WAVE_BASE` (20_memory.md R81). -/
def waveBase (c : Config) : Nat := tabBase c + 3 * c.ntab * (1 + c.tabCap)

/-- `STORE_SIZE` (20_memory.md R81). -/
def storeSize (c : Config) : Nat := waveBase c + c.nwave * (1 + c.waveCap)

/-- Song row `r`, channel `ch`: the address of its pattern byte; the transpose is the next (20_memory.md R84). -/
def songAddr (c : Config) (r ch : Nat) : Nat := songBase + (r * c.nch + ch) * 2

/-- Row `k` of pattern `p` (20_memory.md R85). -/
def rowAddr (c : Config) (p k : Nat) : Nat := patBase c + (p * c.patLen + k) * 6

/-- `IBASE(i)`, instruments numbered from 1 (20_memory.md R86). -/
def instrAddr (c : Config) (i : Nat) : Nat := insBase c + (i - 1) * insSize c

/-- The first byte of instruction `j` of instrument `i` (20_memory.md R86). -/
def codeAddr (c : Config) (i j : Nat) : Nat := instrAddr c i + 1 + j * instrWidth c.dialect

/-- The number of a table kind, VOL = 0, DUTY = 1, PAN = 2 (20_memory.md R87). -/
def kindNumber : Kind → Nat
  | .vol => 0
  | .duty => 1
  | .pan => 2

/-- `TBASE(k, t)` (20_memory.md R87). -/
def tableAddr (c : Config) (k : Kind) (t : Nat) : Nat := tabBase c + (kindNumber k * c.ntab + t) * (1 + c.tabCap)

/-- `WBASE(w)` (20_memory.md R88). -/
def waveAddr (c : Config) (w : Nat) : Nat := waveBase c + w * (1 + c.waveCap)

/-! Effective lengths: a length byte above the capacity is read as the capacity (20_memory.md R92). -/

/-- `PLEN_eff(i)`. -/
def progLen (c : Config) (m : Memory) (i : Nat) : Nat := min (m.read (instrAddr c i)).toNat c.progCap

/-- `TLEN_eff(k, t)`. -/
def tableLen (c : Config) (m : Memory) (k : Kind) (t : Nat) : Nat := min (m.read (tableAddr c k t)).toNat c.tabCap

/-- `WLEN_eff(w)`. -/
def waveLen (c : Config) (m : Memory) (w : Nat) : Nat := min (m.read (waveAddr c w)).toNat c.waveCap

/-- `SONG_LEN_eff`. -/
def songLen (c : Config) (m : Memory) : Nat := min (m.read 0).toNat c.songCap

/-- Value `j` of table `(k, t)` (20_memory.md R87). -/
def tableValue (c : Config) (m : Memory) (k : Kind) (t j : Nat) : Byte := m.read (tableAddr c k t + 1 + j)

/-- The byte of the store at an address, as the engine and the host read it. -/
def State.readByte (s : State) (a : Nat) : Byte := Memory.read s.store a

end Sys2Proof.Machine
end

