-- ==== Sys2Proof/Machine/Flags.lean ====
section
/-! DEFINITION. The engine's status bits and the words computed from them: the gate and its alias (10_state.md R44), the
status word (R32), the fault word (R33) and the gate word (R34). -/

namespace Sys2Proof.Machine

/-- The gate of a channel: the stored bit in dialect A, `ctrl[0]` in dialect B (10_state.md R44). -/
def gateOf (d : Dialect) (x : Channel) : Bool :=
  match d with
  | .A => x.gateBit
  | .B => x.ctrl.getLsbD 0

/-- A write of the gate (10_state.md R44). -/
def setGate (d : Dialect) (v : Bool) (x : Channel) : Channel :=
  match d with
  | .A => { x with gateBit := v }
  | .B => { x with ctrl := setBit x.ctrl 0 v }

/-- The number of a mode (10_state.md R31). -/
def modeCode : Mode → Nat
  | .idle => 0
  | .song => 1
  | .pattern => 2

/-- The selector value of a waveform (10_state.md R45). -/
def waveCode : Wave → Byte
  | .pulse => 0
  | .saw => 1
  | .tri => 2
  | .noise => 3
  | .table w => 1#1 ++ w

/-- The word whose bit `c` is `f` of channel `c`, for the channels there are. -/
def channelBits (f : Channel → Bool) : List Voice → Nat
  | [] => 0
  | v :: rest => (if f v.ch then 1 else 0) + 2 * channelBits f rest

/-- `FAULTS` as the host reads it: bits of channels that do not exist read 0 (10_state.md R33). -/
def faultsWord (s : State) : BitVec 32 := BitVec.ofNat 32 (s.faults.toNat % 2 ^ s.cfg.nch)

/-- `GATES`: bit c is the gate of channel c (10_state.md R34). -/
def gatesWord (s : State) : BitVec 32 := BitVec.ofNat 32 (channelBits (gateOf s.cfg.dialect) s.voices)

/-- `STATUS`: the mode in bits 1..0, FAULT in bit 2, `active` of channel c in bit 8+c (10_state.md R32). -/
def statusWord (s : State) : BitVec 32 :=
  BitVec.ofNat 32 (modeCode s.eng.mode + (if faultsWord s = 0 then 0 else 4) + 256 * channelBits (·.active) s.voices)

/-- `isPlaying()` is `STATUS[1:0] != 0` (10_state.md R32). -/
def isPlayingBit (s : State) : Bool := (statusWord s).extractLsb' 0 2 != 0

end Sys2Proof.Machine
end

