-- ==== Sys2Proof/Machine/Operands.lean ====
section
/-! DEFINITION. How an instruction's operand becomes a register value: the extensions and scalings of 30_encoding.md R113
and R120 and of the instruction rules. -/

namespace Sys2Proof.Machine

/-- A note brought into 1..NOTE_MAX (41_dialect_a.md R195, R196; 43_sequencer.md R250). -/
def clampNote (c : Config) (v : Int) : Byte := BitVec.ofInt 8 (clamp v 1 c.noteMax)

/-- A literal duty or pan is doubled (41_dialect_a.md R181, R189). -/
def doubleLiteral (l : BitVec 7) : Byte := BitVec.ofNat 8 (2 * l.toNat)

/-- A literal volume is multiplied by 16 and capped at 255 (41_dialect_a.md R192). -/
def volumeLiteral (l : BitVec 7) : Byte := BitVec.ofNat 8 (min (16 * l.toNat) 255)

/-- The register value of a literal of a kind (41_dialect_a.md R181, R189, R192). -/
def literalValue : Kind → BitVec 7 → Byte
  | .vol => volumeLiteral
  | .duty => doubleLiteral
  | .pan => doubleLiteral

/-- The inertia operand in step units per tick (41_dialect_a.md R183). -/
def inertiaOf (p : Byte) : BitVec 32 := BitVec.ofNat 32 (p.toNat * 4096)

/-- The backward target of a loop of offset `o` from index `cursor`, stopping at 0 (41_dialect_a.md R193). -/
def loopTarget (cursor : Byte) (o : Nat) : Byte := BitVec.ofNat 8 (cursor.toNat - o)

/-- A stretch of 0 behaves as 1 (40_interpreter.md R160). -/
def stretchOf (st : BitVec 4) : BitVec 4 := if st = 0 then 1 else st

/-- The waveform a WS operand selects under a configuration; `none` is the no-op form (41_dialect_a.md R194). -/
def waveOf (c : Config) : WaveSelect → Option Wave
  | .pulse => some .pulse
  | .saw => some .saw
  | .tri => some .tri
  | .noise => some .noise
  | .table w => if w.toNat < c.nwave then some (.table w) else none
  | .other _ => none

/-- The CTRL byte B.CTRL writes: NOISE, PULSE, SAW, TRI, TEST from p[5:1], RING and SYNC kept, GATE from p[0]
(42_dialect_b.md R210). -/
def controlByte (ctrl : Byte) (p : BitVec 6) : Byte :=
  p.extractLsb' 1 5 ++ ctrl.extractLsb' 1 2 ++ p.extractLsb' 0 1

/-- A dialect B pitch set value, 16 units a step (42_dialect_b.md R213). -/
def pitchSet (v : BitVec 4) : BitVec 16 := BitVec.ofInt 16 (16 * v.toInt)

/-- A dialect B pulse-width set value, 256 units a step (42_dialect_b.md R214). -/
def widthSet (v : BitVec 4) : BitVec 12 := BitVec.ofNat 12 (256 * v.toNat)

/-- A dialect B vibrato depth, 16 units a step (42_dialect_b.md R216). -/
def vibDepthB (d : BitVec 3) : BitVec 7 := BitVec.ofNat 7 (16 * d.toNat)

/-- A dialect B vibrato rate, `4 << r` (42_dialect_b.md R216). -/
def vibRateB (r : BitVec 2) : BitVec 8 := BitVec.ofNat 8 (4 * 2 ^ r.toNat)

end Sys2Proof.Machine
end

