-- ==== Sys2Proof/Machine/Ops.lean ====
section
/-! DEFINITION. The named operations over registers and memory that the instruction rules share: the current channel, how
a rule continues or stops the run, the end of a program, the RUNAWAY fault, table binding and stepping, and the note
events. -/

namespace Sys2Proof.Machine

/-- One channel's registers; a channel that does not exist shows power-on values (log entry 21). -/
def State.voice (s : State) (c : Nat) : Voice := s.voices.getD c (voicePowerOn s.cfg)

/-- `ch[c]` (00_scope.md R17). -/
def State.ch (s : State) (c : Nat) : Channel := (s.voice c).ch

/-- A write to `ch[c]`, every other channel kept (00_scope.md R17). -/
def State.mapCh (s : State) (c : Nat) (f : Channel → Channel) : State :=
  { s with voices := s.voices.modify c fun v => { v with ch := f v.ch } }

/-- A rule that returns CONTINUE (40_interpreter.md R151): its register writes on the running channel; the run goes on. -/
def State.continueWith (s : State) (f : Channel → Channel) : Host.Outcome State Fault Refusal :=
  .next (s.mapCh s.cur f)

/-- A rule that returns STOP (40_interpreter.md R151): its register writes; the channel's run ends and its modulation is
next (43_sequencer.md R240 step 4). -/
def State.stopWith (s : State) (f : Channel → Channel) : Host.Outcome State Fault Refusal :=
  .next { s.mapCh s.cur f with phase := .modulate }

/-- The default advance of the cursor (10_state.md R41). -/
def advance (x : Channel) : Channel := { x with cursor := x.cursor + 1 }

/-- `EndProgram(c)` (40_interpreter.md R153). -/
def endProgram (x : Channel) : Channel := { x with active := false, cursor := 0 }

/-- Taking the one fault, `raise Fault(RUNAWAY, c)` (60_exceptions.md R390, R391): the sticky bit of the current channel is
set and its run ends; `active`, `cursor` and everything else stay. No control is transferred and there is no return from it
(R394). -/
def State.raiseRunaway (s : State) : State :=
  { s with faults := s.faults ||| (1#16 <<< s.cur), phase := .modulate }

/-- `REG(k)` (40_interpreter.md R160). -/
def kindReg (k : Kind) (x : Channel) : Byte :=
  match k with
  | .vol => x.vol
  | .duty => x.duty
  | .pan => x.pan

/-- A write of `REG(k)`. -/
def setKindReg (k : Kind) (b : Byte) (x : Channel) : Channel :=
  match k with
  | .vol => { x with vol := b }
  | .duty => { x with duty := b }
  | .pan => { x with pan := b }

/-- `tb[k]` (10_state.md R43). -/
def binding (k : Kind) (x : Channel) : TableBinding :=
  match k with
  | .vol => x.tbVol
  | .duty => x.tbDuty
  | .pan => x.tbPan

/-- A write of `tb[k]`. -/
def setBinding (k : Kind) (b : TableBinding) (x : Channel) : Channel :=
  match k with
  | .vol => { x with tbVol := b }
  | .duty => { x with tbDuty := b }
  | .pan => { x with tbPan := b }

/-- `Bind(c, k, t, s)` (40_interpreter.md R160, R163). -/
def bindTable (c : Config) (m : Memory) (k : Kind) (t : BitVec 3) (st : BitVec 4) (x : Channel) : Channel :=
  if c.hasTables && decide (t.toNat < c.ntab) then
    let bound := setBinding k { on := true, t := t, idx := 0, cnt := stretchOf st, s := stretchOf st } x
    if 0 < tableLen c m k t.toNat then setKindReg k (tableValue c m k t.toNat 0) bound else bound
  else x

/-- `TableStep(c, k)` (40_interpreter.md R161, R162), for a binding that is on. -/
def tableStep (c : Config) (m : Memory) (k : Kind) (x : Channel) : Channel :=
  let b := binding k x
  let len := tableLen c m k b.t.toNat
  if len = 0 then x
  else if len ≤ b.idx.toNat then
    setKindReg k (tableValue c m k b.t.toNat (len - 1)) (setBinding k { b with idx := BitVec.ofNat 8 (len - 1) } x)
  else if b.idx.toNat + 1 < len then
    if b.cnt - 1 = 0 then
      setKindReg k (tableValue c m k b.t.toNat (b.idx.toNat + 1))
        (setBinding k { b with idx := b.idx + 1, cnt := b.s } x)
    else setBinding k { b with cnt := b.cnt - 1 } x
  else x

/-- One kind of tick step 1: a step where the binding is on (43_sequencer.md R240). -/
def stepIfBound (c : Config) (m : Memory) (k : Kind) (x : Channel) : Channel :=
  if (binding k x).on then tableStep c m k x else x

/-- Tick step 1 for one channel: VOL, DUTY, PAN in this order (43_sequencer.md R240). -/
def tableSteps (c : Config) (m : Memory) (x : Channel) : Channel :=
  stepIfBound c m .pan (stepIfBound c m .duty (stepIfBound c m .vol x))

/-- `Trigger(c, n, i)` (43_sequencer.md R255): the trigger column of 10_state.md R40. The three sequencer fields are kept
(R256); in dialect A the gate is set, in dialect B it is `ctrl[0]` and so cleared with CTRL. -/
def trigger (c : Config) (n i : Byte) (x : Channel) : Channel :=
  { channelPowerOn with
    instr := i, active := true, trigNote := n, progNote := n, vol := 0xF0,
    gateBit := (match c.dialect with | .A => true | .B => x.gateBit),
    seqPat := x.seqPat, seqTr := x.seqTr, lastInstr := x.lastInstr }

/-- `NoteOff(c)` (43_sequencer.md R257): the gate is cleared; in dialect B a running channel with a release point goes
there, and otherwise the program ends. -/
def noteOff (d : Dialect) (x : Channel) : Channel :=
  let y := setGate d false x
  if d = .B && x.releaseOk && x.active then { y with cursor := x.release, wait := 0, releaseOk := false }
  else { y with active := false, cursor := 0 }

/-- The stop column of 10_state.md R40: every field as at power-on except `wave`, which is kept. -/
def channelStop (x : Channel) : Channel := { channelPowerOn with wave := x.wave }

end Sys2Proof.Machine
end

