-- ==== Sys2Proof/Machine/DialectA.lean ====
section
/-! DEFINITION. The dialect A instructions (41_dialect_a.md): for each, the register writes of its rule (which a pattern
effect performs too, 43_sequencer.md R259) and its meaning in a program, which also moves the cursor. -/

namespace Sys2Proof.Machine

/-- The register writes of an LT instruction of kind `k`: a literal is stored and unbinds, a table form binds
(41_dialect_a.md R181, R189, R192). -/
def writeLitOrTable (c : Config) (m : Memory) (k : Kind) (p : LitOrTable) (x : Channel) : Channel :=
  match p with
  | .lit l => setBinding k bindingOff (setKindReg k (literalValue k l) x)
  | .table t st => bindTable c m k t st x

/-- The register writes of A.END (41_dialect_a.md R180) and of the END effect (43_sequencer.md R260). -/
def writeEnd (d : Dialect) (x : Channel) : Channel := setGate d false { x with active := false, cursor := 0 }

/-- The register write of A.FADE (41_dialect_a.md R182). -/
def writeFade (p : Byte) (x : Channel) : Channel := { x with fade := p }

/-- The register write of A.INERT (41_dialect_a.md R183). -/
def writeInertia (p : Byte) (x : Channel) : Channel := { x with inertia := inertiaOf p }

/-- The register write of A.FLO (41_dialect_a.md R185). -/
def writeCutLo (p : Byte) (x : Channel) : Channel := { x with cutLo := p }

/-- The register write of A.FHI (41_dialect_a.md R186). -/
def writeCutHi (p : Byte) (x : Channel) : Channel := { x with cutHi := p }

/-- The register writes of A.VDEP (41_dialect_a.md R187): the phase restarts only if the depth changes. -/
def writeVibDepth (depth : BitVec 7) (mode : Bool) (x : Channel) : Channel :=
  { x with
    vibPhase := if depth = x.vibDepth then x.vibPhase else 0
    vibDepth := depth
    vibMode := mode }

/-- The register write of A.VRATE (41_dialect_a.md R188). -/
def writeVibRate (p : Byte) (x : Channel) : Channel := { x with vibRate := p }

/-- The register write of A.BEND (41_dialect_a.md R190). -/
def writeBendRate (p : Byte) (x : Channel) : Channel := { x with bendRate := p }

/-- The register write of A.WAVE (41_dialect_a.md R194). -/
def writeWave (c : Config) (p : WaveSelect) (x : Channel) : Channel :=
  match waveOf c p with
  | some w => { x with wave := w }
  | none => x

/-- The register write of A.NOTE (41_dialect_a.md R195). -/
def writeNote (c : Config) (p : Byte) (x : Channel) : Channel := { x with progNote := clampNote c p.toNat }

/-- The register write of A.NREL (41_dialect_a.md R196). -/
def writeNoteRel (c : Config) (p : Byte) (x : Channel) : Channel :=
  { x with progNote := clampNote c (x.trigNote.toNat + p.toInt) }

/-- A.END (41_dialect_a.md R180). -/
def execAEnd (s : State) : Host.Outcome State Fault Refusal := s.stopWith (writeEnd s.cfg.dialect)

/-- A.DUTY (41_dialect_a.md R181). -/
def execADuty (p : LitOrTable) (s : State) : Host.Outcome State Fault Refusal :=
  s.continueWith fun x => advance (writeLitOrTable s.cfg s.store .duty p x)

/-- A.FADE (41_dialect_a.md R182). -/
def execAFade (p : Byte) (s : State) : Host.Outcome State Fault Refusal :=
  s.continueWith fun x => advance (writeFade p x)

/-- A.INERT (41_dialect_a.md R183). -/
def execAInert (p : Byte) (s : State) : Host.Outcome State Fault Refusal :=
  s.continueWith fun x => advance (writeInertia p x)

/-- A.JUMP (41_dialect_a.md R184). -/
def execAJump (p : Byte) (s : State) : Host.Outcome State Fault Refusal :=
  s.continueWith fun x => { x with cursor := p }

/-- A.FLO (41_dialect_a.md R185). -/
def execAFlo (p : Byte) (s : State) : Host.Outcome State Fault Refusal :=
  s.continueWith fun x => advance (writeCutLo p x)

/-- A.FHI (41_dialect_a.md R186). -/
def execAFhi (p : Byte) (s : State) : Host.Outcome State Fault Refusal :=
  s.continueWith fun x => advance (writeCutHi p x)

/-- A.VDEP (41_dialect_a.md R187). -/
def execAVdep (depth : BitVec 7) (mode : Bool) (s : State) : Host.Outcome State Fault Refusal :=
  s.continueWith fun x => advance (writeVibDepth depth mode x)

/-- A.VRATE (41_dialect_a.md R188). -/
def execAVrate (p : Byte) (s : State) : Host.Outcome State Fault Refusal :=
  s.continueWith fun x => advance (writeVibRate p x)

/-- A.PAN (41_dialect_a.md R189). -/
def execAPan (p : LitOrTable) (s : State) : Host.Outcome State Fault Refusal :=
  s.continueWith fun x => advance (writeLitOrTable s.cfg s.store .pan p x)

/-- A.BEND (41_dialect_a.md R190). -/
def execABend (p : Byte) (s : State) : Host.Outcome State Fault Refusal :=
  s.continueWith fun x => advance (writeBendRate p x)

/-- A.WAIT (41_dialect_a.md R191). -/
def execAWait (p : Byte) (s : State) : Host.Outcome State Fault Refusal :=
  s.stopWith fun x => advance { x with wait := p }

/-- A.VOL (41_dialect_a.md R192). -/
def execAVol (p : LitOrTable) (s : State) : Host.Outcome State Fault Refusal :=
  s.continueWith fun x => advance (writeLitOrTable s.cfg s.store .vol p x)

/-- A.LOOP (41_dialect_a.md R193). -/
def execALoop (p : Byte) (s : State) : Host.Outcome State Fault Refusal :=
  if p = 0 then s.stopWith endProgram
  else s.continueWith fun x => { x with cursor := loopTarget x.cursor p.toNat }

/-- A.WAVE (41_dialect_a.md R194). -/
def execAWave (p : WaveSelect) (s : State) : Host.Outcome State Fault Refusal :=
  s.continueWith fun x => advance (writeWave s.cfg p x)

/-- A.NOTE (41_dialect_a.md R195). -/
def execANote (p : Byte) (s : State) : Host.Outcome State Fault Refusal :=
  s.continueWith fun x => advance (writeNote s.cfg p x)

/-- A.NREL (41_dialect_a.md R196). -/
def execANrel (p : Byte) (s : State) : Host.Outcome State Fault Refusal :=
  s.continueWith fun x => advance (writeNoteRel s.cfg p x)

/-- A.NOP (41_dialect_a.md R197). -/
def execANop (s : State) : Host.Outcome State Fault Refusal := s.continueWith advance

end Sys2Proof.Machine
end

