-- ==== Sys2Proof/Machine/Sequencer.lean ====
section
/-! DEFINITION. The tick's steps 1 to 3 and 5 and the playroutine (43_sequencer.md). -/

namespace Sys2Proof.Machine

/-- A pattern row (20_memory.md R85; 43_sequencer.md R249). -/
structure PatternRow where
  note : Byte
  instr : Byte
  cmd1 : Byte
  par1 : Byte
  cmd2 : Byte
  par2 : Byte
  deriving DecidableEq, Repr

/-- The empty row (43_sequencer.md R249). -/
def emptyRow : PatternRow := { note := 0, instr := 0, cmd1 := 0, par1 := 0, cmd2 := 0, par2 := 0 }

/-- A note byte as the engine reads it: a value above NOTE_MAX that is not the note-off is no note (43_sequencer.md R243). -/
def readNote (c : Config) (n : Byte) : Byte := if c.noteMax < n.toNat ∧ n ≠ 0xFF then 0 else n

/-- `ReadRow(p, k)` (43_sequencer.md R249). -/
def readRow (c : Config) (m : Memory) (p k : Nat) : PatternRow :=
  if p < c.npat then
    let a := rowAddr c p k
    { note := readNote c (m.read a), instr := m.read (a + 1), cmd1 := m.read (a + 2), par1 := m.read (a + 3),
      cmd2 := m.read (a + 4), par2 := m.read (a + 5) }
  else emptyRow

/-- What an effect does to its channel: the register writes of the dialect A instruction without the cursor's; END stops
the channel; WAIT, LOOP, JUMP and commands that are no tag do nothing (43_sequencer.md R259, R260). -/
def effectOf (c : Config) (m : Memory) (i : Instr) (x : Channel) : Channel :=
  match i with
  | .aEnd => writeEnd c.dialect x
  | .aDuty p => writeLitOrTable c m .duty p x
  | .aFade p => writeFade p x
  | .aInert p => writeInertia p x
  | .aJump _ => x
  | .aFlo p => writeCutLo p x
  | .aFhi p => writeCutHi p x
  | .aVdep depth mode => writeVibDepth depth mode x
  | .aVrate p => writeVibRate p x
  | .aPan p => writeLitOrTable c m .pan p x
  | .aBend p => writeBendRate p x
  | .aWait _ => x
  | .aVol p => writeLitOrTable c m .vol p x
  | .aLoop _ => x
  | .aWave p => writeWave c p x
  | .aNote p => writeNote c p x
  | .aNrel p => writeNoteRel c p x
  | .aNop => x
  | .bCtrl _ => x
  | .bIncp _ => x
  | .bIncw _ => x
  | .bSetp _ => x
  | .bSetw _ => x
  | .bArp _ => x
  | .bVib _ _ => x
  | .bWait _ => x
  | .bLoop _ => x
  | .bRsvd => x
  | .bSync _ => x
  | .bRing _ => x
  | .bExt _ => x
  | .bNoff => x

/-- `ExecEffect(c, cmd, par)`, with dialect A tags in both dialects; command 0 is no effect (30_encoding.md R122). -/
def execEffect (c : Config) (m : Memory) (cmd par : Byte) (x : Channel) : Channel :=
  if cmd = 0 then x else effectOf c m (decodeA cmd par) x

/-- The instrument number a row gives: 0, or above NINS, is none (43_sequencer.md R250, R252). -/
def rowInstr (c : Config) (n : Byte) : Byte := if 1 ≤ n.toNat ∧ n.toNat ≤ c.nins then n else 0

/-- The note part of `ProcessRow` (43_sequencer.md R250 to R254). -/
def processNote (c : Config) (r : PatternRow) (tr : Int) (x : Channel) : Channel :=
  if r.note = 0xFF then noteOff c.dialect x
  else
    let i := rowInstr c r.instr
    let y := if i = 0 then x else { x with lastInstr := i }
    if r.note = 0 ∨ y.lastInstr = 0 then y
    else trigger c (clampNote c (r.note.toNat + tr)) y.lastInstr y

/-- `ProcessRow(c, r, tr)`: the note, then effect 1, then effect 2 (43_sequencer.md R250). -/
def processRow (c : Config) (m : Memory) (r : PatternRow) (tr : Int) (x : Channel) : Channel :=
  execEffect c m r.cmd2 r.par2 (execEffect c m r.cmd1 r.par1 (processNote c r tr x))

/-- `Stop()` (43_sequencer.md R262). -/
def State.stopAll (s : State) : State :=
  { s with
    eng := { s.eng with mode := .idle, row := 0, rowWait := 0 }
    voices := s.voices.map fun v => { v with ch := channelStop v.ch, plonk := .none } }

/-- `StartSong(r)` (43_sequencer.md R264). -/
def State.startSong (s : State) (r : BitVec 8) : State :=
  let t := s.stopAll
  { t with eng := { t.eng with mode := .song, songNext := r.setWidth 9, row := 0, rowWait := 0, sptCnt := 0, tickRem := 0 } }

/-- `StartPattern(p, r, c)` (43_sequencer.md R264). -/
def State.startPattern (s : State) (p r : BitVec 8) (c : Nat) : State :=
  let t := s.stopAll
  { t with
    eng := { t.eng with
      mode := .pattern, patIdx := p, patCh := BitVec.ofNat 4 c, row := BitVec.ofNat 8 (r.toNat % s.cfg.patLen),
      rowWait := 0, sptCnt := 0, tickRem := 0 } }

/-- What `AdvanceSong` loads into channel `c` from song row `r` (43_sequencer.md R247; 20_memory.md R84). -/
def loadSongCell (cfg : Config) (m : Memory) (r c : Nat) (x : Channel) : Channel :=
  { x with seqPat := m.read (songAddr cfg r c), seqTr := m.read (songAddr cfg r c + 1) }

/-- Song row `r` becomes the current one: the song registers and every channel's pattern and transpose
(43_sequencer.md R247). -/
def State.loadSongRow (s : State) (r : Nat) : State :=
  { s with
    eng := { s.eng with songPos := BitVec.ofNat 8 r, songNext := BitVec.ofNat 9 (r + 1) }
    voices := s.voices.mapIdx fun c v => { v with ch := loadSongCell s.cfg s.store r c v.ch } }

/-- `AdvanceSong()` (43_sequencer.md R247): the state after it and whether the song ENDED. -/
def State.advanceSong (s : State) : State × Bool :=
  let len := songLen s.cfg s.store
  if s.eng.songNext.toNat < len then (s.loadSongRow s.eng.songNext.toNat, false)
  else if s.readByte 2 ≠ 0 ∧ 0 < len then (s.loadSongRow 0, false)
  else (s.stopAll, true)

/-- The rows of one row step: every channel's in SONG mode, the one channel's in PATTERN mode (43_sequencer.md R245,
R248). -/
def State.playRows (s : State) : State :=
  let row := s.eng.row.toNat
  if s.eng.mode = .pattern then
    s.mapCh s.eng.patCh.toNat (processRow s.cfg s.store (readRow s.cfg s.store s.eng.patIdx.toNat row) 0)
  else
    { s with
      voices := s.voices.map fun v =>
        { v with ch := processRow s.cfg s.store (readRow s.cfg s.store v.ch.seqPat.toNat row) v.ch.seqTr.toInt v.ch } }

/-- The row register's advance, modulo the pattern length (43_sequencer.md R245). -/
def State.nextRow (s : State) : State :=
  { s with eng := { s.eng with row := BitVec.ofNat 8 ((s.eng.row.toNat + 1) % s.cfg.patLen) } }

/-- `RowStep()` (43_sequencer.md R245). -/
def State.rowStep (s : State) : State :=
  if s.eng.rowWait ≠ 0 then { s with eng := { s.eng with rowWait := s.eng.rowWait - 1 } }
  else
    let t := { s with eng := { s.eng with rowWait := s.readByte 1 } }
    if s.eng.mode = .song ∧ s.eng.row = 0 then
      match t.advanceSong with
      | (u, true) => u
      | (u, false) => u.playRows.nextRow
    else t.playRows.nextRow

/-- `ApplyPlonk(c)` (43_sequencer.md R265). -/
def applyPlonk (c : Config) (v : Voice) : Voice :=
  match v.plonk with
  | .none => v
  | .off => { v with ch := noteOff c.dialect v.ch, plonk := .none }
  | .on note instr =>
    if 1 ≤ note.toNat ∧ note.toNat ≤ c.noteMax ∧ 1 ≤ instr.toNat ∧ instr.toNat ≤ c.nins then
      { v with ch := trigger c note instr v.ch, plonk := .none }
    else { v with plonk := .none }

/-- A binding that is on names a table that exists (20_memory.md R94). -/
def bindingInStore (c : Config) (b : TableBinding) : Bool := !b.on || decide (b.t.toNat < c.ntab)

/-- Every binding that is on names a table that exists. -/
def bindingsInStore (c : Config) (x : Channel) : Bool :=
  bindingInStore c x.tbVol && bindingInStore c x.tbDuty && bindingInStore c x.tbPan

/-- Tick step 1 (43_sequencer.md R240). -/
def tablesStep (s : State) : Host.Outcome State Fault Refusal :=
  if s.voices.all fun v => bindingsInStore s.cfg v.ch then
    .next { s with
      voices := s.voices.map fun v => { v with ch := tableSteps s.cfg s.store v.ch }
      phase := .plonks }
  else .fault .tableRead

/-- Tick step 2 (43_sequencer.md R240). -/
def plonksStep (s : State) : State := { s with voices := s.voices.map (applyPlonk s.cfg), phase := .row }

/-- A row is due: the sequencer runs and its wait counter is 0 (43_sequencer.md R245). -/
def rowDue (s : State) : Bool := s.eng.mode != .idle && s.eng.rowWait == 0

/-- Tick step 3 (43_sequencer.md R240); tick step 4 starts at channel 0. -/
def rowPhase (s : State) : Host.Outcome State Fault Refusal :=
  if rowDue s && decide (s.cfg.patLen ≤ s.eng.row.toNat) then .fault .rowRead
  else
    let t := if s.eng.mode = .idle then s else s.rowStep
    .next { t with cur := 0, phase := .run }

/-- What the snapshot shows of a channel (43_sequencer.md R266; 10_state.md R55). -/
def viewOf (d : Dialect) (v : Voice) : ChannelView where
  ch := v.ch
  gate := gateOf d v.ch
  step := v.osc.step
  duty := v.osc.duty
  regs := [v.osc.reg0, v.osc.reg1, v.osc.reg2, v.osc.reg3, v.ch.ctrl]

/-- The tick's snapshot (43_sequencer.md R266). -/
def snapshotOf (s : State) : Snapshot where
  channels := s.voices.map (viewOf s.cfg.dialect)
  mode := s.eng.mode
  songPos := s.eng.songPos
  row := s.eng.row
  rowWait := s.eng.rowWait

/-- The tick timer after a tick: the next period with the running remainder (43_sequencer.md R241). -/
def tickTimer (c : Config) (e : Engine) : Engine :=
  let total := e.tickRem.toNat + c.fs
  { e with sptCnt := BitVec.ofNat 32 (total / c.tickHz), tickRem := BitVec.ofNat 32 (total % c.tickHz) }

/-- Tick step 5 and the tick timer (43_sequencer.md R240, R241). -/
def snapshotStep (s : State) : State :=
  { s with snap := some (snapshotOf s), eng := tickTimer s.cfg s.eng, phase := .render }

end Sys2Proof.Machine
end

