-- ==== Sys2Proof/Machine/Oscillator.lean ====
section
/-! DEFINITION. The oscillator clock (44_oscillator.md R300 to R309): phase accumulators, waveform levels, noise, hard sync
and ring modulation. -/

namespace Sys2Proof.Machine

/-- `ph[31:24]` (44_oscillator.md R301). -/
def phaseTop (ph : BitVec 32) : Byte := ph.extractLsb' 24 8

/-- The triangle with fold bit `m` (44_oscillator.md R301, R308). -/
def triLevel (m : Bool) (ph : BitVec 32) : Byte :=
  let ramp : Byte := ph.extractLsb' 23 8
  if m then 255#8 - ramp else ramp

/-- The level of wavetable `w` (44_oscillator.md R304). -/
def waveLevel (c : Config) (m : Memory) (w : Nat) (ph : BitVec 32) : Byte :=
  let len := waveLen c m w
  if len = 0 then 128 else m.read (waveAddr c w + 1 + (phaseTop ph).toNat * len / 256)

/-- The level of dialect A (44_oscillator.md R301). -/
def levelA (c : Config) (m : Memory) (v : Voice) : Byte :=
  let ph := v.osc.phase
  match v.ch.wave with
  | .pulse => if (phaseTop ph).toNat < v.osc.duty.toNat then 255 else 0
  | .saw => phaseTop ph
  | .tri => triLevel (ph.getLsbD 31) ph
  | .noise => v.osc.lfsr.extractLsb' 0 8
  | .table w => waveLevel c m w.toNat ph

/-- The pulse width the dialect B oscillator reads back from its shadow registers (44_oscillator.md R296). -/
def pulseWidth (o : Osc) : Nat := o.reg2.toNat + 256 * (o.reg3.extractLsb' 0 4).toNat

/-- The dialect B triangle: with RING its fold bit is crossed with the source's top phase bit (44_oscillator.md R308). -/
def triB (src : Osc) (v : Voice) : Byte :=
  let fold := v.osc.phase.getLsbD 31
  triLevel (if v.ch.ctrl.getLsbD 2 then fold ^^ src.phase.getLsbD 31 else fold) v.osc.phase

/-- The level of a dialect B channel from its CTRL waveform bits, combined by AND, 128 with none (44_oscillator.md R305). -/
def ctrlLevel (src : Osc) (v : Voice) : Byte :=
  let ph := v.osc.phase
  let pulse : Byte := if (ph.extractLsb' 20 12).toNat < pulseWidth v.osc then 0xFF else 0x00
  let tri : Byte := if v.ch.ctrl.getLsbD 4 then triB src v else 0xFF
  let saw : Byte := if v.ch.ctrl.getLsbD 5 then phaseTop ph else 0xFF
  let pul : Byte := if v.ch.ctrl.getLsbD 6 then pulse else 0xFF
  let noi : Byte := if v.ch.ctrl.getLsbD 7 then v.osc.lfsr.extractLsb' 0 8 else 0xFF
  if v.ch.ctrl.extractLsb' 4 4 = 0 then 128 else tri &&& saw &&& pul &&& noi

/-- The level of dialect B, the external voice included (44_oscillator.md R305, R306). -/
def levelB (c : Config) (m : Memory) (src : Osc) (v : Voice) : Byte :=
  match v.ch.ext, v.ch.wave with
  | true, .table w => waveLevel c m w.toNat v.osc.phase
  | _, _ => ctrlLevel src v

/-- The sync and ring source of channel `c` (44_oscillator.md R307). -/
def sourceOf (n c : Nat) : Nat := (c + n - 1) % n

/-- The oscillator of channel `c`'s source. -/
def sourceOsc (cfg : Config) (vs : List Voice) (c : Nat) : Osc :=
  (vs.getD (sourceOf cfg.nch c) (voicePowerOn cfg)).osc

/-- `Level(c)` (44_oscillator.md R301, R305). -/
def levelOf (cfg : Config) (m : Memory) (vs : List Voice) (c : Nat) (v : Voice) : Byte :=
  match cfg.dialect with
  | .A => levelA cfg m v
  | .B => levelB cfg m (sourceOsc cfg vs c) v

/-- `NoiseShift` (44_oscillator.md R303). -/
def noiseShift (taps x : BitVec 16) : BitVec 16 := if x.getLsbD 0 then (x >>> 1) ^^^ taps else x >>> 1

/-- The phase accumulator's advance by one clock, TEST apart (44_oscillator.md R300). -/
def advancePhase (cfg : Config) (o : Osc) : Osc :=
  let q := o.phase + o.step
  { o with
    phase := q
    wrapped := decide (2 ^ 32 ≤ o.phase.toNat + o.step.toNat)
    lfsr := if q.extractLsb' 28 4 = o.phase.extractLsb' 28 4 then o.lfsr else noiseShift cfg.noiseTaps o.lfsr }

/-- One clock of one channel's oscillator: TEST holds the phase at 0 and reseeds the noise (44_oscillator.md R300). -/
def clockOsc (cfg : Config) (v : Voice) : Osc :=
  if cfg.dialect = .B && v.ch.ctrl.getLsbD 3 then
    { v.osc with phase := 0, lfsr := cfg.noiseSeed, wrapped := false }
  else advancePhase cfg v.osc

/-- Hard sync of channel `c` after every channel has advanced (44_oscillator.md R300, R307). DESIGN CHOICE, unsafe (log
entry 27): a channel synced to itself (NCH = 1) goes to phase 0 at its wrap, as R300's pseudocode says, though R307 infers
that this reset changes nothing. -/
def syncVoice (cfg : Config) (vs : List Voice) (c : Nat) (v : Voice) : Voice :=
  if cfg.dialect = .B && v.ch.ctrl.getLsbD 1 && (sourceOsc cfg vs c).wrapped then
    { v with osc := { v.osc with phase := 0 } }
  else v

/-- The levels of one clock, taken before the advance (44_oscillator.md R300). -/
def clockLevels (cfg : Config) (m : Memory) (vs : List Voice) : List Byte := vs.mapIdx (levelOf cfg m vs)

/-- The channels after one clock (44_oscillator.md R300). -/
def clockVoices (cfg : Config) (vs : List Voice) : List Voice :=
  let moved := vs.map fun v => { v with osc := clockOsc cfg v }
  moved.mapIdx (syncVoice cfg moved)

end Sys2Proof.Machine
end

