-- ==== Sys2Proof/Machine/Synth.lean ====
section
/-! DEFINITION. The sample synthesizer (45_synth.md): panning, direct and edge synthesis, the filter bank, the mixer, the
delay, and one output frame. -/

namespace Sys2Proof.Machine

/-- `Amp(c, s, U)` with the side's gain (45_synth.md R325); `S = U - 128` (44_oscillator.md R309). -/
def amplitude (d : Dialect) (x : Channel) (gain : Nat) (u : Byte) : Int :=
  if gateOf d x then asr (((u.toNat : Int) - 128) * x.vol.toNat * gain) 8 else 0

/-- The left gain (45_synth.md R325). -/
def gainLeft (x : Channel) : Nat := 255 - x.pan.toNat

/-- The right gain (45_synth.md R325). -/
def gainRight (x : Channel) : Nat := x.pan.toNat

/-- A value put into a signed 64-bit accumulator; one that does not fit leaves a free value (log entry 8). -/
def toAcc (v : Int) : BitVec 64 := if fitsSigned 64 v then BitVec.ofInt 64 v else Config.accOverflow v

/-- A value put into a signed 32-bit history cell; one that does not fit leaves a free value (log entry 9). -/
def toHist (v : Int) : BitVec 32 := if fitsSigned 32 v then BitVec.ofInt 32 v else Config.histOverflow v

/-- Sum of a list of integers. -/
def sumInt : List Int → Int
  | [] => 0
  | v :: rest => v + sumInt rest

/-- One FIR stage (45_synth.md R341): the output, and the history with the input pushed in front. -/
def firStage (kernel : List Int) (hist : List (BitVec 32)) (v : Int) : Int × List (BitVec 32) :=
  let acc := kernel.getD 0 0 * v + sumInt (List.zipWith (fun h b => h * b.toInt) (kernel.drop 1) hist)
  (clamp (asr acc 15) (-2147483648) 2147483647, (toHist v :: hist).take hist.length)

/-- `Fir(c, s, v)`: the high-pass stage chosen by `cut_lo`, then the low-pass stage chosen by `cut_hi`; absent, the value
passes (45_synth.md R341, R342). -/
def filterSide (cfg : Config) (x : Channel) (side : Side) (v : Int) : Int × Side :=
  if cfg.firEnable then
    let high := firStage (cfg.firHP.getD x.cutLo.toNat []) side.firh v
    let low := firStage (cfg.firLP.getD x.cutHi.toNat []) side.firl high.1
    (low.1, { side with firh := high.2, firl := low.2 })
  else (v, side)

/-- One clock of edge synthesis on one side: a changed amplitude injects its delta with the clock's kernel row
(45_synth.md R326). -/
def edgeClock (row : List Int) (a : Int) (side : Side) : Side :=
  if a = side.last.toInt then side
  else
    let d := a - side.last.toInt
    { side with
      last := BitVec.ofInt 32 a
      blep := List.zipWith (fun b k => toAcc (b.toInt + d * k)) side.blep row }

/-- The end of a frame of edge synthesis on one side: the output and the shifted accumulators (45_synth.md R326). -/
def edgeFlush (side : Side) : Int × Side :=
  let integ := toAcc (side.integ.toInt + (side.blep.getD 0 0).toInt)
  (asr integ.toInt 15, { side with integ := integ, blep := (side.blep ++ [0]).drop 1 })

/-- Clock `k` of a frame in EDGE mode, all channels (45_synth.md R326). -/
def edgeTurn (cfg : Config) (m : Memory) (vs : List Voice) (k : Nat) : List Voice :=
  let row := cfg.blepK.getD k []
  List.zipWith
    (fun v u =>
      { v with
        left := edgeClock row (amplitude cfg.dialect v.ch (gainLeft v.ch) u) v.left
        right := edgeClock row (amplitude cfg.dialect v.ch (gainRight v.ch) u) v.right })
    (clockVoices cfg vs) (clockLevels cfg m vs)

/-- The clocks of one frame in EDGE mode (45_synth.md R326). -/
def edgeClocks (cfg : Config) (m : Memory) (vs : List Voice) : List Voice :=
  (List.range cfg.oversample).foldl (edgeTurn cfg m) vs

/-- One channel's contribution to a frame: both sides' values and the channel after it. -/
structure Contribution where
  left : Int
  right : Int
  voice : Voice
  deriving DecidableEq, Repr

/-- One channel's direct samples (45_synth.md R322). -/
def directTurn (cfg : Config) (v : Voice) (u : Byte) : Contribution where
  left := amplitude cfg.dialect v.ch (gainLeft v.ch) u
  right := amplitude cfg.dialect v.ch (gainRight v.ch) u
  voice := v

/-- One channel's edge samples after the clocks of the frame (45_synth.md R326). -/
def edgeTake (v : Voice) : Contribution where
  left := (edgeFlush v.left).1
  right := (edgeFlush v.right).1
  voice := { v with left := (edgeFlush v.left).2, right := (edgeFlush v.right).2 }

/-- `x[c][s]` of every channel, before the post chain (45_synth.md R322, R326). -/
def renderVoices (cfg : Config) (m : Memory) (vs : List Voice) : List Contribution :=
  match cfg.synthMode with
  | .direct => List.zipWith (directTurn cfg) (clockVoices cfg vs) (clockLevels cfg m vs)
  | .edge => (edgeClocks cfg m vs).map edgeTake

/-- The filter bank on one channel's contribution (45_synth.md R330). -/
def filterTurn (cfg : Config) (x : Contribution) : Contribution :=
  let l := filterSide cfg x.voice.ch x.voice.left x.left
  let r := filterSide cfg x.voice.ch x.voice.right x.right
  { left := l.1, right := r.1, voice := { x.voice with left := l.2, right := r.2 } }

/-- The mixer of one side (45_synth.md R330, R345). -/
def mixSide (cfg : Config) (ys : List Int) : Int := sat16 (asr (sumInt ys) cfg.mixShift)

/-- `Delay(mL, mR)`: cross-fed, saturated (45_synth.md R350). -/
def delayTurn (cfg : Config) (d : Delay) (mL mR : Int) : Frame × Delay :=
  let wL := BitVec.ofInt 16 (sat16 (mL + asr (cfg.dfb * (sparseGet delayBlank d.right d.ptr).toInt) 8))
  let wR := BitVec.ofInt 16 (sat16 (mR + asr (cfg.dfb * (sparseGet delayBlank d.left d.ptr).toInt) 8))
  ({ left := wL, right := wR },
   { left := sparseSet delayBlank d.left d.ptr wL
     right := sparseSet delayBlank d.right d.ptr wR
     ptr := (d.ptr + 1) % cfg.dlen })

/-- `RenderFrame()`: the frame and the state after it (45_synth.md R321, R330). -/
def State.renderFrame (s : State) : Frame × State :=
  let ys := (renderVoices s.cfg s.store s.voices).map (filterTurn s.cfg)
  let made := delayTurn s.cfg s.delay (mixSide s.cfg (ys.map (·.left))) (mixSide s.cfg (ys.map (·.right)))
  (made.1, { s with voices := ys.map (·.voice), delay := made.2 })

/-- The wavetable a channel plays, if any: dialect A by `wave`, dialect B only with the external flag (44_oscillator.md
R301, R306). -/
def playedTable (d : Dialect) (x : Channel) : Option Nat :=
  match d, x.wave with
  | .A, .table w => some w.toNat
  | .B, .table w => if x.ext then some w.toNat else none
  | _, _ => none

/-- The wavetable a channel plays exists (20_memory.md R94). -/
def waveInStore (c : Config) (x : Channel) : Bool :=
  match playedTable c.dialect x with
  | some w => decide (w < c.nwave)
  | none => true

/-- One frame of `GetSamples` (45_synth.md R320). -/
def renderStep (s : State) : Host.Outcome State Fault Refusal :=
  if s.voices.all fun v => waveInStore s.cfg v.ch then
    let made := s.renderFrame
    .next { made.2 with
      out := s.out ++ [made.1]
      framesLeft := s.framesLeft - 1
      eng := { s.eng with sptCnt := s.eng.sptCnt - 1 }
      phase := .frame }
  else .fault .waveRead

/-- The bytes of a serialized frame: left first, each sample little-endian (45_synth.md R351; 20_memory.md R83). -/
def frameBytes (f : Frame) : List Byte :=
  [(packLE f.left).1, (packLE f.left).2, (packLE f.right).1, (packLE f.right).2]

end Sys2Proof.Machine
end

