-- ==== Sys2Proof/Machine/Commands.lean ====
section
/-! DEFINITION. The host's commands (46_host.md) and the frame loop of `GetSamples` (45_synth.md R320). -/

namespace Sys2Proof.Machine

/-- The octave of a note (43_sequencer.md R243). -/
def noteOctave (n : Nat) : Nat := (n - 1) / 12

/-- The semitone of a note, 0 = C (43_sequencer.md R243). -/
def noteSemitone (n : Nat) : Nat := (n - 1) % 12

/-- What the capability queries return (00_scope.md R11). -/
def capabilitiesOf (c : Config) : Capabilities where
  channels := c.nch
  patterns := c.npat
  patternRows := c.patLen
  instruments := c.nins
  programCap := c.progCap
  tables := c.ntab
  tableCap := c.tabCap
  waves := c.nwave
  waveCap := c.waveCap
  minOctave := noteOctave 1
  maxOctave := noteOctave c.noteMax
  hasTables := c.hasTables

/-- A command that ends at once, with its answer. -/
def State.answer (s : State) (r : Reply) : State := { s with reply := some r }

/-- The synthesizer state of one channel cleared (46_host.md R364). -/
def silenceVoice (c : Config) (v : Voice) : Voice := { v with left := sidePowerOn c, right := sidePowerOn c }

/-- `Silence()`: `Stop()`, then the EDGE, FIR and delay state cleared (46_host.md R364). -/
def State.silence (s : State) : State :=
  let t := s.stopAll
  { t with voices := t.voices.map (silenceVoice s.cfg), delay := delayPowerOn }

/-- `Init()`: power-on reset; the commands the host has still to issue and its shutdown flag are the host's and stay
(46_host.md R361). -/
def State.init (s : State) : State := { State.powerOn s.cfg with cmds := s.cmds, closed := s.closed }

/-- `NewSong()`: `Stop()` and the new-song image (46_host.md R367). -/
def State.newSong (s : State) : State := { s.stopAll with store := [] }

/-- `Plonk(...)` on a channel that exists (46_host.md R363). -/
def State.latchPlonk (s : State) (c : Nat) (e : Plonk) : State :=
  { s with voices := s.voices.modify c fun v => { v with plonk := e } }

/-- One command, from its start (46_host.md R361 to R371). `GetSamples` enters the frame loop; every other command ends
at once. -/
def runCommand (cmd : Command) (s : State) : State :=
  match cmd with
  | .init => s.init.answer .ok
  | .shutdown => { s with closed := true }.answer .ok
  | .playSongFrom r => (s.startSong r).answer .ok
  | .playPatternFrom p r c => if c < s.cfg.nch then (s.startPattern p r c).answer .ok else s.answer .errRange
  | .plonk note c instr isDown =>
    if c < s.cfg.nch then (s.latchPlonk c (if isDown then .on note instr else .off)).answer .ok else s.answer .errRange
  | .stop => s.stopAll.answer .ok
  | .silence => s.silence.answer .ok
  | .isPlaying => s.answer (.playing (isPlayingBit s))
  | .getSamples n => { s with phase := .frame, framesLeft := n.toNat, out := [] }
  | .newSong => s.newSong.answer .ok
  | .capabilities => s.answer (.caps (capabilitiesOf s.cfg))
  | .readStatus => s.answer (.word (statusWord s))
  | .readGates => s.answer (.word (gatesWord s))
  | .readFaults => s.answer (.word (faultsWord s))
  | .writeStore addr b =>
    if addr < storeSize s.cfg then { s with store := Memory.write s.store addr b }.answer .ok else s.answer .errRange
  | .readStore addr => if addr < storeSize s.cfg then s.answer (.byte (s.readByte addr)) else s.answer .errRange

/-- Between commands: the next command starts; with none to issue the engine waits (60_exceptions.md R397). A
configuration outside the constraints is refused (00_scope.md R13), and so is a command after `Shutdown`
(93_implementation_defined.md row 15; 46_host.md R373; log entry 5). -/
def commandStep (s : State) : Host.Outcome State Fault Refusal :=
  match s.cmds with
  | [] => .next s
  | cmd :: rest =>
    if !configOk s.cfg then .refused .badConfig
    else if s.closed then .refused .afterShutdown
    else .next (runCommand cmd { s with cmds := rest })

/-- Head of the frame loop (45_synth.md R320): the command ends when every frame is made, a tick comes first when the tick
timer is at 0. -/
def frameStep (s : State) : State :=
  if s.framesLeft = 0 then { s with phase := .command, out := [], reply := some (.frames s.out) }
  else if s.eng.sptCnt = 0 then { s with phase := .tables }
  else { s with phase := .render }

/-- The bytes of an instruction put where channel 0 fetches next: a one-instruction program of instrument 1. -/
def placeProgram (c : Config) (m : Memory) (bytes : List Byte) : Memory :=
  bytes.zipIdx.foldl (fun mem p => mem.write (codeAddr c 1 0 + p.2) p.1) (m.write (instrAddr c 1) 1)

/-- Channel 0 made to run instrument 1 from its start. -/
def readyChannel (x : Channel) : Channel := { x with instr := 1, cursor := 0, wait := 0, active := true }

/-- A machine of the dialect: the state itself, or, since a dialect is chosen once at startup (00_scope.md R3), the
dialect's profile at power-on (log entry 19). -/
def State.forDialect (s : State) (d : Dialect) : State :=
  if s.cfg.dialect = d then s else State.powerOn (profileOf d)

/-- The state about to fetch the given bytes as channel 0's next instruction, inside a tick of `GetSamples` (log entries 2
and 19). -/
def State.aboutToFetch (s : State) (bytes : List Byte) : State :=
  { s.mapCh 0 readyChannel with
    store := placeProgram s.cfg s.store bytes
    phase := .fetch
    cur := 0
    runCount := 0
    framesLeft := max 1 s.framesLeft }

end Sys2Proof.Machine
end

