-- ==== Sys2Proof/Machine/Modulate.lean ====
section
/-! DEFINITION. Per-tick modulation (44_oscillator.md R280 to R296): channel registers into oscillator parameters. -/

namespace Sys2Proof.Machine

/-- The largest oscillator step, 0x7FFF_FFFF (10_state.md R51). -/
def maxStep : Int := 0x7FFFFFFF

/-- Volume fade (44_oscillator.md R288). -/
def fadeVolume (x : Channel) : Channel :=
  { x with vol := BitVec.ofInt 8 (clamp (x.vol.toNat + x.fade.toInt) 0 255) }

/-- Pitch bend, saturated to 32 bits (44_oscillator.md R289). -/
def bendPitch (x : Channel) : Channel :=
  { x with bendAcc := BitVec.ofInt 32 (clamp (x.bendAcc.toInt + 256 * x.bendRate.toInt) (-2147483648) 2147483647) }

/-- `Slew`: the current step moved toward the target by at most the inertia (44_oscillator.md R290). -/
def slew (inertia current target : Int) : Int :=
  let d := target - current
  if inertia = 0 ∨ (d.natAbs : Int) ≤ inertia then target
  else current + d.sign * inertia

/-- `VibOff(v, depth, base)` (44_oscillator.md R291). -/
def vibOffset (v depth base : Int) : Int := asr (v * depth * base) 18

/-- `SINE[vib_phase]` (44_oscillator.md R286). -/
def sineAt (c : Config) (phase : BitVec 8) : Int := c.sine.getD phase.toNat 0

/-- `FREQ_A[prog_note]` (44_oscillator.md R284). -/
def freqAAt (c : Config) (note : Byte) : Int := c.freqA.getD note.toNat 0

/-- `FREQ_B[prog_note]` (44_oscillator.md R285). -/
def freqBAt (c : Config) (note : Byte) : Int := c.freqB.getD note.toNat 0

/-- The vibrato phase's free-running advance (44_oscillator.md R292). -/
def advanceVibrato (x : Channel) : Channel := { x with vibPhase := x.vibPhase + x.vibRate }

/-- The pitch target of dialect A: the table step plus the bend (44_oscillator.md R280). -/
def pitchTarget (c : Config) (x : Channel) : Int := clamp (freqAAt c x.progNote + x.bendAcc.toInt) 0 maxStep

/-- `ModulateA` (44_oscillator.md R280): fade, bend, slew, vibrato, latch. -/
def modulateA (c : Config) (v : Voice) : Voice :=
  let x := bendPitch (fadeVolume v.ch)
  let cur := slew x.inertia.toNat v.osc.curStep.toNat (pitchTarget c x)
  let sine := sineAt c x.vibPhase
  let osc := { v.osc with curStep := BitVec.ofInt 32 cur }
  let latched :=
    if x.vibMode then
      { osc with
        step := BitVec.ofInt 32 cur
        duty := BitVec.ofInt 8 (clamp (x.duty.toNat + asr (sine * x.vibDepth.toNat) 7) 0 255) }
    else
      { osc with
        step := BitVec.ofInt 32 (clamp (cur + vibOffset sine x.vibDepth.toNat cur) 0 maxStep)
        duty := x.duty }
  { v with ch := advanceVibrato x, osc := latched }

/-- The dialect B envelopes (44_oscillator.md R295). -/
def stepEnvelopes (x : Channel) : Channel :=
  { x with
    pitchEnv := BitVec.ofInt 16 (clamp (x.pitchEnv.toInt + 16 * x.pitchRate.toInt) (-32768) 32767)
    pw := BitVec.ofInt 12 (clamp (x.pw.toNat + 16 * x.pwRate.toInt) 0 4095) }

/-- The dialect B frequency (44_oscillator.md R281). -/
def frequencyB (c : Config) (x : Channel) : BitVec 16 :=
  let base := freqBAt c x.progNote
  BitVec.ofInt 16
    (clamp (base + x.pitchEnv.toInt + vibOffset (sineAt c x.vibPhase) x.vibDepth.toNat base) 0 65535)

/-- The dialect B register latch (44_oscillator.md R296). -/
def latchB (f : BitVec 16) (pw : BitVec 12) (o : Osc) : Osc :=
  let p : BitVec 16 := pw.setWidth 16
  { o with
    reg0 := (packLE f).1, reg1 := (packLE f).2, reg2 := (packLE p).1, reg3 := (packLE p).2
    step := f.setWidth 32 <<< 8 }

/-- `ModulateB` (44_oscillator.md R281). -/
def modulateB (c : Config) (v : Voice) : Voice :=
  let x := stepEnvelopes (fadeVolume v.ch)
  { v with ch := advanceVibrato x, osc := latchB (frequencyB c x) x.pw v.osc }

/-- `Modulate` (44_oscillator.md R280, R281). -/
def modulateVoice (c : Config) (v : Voice) : Voice :=
  match c.dialect with
  | .A => modulateA c v
  | .B => modulateB c v

/-- `Modulate(c)` of the current channel, then the next channel's run or, after the last, the snapshot
(43_sequencer.md R240 steps 4 and 5). -/
def modulateStep (s : State) : Host.Outcome State Fault Refusal :=
  if s.cfg.noteMax < (s.ch s.cur).progNote.toNat then .fault .noteRead
  else
    let s' := { s with voices := s.voices.modify s.cur (modulateVoice s.cfg) }
    if s.cur + 1 < s.cfg.nch then .next { s' with cur := s.cur + 1, phase := .run }
    else .next { s' with phase := .snapshot }

end Sys2Proof.Machine
end

