-- ==== Sys2Proof/Machine/DialectB.lean ====
section
/-! DEFINITION. The dialect B instructions (42_dialect_b.md). -/

namespace Sys2Proof.Machine

/-- B.CTRL (42_dialect_b.md R210). -/
def execBCtrl (p : BitVec 6) (s : State) : Host.Outcome State Fault Refusal :=
  s.continueWith fun x => advance { x with ctrl := controlByte x.ctrl p }

/-- B.INCP (42_dialect_b.md R211). -/
def execBIncp (d : BitVec 4) (s : State) : Host.Outcome State Fault Refusal :=
  s.continueWith fun x => advance { x with pitchRate := d }

/-- B.INCW (42_dialect_b.md R212). -/
def execBIncw (d : BitVec 4) (s : State) : Host.Outcome State Fault Refusal :=
  s.continueWith fun x => advance { x with pwRate := d }

/-- B.SETP (42_dialect_b.md R213). -/
def execBSetp (v : BitVec 4) (s : State) : Host.Outcome State Fault Refusal :=
  s.continueWith fun x => advance { x with pitchEnv := pitchSet v }

/-- B.SETW (42_dialect_b.md R214). -/
def execBSetw (v : BitVec 4) (s : State) : Host.Outcome State Fault Refusal :=
  s.continueWith fun x => advance { x with pw := widthSet v }

/-- B.ARP (42_dialect_b.md R215). -/
def execBArp (semis : BitVec 5) (s : State) : Host.Outcome State Fault Refusal :=
  s.continueWith fun x => advance { x with progNote := clampNote s.cfg (x.trigNote.toNat + semis.toInt) }

/-- B.VIB (42_dialect_b.md R216). -/
def execBVib (d : BitVec 3) (r : BitVec 2) (s : State) : Host.Outcome State Fault Refusal :=
  s.continueWith fun x => advance
    { x with
      vibPhase := if vibDepthB d = x.vibDepth then x.vibPhase else 0
      vibDepth := vibDepthB d
      vibMode := false
      vibRate := vibRateB r }

/-- B.WAIT (42_dialect_b.md R217). -/
def execBWait (n : BitVec 4) (s : State) : Host.Outcome State Fault Refusal :=
  s.stopWith fun x => advance { x with wait := n.setWidth 8 }

/-- B.LOOP (42_dialect_b.md R218). -/
def execBLoop (o : BitVec 4) (s : State) : Host.Outcome State Fault Refusal :=
  if o = 0 then s.stopWith endProgram
  else s.continueWith fun x => { x with cursor := loopTarget x.cursor o.toNat }

/-- B.RSVD (42_dialect_b.md R219). -/
def execBRsvd (s : State) : Host.Outcome State Fault Refusal := s.continueWith advance

/-- B.SYNC (42_dialect_b.md R220). -/
def execBSync (v : Bool) (s : State) : Host.Outcome State Fault Refusal :=
  s.continueWith fun x => advance { x with ctrl := setBit x.ctrl 1 v }

/-- B.RING (42_dialect_b.md R221). -/
def execBRing (v : Bool) (s : State) : Host.Outcome State Fault Refusal :=
  s.continueWith fun x => advance { x with ctrl := setBit x.ctrl 2 v }

/-- B.EXT (42_dialect_b.md R222). -/
def execBExt (v : Bool) (s : State) : Host.Outcome State Fault Refusal :=
  s.continueWith fun x => advance { x with ext := v }

/-- B.NOFF (42_dialect_b.md R223): the next index becomes the release point and the run stops at the marker. -/
def execBNoff (s : State) : Host.Outcome State Fault Refusal :=
  s.stopWith fun x => { x with release := x.cursor + 1, releaseOk := true }

end Sys2Proof.Machine
end

