-- ==== Sys2Proof/Machine/Dispatch.lean ====
section
/-! DEFINITION. `Execute` (40_interpreter.md R151): one arm for each row of spec/opcode_table.json. -/

namespace Sys2Proof.Machine

/-- The effect of an instruction on the channel whose program is running. -/
def exec (i : Instr) (s : State) : Host.Outcome State Fault Refusal :=
  match i with
  | .aEnd => Sys2Proof.Machine.execAEnd s
  | .aDuty p => Sys2Proof.Machine.execADuty p s
  | .aFade p => Sys2Proof.Machine.execAFade p s
  | .aInert p => Sys2Proof.Machine.execAInert p s
  | .aJump p => Sys2Proof.Machine.execAJump p s
  | .aFlo p => Sys2Proof.Machine.execAFlo p s
  | .aFhi p => Sys2Proof.Machine.execAFhi p s
  | .aVdep depth mode => Sys2Proof.Machine.execAVdep depth mode s
  | .aVrate p => Sys2Proof.Machine.execAVrate p s
  | .aPan p => Sys2Proof.Machine.execAPan p s
  | .aBend p => Sys2Proof.Machine.execABend p s
  | .aWait p => Sys2Proof.Machine.execAWait p s
  | .aVol p => Sys2Proof.Machine.execAVol p s
  | .aLoop p => Sys2Proof.Machine.execALoop p s
  | .aWave p => Sys2Proof.Machine.execAWave p s
  | .aNote p => Sys2Proof.Machine.execANote p s
  | .aNrel p => Sys2Proof.Machine.execANrel p s
  | .aNop => Sys2Proof.Machine.execANop s
  | .bCtrl p => Sys2Proof.Machine.execBCtrl p s
  | .bIncp d => Sys2Proof.Machine.execBIncp d s
  | .bIncw d => Sys2Proof.Machine.execBIncw d s
  | .bSetp v => Sys2Proof.Machine.execBSetp v s
  | .bSetw v => Sys2Proof.Machine.execBSetw v s
  | .bArp semis => Sys2Proof.Machine.execBArp semis s
  | .bVib d r => Sys2Proof.Machine.execBVib d r s
  | .bWait n => Sys2Proof.Machine.execBWait n s
  | .bLoop o => Sys2Proof.Machine.execBLoop o s
  | .bRsvd => Sys2Proof.Machine.execBRsvd s
  | .bSync v => Sys2Proof.Machine.execBSync v s
  | .bRing v => Sys2Proof.Machine.execBRing v s
  | .bExt v => Sys2Proof.Machine.execBExt v s
  | .bNoff => Sys2Proof.Machine.execBNoff s

end Sys2Proof.Machine
end

