-- ==== Sys2Proof/Machine/RunLoop.lean ====
section
/-! DEFINITION. The per-channel run loop (40_interpreter.md R151) cut at its instructions: entry, and one turn of the loop
with the fetch (R152), the end of a program (R153) and the step limit (R155). -/

namespace Sys2Proof.Machine

/-- `Fetch(c)`: the bytes of the instruction at the current channel's cursor (40_interpreter.md R152). -/
def fetchBytes (s : State) : List Byte :=
  let x := s.ch s.cur
  (List.range (instrWidth s.cfg.dialect)).map fun k =>
    s.readByte (codeAddr s.cfg x.instr.toNat x.cursor.toNat + k)

/-- The instruction the current channel runs next, `Decode(Fetch(c))` (40_interpreter.md R151). -/
def fetchInstr (s : State) : Except DecodeError Instr := decode s.cfg.dialect (fetchBytes s)

/-- The current channel has no instrument, or its cursor is at or past the program's length (40_interpreter.md R151). -/
def programOver (s : State) : Bool :=
  let x := s.ch s.cur
  x.instr == 0 || decide (s.cfg.nins < x.instr.toNat) ||
    decide (progLen s.cfg s.store x.instr.toNat ≤ x.cursor.toNat)

/-- The entry of `RunProgram` (40_interpreter.md R151): an inactive channel is left alone, a waiting one counts down, and
otherwise the loop starts. -/
def runEntry (s : State) : State :=
  let x := s.ch s.cur
  if !x.active then { s with phase := .modulate }
  else if x.wait = 0 then { s with runCount := 0, phase := .fetch }
  else { s.mapCh s.cur fun y => { y with wait := y.wait - 1 } with phase := .modulate }

/-- One turn of the loop of `RunProgram` (40_interpreter.md R151). -/
def runTurn (s : State) : Host.Outcome State Fault Refusal :=
  if programOver s then s.stopWith endProgram
  else if s.runCount = s.cfg.stepLimit then .next s.raiseRunaway
  else
    match fetchInstr s with
    | .ok i => exec i { s with runCount := s.runCount + 1 }
    | .error _ => .refused .undecodable

end Sys2Proof.Machine
end

