-- ==== Sys2Proof/Machine/Step.lean ====
section
/-! DEFINITION. One step of the machine, by where the command in progress stands (log entry 3), and the placing of one
instruction word. -/

namespace Sys2Proof.Machine

/-- One step: the next piece of the host's command stream, in the one order the spec fixes (60_exceptions.md R398). -/
def step (s : State) : Host.Outcome State Fault Refusal :=
  match s.phase with
  | .command => commandStep s
  | .frame => .next (frameStep s)
  | .tables => tablesStep s
  | .plonks => .next (plonksStep s)
  | .row => rowPhase s
  | .run => .next (runEntry s)
  | .fetch => runTurn s
  | .modulate => modulateStep s
  | .snapshot => .next (snapshotStep s)
  | .render => renderStep s

/-- The state whose next step fetches and runs exactly the instruction of `nbits` bits whose bits are `w`. -/
def State.withFetchWord (s : State) (nbits w : Nat) : State :=
  (s.forDialect (tableDialect nbits)).aboutToFetch (tableBytes nbits w)

end Sys2Proof.Machine
end

