-- ==== Sys2Proof/Safety.lean ====
section
/-! DEFINITION. What counts as a safe run, in the terms the statements use: the invariant of every reachable state, the
launch premise, and how two states may differ. -/

namespace Sys2Proof.Machine

/-- A binding that is on names a table and has ticks left, at most its stretch; one that is off is all 0
(10_state.md R43; 40_interpreter.md R160, R161). -/
structure BindingOk (c : Config) (b : TableBinding) : Prop where
  table : b.on = true → b.t.toNat < c.ntab
  ticks : b.on = true → 0 < b.cnt.toNat ∧ b.cnt.toNat ≤ b.s.toNat
  off : b.on = false → b = bindingOff

/-- The waveform selector names a wavetable that exists (10_state.md R45). -/
def WaveOk (c : Config) (w : Wave) : Prop := ∀ n : BitVec 7, w = .table n → n.toNat < c.nwave

/-- The ranges the channel registers keep (20_memory.md R94; 44_oscillator.md R287). -/
structure ChannelOk (c : Config) (x : Channel) : Prop where
  progNote : x.progNote.toNat ≤ c.noteMax
  trigNote : x.trigNote.toNat ≤ c.noteMax
  instr : x.instr.toNat ≤ c.nins
  lastInstr : x.lastInstr.toNat ≤ c.nins
  wave : WaveOk c x.wave
  tbVol : BindingOk c x.tbVol
  tbDuty : BindingOk c x.tbDuty
  tbPan : BindingOk c x.tbPan

/-- The ranges the oscillator registers keep (10_state.md R51, R55). -/
structure OscOk (o : Osc) : Prop where
  curStep : o.curStep.toNat ≤ 0x7FFFFFFF
  step : o.step.toNat ≤ 0x7FFFFFFF
  pwHigh : o.reg3.toNat < 16

/-- The synthesizer state has the cells the configuration gives it (10_state.md R60, R61). -/
structure SideOk (c : Config) (d : Side) : Prop where
  blep : d.blep.length = (if c.synthMode = .edge then c.blepTaps else 0)
  firh : d.firh.length = (if c.firEnable then c.firTaps - 1 else 0)
  firl : d.firl.length = (if c.firEnable then c.firTaps - 1 else 0)

/-- Everything one channel keeps. -/
structure VoiceOk (c : Config) (v : Voice) : Prop where
  ch : ChannelOk c v.ch
  osc : OscOk v.osc
  left : SideOk c v.left
  right : SideOk c v.right

/-- The ranges the engine registers keep (10_state.md R31). -/
structure EngineOk (c : Config) (e : Engine) : Prop where
  row : e.row.toNat < c.patLen
  songNext : e.songNext.toNat ≤ 256
  patCh : e.patCh.toNat < c.nch
  tickRem : e.tickRem.toNat < c.tickHz

/-- The store is in canonical form and lists no address outside it (20_memory.md R80). -/
structure StoreOk (c : Config) (m : Memory) : Prop where
  form : Memory.wf m
  inside : ∀ p ∈ m, p.1 < storeSize c

/-- The delay lines are in canonical form and index within `DLEN` (10_state.md R62). -/
structure DelayOk (c : Config) (d : Delay) : Prop where
  left : sparseWf delayBlank d.left
  right : sparseWf delayBlank d.right
  leftInside : ∀ p ∈ d.left, p.1 < c.dlen
  rightInside : ∀ p ∈ d.right, p.1 < c.dlen
  ptr : d.ptr < c.dlen

/-- The step is inside a tick. -/
def inTick : Phase → Bool
  | .tables => true
  | .plonks => true
  | .row => true
  | .run => true
  | .fetch => true
  | .modulate => true
  | .snapshot => true
  | .command => false
  | .frame => false
  | .render => false

/-- The step is at a channel of tick step 4. -/
def atChannel : Phase → Bool
  | .run => true
  | .fetch => true
  | .modulate => true
  | .tables => false
  | .plonks => false
  | .row => false
  | .snapshot => false
  | .command => false
  | .frame => false
  | .render => false

/-- Where a command in progress may stand: a tick belongs to a frame still owed, its channel exists, the run has not
passed the step limit, and a frame is made only after its tick. -/
structure PhaseOk (s : State) : Prop where
  tick : inTick s.phase = true → s.framesLeft ≠ 0 ∧ s.eng.sptCnt = 0
  channel : atChannel s.phase = true → s.cur < s.cfg.nch
  count : s.phase = .fetch → s.runCount ≤ s.cfg.stepLimit
  frame : s.phase = .render → s.framesLeft ≠ 0 ∧ s.eng.sptCnt ≠ 0

/-- The invariant of every state a run reaches. -/
structure Inv (s : State) : Prop where
  config : configOk s.cfg = true
  count : s.voices.length = s.cfg.nch
  voices : ∀ v ∈ s.voices, VoiceOk s.cfg v
  engine : EngineOk s.cfg s.eng
  store : StoreOk s.cfg s.store
  delay : DelayOk s.cfg s.delay
  faults : ∀ c, s.cfg.nch ≤ c → s.faults.getLsbD c = false
  phase : PhaseOk s

/-- No channel has run away: the premise under which frames may be relied on (60_exceptions.md R391). -/
def Clean (s : State) : Prop := s.faults = 0

/-- The launch premise CleanLaunch (70_reset_and_hazards.md R413): power-on, then store writes only, each inside the
store; no fault recorded. -/
def cleanLaunch (c : Config) (writes : List (Nat × Byte)) : State :=
  { State.powerOn c with
    store := (writes.filter fun p => decide (p.1 < storeSize c)).foldl (fun (m : Memory) p => m.write p.1 p.2) [] }

/-- The two states differ, if at all, in the registers of the current channel and in where the run stands: every byte of
the store, every engine register, `FAULTS`, every other channel, the current channel's oscillator, latch and synthesizer
state, the delay lines and the host's side are the same (60_exceptions.md R396). -/
structure OnlyCurrentChannel (s t : State) : Prop where
  cfg : t.cfg = s.cfg
  eng : t.eng = s.eng
  faults : t.faults = s.faults
  bytes : ∀ a, t.readByte a = s.readByte a
  store : t.store = s.store
  delay : t.delay = s.delay
  count : t.voices.length = s.voices.length
  others : ∀ c, c ≠ s.cur → t.voice c = s.voice c
  osc : (t.voice s.cur).osc = (s.voice s.cur).osc
  plonk : (t.voice s.cur).plonk = (s.voice s.cur).plonk
  left : (t.voice s.cur).left = (s.voice s.cur).left
  right : (t.voice s.cur).right = (s.voice s.cur).right
  cur : t.cur = s.cur
  runCount : t.runCount = s.runCount
  framesLeft : t.framesLeft = s.framesLeft
  out : t.out = s.out
  cmds : t.cmds = s.cmds
  reply : t.reply = s.reply
  snap : t.snap = s.snap
  closed : t.closed = s.closed

/-- The instruction leaves the current channel at `x` and its rule returns CONTINUE (40_interpreter.md R151). -/
def Continues (s t : State) (x : Channel) : Prop :=
  OnlyCurrentChannel s t ∧ t.phase = s.phase ∧ t.ch s.cur = x

/-- The instruction leaves the current channel at `x` and its rule returns STOP (40_interpreter.md R151). -/
def Stops (s t : State) (x : Channel) : Prop :=
  OnlyCurrentChannel s t ∧ t.phase = .modulate ∧ t.ch s.cur = x

/-- The engine's own state and the store, without the host's side (commands to come, the last answer, the frames of the
request in progress) and the request's count. -/
def engineSide (s : State) : State := { s with framesLeft := 0, out := [], cmds := [], reply := none }

/-- `n` steps, stopping at the first fault or refusal. -/
def runSteps (n : Nat) (s : State) : Host.Outcome State Fault Refusal := Sys2Proof.core.run n s

/-- The dialect A instruction that sets or binds the register of a kind (41_dialect_a.md R181, R189, R192). -/
def setterOf : Kind → LitOrTable → Instr
  | .vol => .aVol
  | .duty => .aDuty
  | .pan => .aPan

/-- The side amplitudes a channel can have (45_synth.md R325). -/
def AmplitudeOk (a : Int) : Prop := -32513 ≤ a ∧ a ≤ 32258

/-- Everything one side of edge synthesis has taken in and not yet lost: the running sum and the contributions still
pending (45_synth.md R326, R329). -/
def sideTotal (d : Side) : Int := d.integ.toInt + sumInt (d.blep.map fun b => b.toInt)

/-- No result of the clock leaves its accumulator, so that no free value arises (log entry 8). -/
def ClockFits (row : List Int) (a : Int) (d : Side) : Prop :=
  AmplitudeOk a ∧ ∀ p ∈ List.zip d.blep row, fitsSigned 64 (p.1.toInt + (a - d.last.toInt) * p.2) = true

/-- Every pending contribution has been flushed and the running sum stands at the level (45_synth.md R329). -/
structure Flushed (c : Config) (d : Side) : Prop where
  blep : d.blep = List.replicate c.blepTaps 0
  integ : d.integ.toInt = 32768 * d.last.toInt
  last : AmplitudeOk d.last.toInt

/-- The amplitudes of a run of clocks on one side, with the kernel row of each. -/
def clockSide (d : Side) (clocks : List (List Int × Int)) : Side := clocks.foldl (fun e p => edgeClock p.1 p.2 e) d

/-- The sum of the deltas a run of clocks injects: at each clock the new amplitude less the level last emitted
(45_synth.md R326). -/
def deltaSum (d : Side) : List (List Int × Int) → Int
  | [] => 0
  | p :: rest => (p.2 - d.last.toInt) + deltaSum (edgeClock p.1 p.2 d) rest

/-- The frames of the last answer, none if it was not a request for frames. -/
def answeredFrames (s : State) : List Frame :=
  match s.reply with
  | some (.frames out) => out
  | _ => []

/-- The engine stands between commands with nothing left to do. -/
def AtRest (s : State) : Prop := s.phase = .command ∧ s.cmds = []

end Sys2Proof.Machine
end

