-- ==== Sys2Proof/Certificates/Slice0/Obligations.lean ====
section
/-! DEFINITION. The statements for the provers: what the rules of spec/ say of the decoder, of every instruction, of the
run loop, the sequencer, the modulation, the oscillators, the synthesizer, the host's commands and the machine as a whole. -/

open Sys2Proof Sys2Proof.Machine

/-! ## Encoding -/

/-- 30_encoding.md R110: which bytes are one instruction depends on the dialect and on their number alone. -/
def Obligations.LengthComesFromDialectAlone : Prop :=
  ∀ (d : Dialect) (bytes : List Byte),
    (∃ i, decode d bytes = .ok i) ↔ bytes.length = (match d with | .A => 2 | .B => 1)

/-- 30_encoding.md R112, R113: the opcode map of dialect A with the form each parameter is read in, the LT and WS forms,
and A.NOP for every tag outside the map. -/
def Obligations.OpcodeMapOfDialectA : Prop :=
  ∀ (c : Config) (tag p : Byte),
    decodeA 0x45#8 p = .aEnd ∧ decodeA 0x44#8 p = .aDuty (readLT p) ∧ decodeA 0x46#8 p = .aFade p ∧
    decodeA 0x49#8 p = .aInert p ∧ decodeA 0x4A#8 p = .aJump p ∧ decodeA 0x4C#8 p = .aFlo p ∧
    decodeA 0x48#8 p = .aFhi p ∧ decodeA 0x59#8 p = .aVdep (p.extractLsb' 0 7) (p.getLsbD 7) ∧
    decodeA 0x5A#8 p = .aVrate p ∧ decodeA 0x50#8 p = .aPan (readLT p) ∧ decodeA 0x42#8 p = .aBend p ∧
    decodeA 0x57#8 p = .aWait p ∧ decodeA 0x56#8 p = .aVol (readLT p) ∧ decodeA 0x47#8 p = .aLoop p ∧
    decodeA 0x53#8 p = .aWave (readWS p) ∧ decodeA 0x4E#8 p = .aNote p ∧ decodeA 0x41#8 p = .aNrel p ∧
    (tag ∉ [0x45#8, 0x44#8, 0x46#8, 0x49#8, 0x4A#8, 0x4C#8, 0x48#8, 0x59#8, 0x5A#8, 0x50#8, 0x42#8, 0x57#8, 0x56#8,
        0x47#8, 0x53#8, 0x4E#8, 0x41#8] → decodeA tag p = .aNop) ∧
    (p.getLsbD 7 = false → readLT p = .lit (p.extractLsb' 0 7)) ∧
    (p.getLsbD 7 = true → readLT p = .table (p.extractLsb' 4 3) (p.extractLsb' 0 4)) ∧
    (p = 0#8 → waveOf c (readWS p) = some .pulse) ∧ (p = 1#8 → waveOf c (readWS p) = some .saw) ∧
    (p = 2#8 → waveOf c (readWS p) = some .tri) ∧ (p = 3#8 → waveOf c (readWS p) = some .noise) ∧
    (p.getLsbD 7 = true → (p.extractLsb' 0 7).toNat < c.nwave →
      waveOf c (readWS p) = some (.table (p.extractLsb' 0 7))) ∧
    (p.getLsbD 7 = true → c.nwave ≤ (p.extractLsb' 0 7).toNat → waveOf c (readWS p) = none) ∧
    (4 ≤ p.toNat → p.toNat < 0x80 → waveOf c (readWS p) = none)

/-- 30_encoding.md R117: each line of the decode procedure alone decides, in any order, and together the lines take
every byte. That the order does not matter is the spec's own inference (R117, "derived"). -/
def Obligations.PrefixTableOfDialectB : Prop :=
  ∀ x : Byte,
    (x.extractLsb' 6 2 = 0b00#2 → decodeB x = .bCtrl (x.extractLsb' 0 6)) ∧
    (x.extractLsb' 4 4 = 0b0100#4 → decodeB x = .bIncp (x.extractLsb' 0 4)) ∧
    (x.extractLsb' 4 4 = 0b0101#4 → decodeB x = .bIncw (x.extractLsb' 0 4)) ∧
    (x.extractLsb' 4 4 = 0b0110#4 → decodeB x = .bSetp (x.extractLsb' 0 4)) ∧
    (x.extractLsb' 4 4 = 0b0111#4 → decodeB x = .bSetw (x.extractLsb' 0 4)) ∧
    (x.extractLsb' 5 3 = 0b100#3 → decodeB x = .bArp (x.extractLsb' 0 5)) ∧
    (x.extractLsb' 5 3 = 0b101#3 → decodeB x = .bVib (x.extractLsb' 2 3) (x.extractLsb' 0 2)) ∧
    (x.extractLsb' 4 4 = 0b1100#4 → decodeB x = .bWait (x.extractLsb' 0 4)) ∧
    (x.extractLsb' 4 4 = 0b1101#4 → decodeB x = .bLoop (x.extractLsb' 0 4)) ∧
    (x.extractLsb' 4 4 = 0b1110#4 → decodeB x = .bRsvd) ∧
    (x.extractLsb' 2 6 = 0b111100#6 → decodeB x = .bSync (x.getLsbD 0)) ∧
    (x.extractLsb' 2 6 = 0b111101#6 → decodeB x = .bRing (x.getLsbD 0)) ∧
    (x.extractLsb' 2 6 = 0b111110#6 → decodeB x = .bExt (x.getLsbD 0)) ∧
    (x.extractLsb' 2 6 = 0b111111#6 → decodeB x = .bNoff)

/-- 30_encoding.md R114, R118, 42_dialect_b.md R219: in both dialects the bytes outside the map are one instruction that
moves the cursor and changes nothing else; the ignored bits select nothing; and no byte is illegal. -/
def Obligations.UnassignedCodesAreNoOps : Prop :=
  (∀ tag p : Byte,
    tag ∉ [0x45#8, 0x44#8, 0x46#8, 0x49#8, 0x4A#8, 0x4C#8, 0x48#8, 0x59#8, 0x5A#8, 0x50#8, 0x42#8, 0x57#8, 0x56#8,
      0x47#8, 0x53#8, 0x4E#8, 0x41#8] → decode .A [tag, p] = .ok .aNop) ∧
  (∀ x : Byte, x.extractLsb' 4 4 = 0b1110#4 → decode .B [x] = .ok .bRsvd) ∧
  (∀ x : Byte, x.extractLsb' 4 4 = 0b1111#4 → x.extractLsb' 2 2 ≠ 0b11#2 → decodeB x = decodeB (x ^^^ 0b10#8)) ∧
  (∀ x y : Byte, x.extractLsb' 2 6 = 0b111111#6 → y.extractLsb' 2 6 = 0b111111#6 → decodeB x = decodeB y) ∧
  (∀ x : Byte, ∃ i, decode .B [x] = .ok i) ∧
  ∀ s : State, s.cur < s.voices.length →
    let moved := { s.ch s.cur with cursor := (s.ch s.cur).cursor + 1 }
    (∃ t, exec .aNop s = .next t ∧ Continues s t moved) ∧ ∃ t, exec .bRsvd s = .next t ∧ Continues s t moved

/-- Words of both dialects written out from the encoding tables (95_test_vectors.md part 2.1, W5) decode to the
instructions they stand for. -/
def Obligations.WrittenWordsDecode : Prop :=
  decode .A [0x56#8, 0x0F#8] = .ok (.aVol (.lit 15#7)) ∧ decode .A [0x56#8, 0xA3#8] = .ok (.aVol (.table 2#3 3#4)) ∧
  decode .A [0x46#8, 0xF0#8] = .ok (.aFade 0xF0#8) ∧ decode .A [0x59#8, 0x8A#8] = .ok (.aVdep 10#7 true) ∧
  decode .A [0x53#8, 0x83#8] = .ok (.aWave (.table 3#7)) ∧ decode .A [0x47#8, 0x02#8] = .ok (.aLoop 2#8) ∧
  decode .A [0x76#8, 0x0F#8] = .ok .aNop ∧ decode .B [0x11#8] = .ok (.bCtrl 0b010001#6) ∧
  decode .B [0x48#8] = .ok (.bIncp 8#4) ∧ decode .B [0x9F#8] = .ok (.bArp 31#5) ∧
  decode .B [0xB1#8] = .ok (.bVib 4#3 1#2) ∧ decode .B [0xD3#8] = .ok (.bLoop 3#4) ∧
  decode .B [0xF3#8] = .ok (.bSync true) ∧ decode .B [0xFE#8] = .ok .bNoff

/-- Decode and encode agree in dialect A, for every operand of every instruction (30_encoding.md R111 to R114). -/
def Obligations.DecodeEncodeDialectA : Prop :=
  ∀ i : Instr, i.dialect = .A → i.wf = true → decode .A (encode i) = .ok i

/-- Decode and encode agree in dialect B, for every operand of every instruction (30_encoding.md R115 to R118). -/
def Obligations.DecodeEncodeDialectB : Prop :=
  ∀ i : Instr, i.dialect = .B → i.wf = true → decode .B (encode i) = .ok i

/-! ## The run loop -/

/-- 40_interpreter.md R151, R152: at a fetch, with a program that is not over and the step limit not reached, the step
counts one instruction and is `exec` of the instruction that the bytes at the cursor decode to. -/
def Obligations.StepRunsDecodedInstruction : Prop :=
  ∀ (s : State) (i : Instr), s.phase = .fetch →
    let x := s.ch s.cur
    let base := instrAddr s.cfg x.instr.toNat
    x.instr ≠ 0 → x.instr.toNat ≤ s.cfg.nins → x.cursor.toNat < progLen s.cfg s.store x.instr.toNat →
    s.runCount ≠ s.cfg.stepLimit → i.wf = true →
    (s.cfg.dialect = .A →
      decode .A [s.readByte (base + 1 + 2 * x.cursor.toNat), s.readByte (base + 2 + 2 * x.cursor.toNat)] = .ok i →
      step s = exec i { s with runCount := s.runCount + 1 }) ∧
    (s.cfg.dialect = .B → decode .B [s.readByte (base + 1 + x.cursor.toNat)] = .ok i →
      step s = exec i { s with runCount := s.runCount + 1 })

/-- 20_memory.md R81, R84 to R88, R92: the address map, the addresses of every field, the effective lengths and a
table's value, written out. And where the reads lie: a song cell, a pattern row, an instrument's length byte and slots,
a table and a wavetable lie, for in-range indices, each in its own region below `STORE_SIZE`, and a fetch
(40_interpreter.md R152) never reads outside the instrument's slots. Where the reads lie is the spec's own inference
(R90, R152, "derived"). -/
def Obligations.AddressMapAndReadsStayInRegion : Prop :=
  ∀ c : Config,
    let iw := match c.dialect with
      | .A => 2
      | .B => 1
    let pat := 4 + c.songCap * c.nch * 2
    let ins := pat + c.npat * c.patLen * 6
    let size := 1 + c.progCap * iw
    let tab := ins + c.nins * size
    let wave := tab + 3 * c.ntab * (1 + c.tabCap)
    let all := wave + c.nwave * (1 + c.waveCap)
    (instrWidth c.dialect = iw ∧ songBase = 4 ∧ patBase c = pat ∧ insBase c = ins ∧ insSize c = size ∧ tabBase c = tab ∧
      waveBase c = wave ∧ storeSize c = all) ∧
    ((∀ r n, songAddr c r n = 4 + (r * c.nch + n) * 2) ∧ (∀ p k, rowAddr c p k = pat + (p * c.patLen + k) * 6) ∧
      (∀ i, instrAddr c i = ins + (i - 1) * size) ∧ (∀ i j, codeAddr c i j = ins + (i - 1) * size + 1 + j * iw) ∧
      (∀ t, tableAddr c .vol t = tab + t * (1 + c.tabCap)) ∧
      (∀ t, tableAddr c .duty t = tab + (c.ntab + t) * (1 + c.tabCap)) ∧
      (∀ t, tableAddr c .pan t = tab + (2 * c.ntab + t) * (1 + c.tabCap)) ∧
      ∀ w, waveAddr c w = wave + w * (1 + c.waveCap)) ∧
    (∀ m : Memory,
      songLen c m = min (m.read 0).toNat c.songCap ∧
      (∀ i, progLen c m i = min (m.read (ins + (i - 1) * size)).toNat c.progCap) ∧
      (∀ k t, tableLen c m k t = min (m.read (tableAddr c k t)).toNat c.tabCap) ∧
      (∀ w, waveLen c m w = min (m.read (wave + w * (1 + c.waveCap))).toNat c.waveCap) ∧
      ∀ k t j, tableValue c m k t j = m.read (tableAddr c k t + 1 + j)) ∧
    (∀ r n b, r < c.songCap → n < c.nch → b < 2 → 4 ≤ songAddr c r n + b ∧ songAddr c r n + b < pat) ∧
    (∀ p k b, p < c.npat → k < c.patLen → b < 6 → pat ≤ rowAddr c p k + b ∧ rowAddr c p k + b < ins) ∧
    (∀ i, 1 ≤ i → i ≤ c.nins → ins ≤ instrAddr c i ∧ instrAddr c i < tab) ∧
    (∀ (m : Memory) (i j k : Nat), 1 ≤ i → i ≤ c.nins → j < progLen c m i → k < iw →
      instrAddr c i + 1 ≤ codeAddr c i j + k ∧ codeAddr c i j + k < instrAddr c i + size ∧
      ins ≤ codeAddr c i j + k ∧ codeAddr c i j + k < tab) ∧
    (∀ k t j, t < c.ntab → j ≤ c.tabCap → tab ≤ tableAddr c k t + j ∧ tableAddr c k t + j < wave) ∧
    (∀ w j, w < c.nwave → j ≤ c.waveCap → wave ≤ waveAddr c w + j ∧ waveAddr c w + j < all) ∧
    4 ≤ pat ∧ pat ≤ ins ∧ ins ≤ tab ∧ tab ≤ wave ∧ wave ≤ all

/-- 60_exceptions.md R390: the one fault. When a run has executed the step limit and its program is not over, the
channel's bit of `FAULTS` is set, the run ends, and nothing else changes: `cursor` and `active` stay. -/
def Obligations.RunawayIsRecordedAndEndsTheRun : Prop :=
  ∀ s : State, s.phase = .fetch → s.cur < s.voices.length → s.cur < 16 →
    let x := s.ch s.cur
    x.instr ≠ 0 → x.instr.toNat ≤ s.cfg.nins → x.cursor.toNat < progLen s.cfg s.store x.instr.toNat →
    s.runCount = s.cfg.stepLimit →
    ∃ t, step s = .next t ∧ t = { s with faults := t.faults, phase := .modulate } ∧
      ∀ c, t.faults.getLsbD c = (s.faults.getLsbD c || decide (c = s.cur))

/-- 40_interpreter.md R151, R153, where a run starts and where its program is over: an inactive channel is left alone, a
waiting one counts its wait down and does not run, and any other starts its run; with no instrument, an instrument past the
last, or the cursor at or past the program's length, `active` and `cursor` become 0, nothing else of the channel changes,
and the run ends. -/
def Obligations.RunStartsWaitsAndEnds : Prop :=
  ∀ s : State, s.cur < s.voices.length →
    let x := s.ch s.cur
    (s.phase = .run → x.active = false → step s = .next { s with phase := .modulate }) ∧
    (s.phase = .run → x.active = true → x.wait ≠ 0 →
      ∃ t, step s = .next t ∧ Stops s t { x with wait := BitVec.ofNat 8 (x.wait.toNat - 1) }) ∧
    (s.phase = .run → x.active = true → x.wait = 0 → step s = .next { s with runCount := 0, phase := .fetch }) ∧
    (s.phase = .fetch →
      (x.instr = 0 ∨ s.cfg.nins < x.instr.toNat ∨ progLen s.cfg s.store x.instr.toNat ≤ x.cursor.toNat) →
      ∃ t, step s = .next t ∧ Stops s t { x with active := false, cursor := 0 })

/-- 40_interpreter.md R156: an active channel whose wait is `n` counts down through `n` entries of `RunProgram`, running
nothing, and starts a run at the next one. The count is the spec's own inference (R156, "derived"). -/
def Obligations.WaitOfNDelaysByNPlusOneTicks : Prop :=
  ∀ (s : State) (n k : Nat), s.cur < s.voices.length → (s.ch s.cur).active = true → (s.ch s.cur).wait.toNat = n → k ≤ n →
    let enter := fun u : State => { runEntry u with phase := .run }
    let u := Nat.iterate enter k s
    u.ch s.cur = { s.ch s.cur with wait := BitVec.ofNat 8 (n - k) } ∧
    (k < n → (runEntry u).phase = .modulate) ∧ (k = n → (runEntry u).phase = .fetch)

/-- 40_interpreter.md R155: a run executes at most the step limit's number of instructions and then its channel's
modulation is next; it leaves the store, the engine registers and every other channel alone, and records at most its own
channel's fault. -/
def Obligations.RunEndsWithinTheStepLimit : Prop :=
  ∀ s : State, s.phase = .fetch → s.runCount ≤ s.cfg.stepLimit →
    ∃ k t, k ≤ s.cfg.stepLimit - s.runCount + 1 ∧ runSteps k s = .next t ∧ t.phase = .modulate ∧ t.cur = s.cur ∧
      t.store = s.store ∧ t.eng = s.eng ∧ t.cfg = s.cfg ∧ (∀ c, c ≠ s.cur → t.voice c = s.voice c) ∧
      (t.faults = s.faults ∨ (t.faults = s.faults ||| (1#16 <<< s.cur) ∧ t.runCount = s.cfg.stepLimit))

/-! ## Dialect A -/

/-- 41_dialect_a.md R181, R189, R192, the literal forms: duty and pan are doubled, volume is multiplied by 16 and capped
at 255, and the register's binding is turned off. -/
def Obligations.LiteralsAreScaledAndUnbind : Prop :=
  ∀ (s : State) (l : BitVec 7), s.cur < s.voices.length →
    let x := s.ch s.cur
    (∃ t, exec (.aDuty (.lit l)) s = .next t ∧
      Continues s t { x with duty := BitVec.ofNat 8 (2 * l.toNat), tbDuty := bindingOff, cursor := x.cursor + 1 }) ∧
    (∃ t, exec (.aPan (.lit l)) s = .next t ∧
      Continues s t { x with pan := BitVec.ofNat 8 (2 * l.toNat), tbPan := bindingOff, cursor := x.cursor + 1 }) ∧
    ∃ t, exec (.aVol (.lit l)) s = .next t ∧
      Continues s t
        { x with vol := BitVec.ofNat 8 (min (16 * l.toNat) 255), tbVol := bindingOff, cursor := x.cursor + 1 }

/-- 40_interpreter.md R160, R163, with 41_dialect_a.md R181, R189, R192: the table forms. Without tables, or past the last
one, only the cursor moves; otherwise the register is bound from the table's start, a stretch of 0 counts as 1, and the
register takes the first value if the table has one. -/
def Obligations.TableFormsBind : Prop :=
  ∀ (s : State) (k : Kind) (n : BitVec 3) (st : BitVec 4), s.cur < s.voices.length →
    let x := { s.ch s.cur with cursor := (s.ch s.cur).cursor + 1 }
    let a := tableAddr s.cfg k n.toNat
    let s1 := BitVec.ofNat 4 (max st.toNat 1)
    (s.cfg.hasTables = false ∨ s.cfg.ntab ≤ n.toNat →
      ∃ t, exec (setterOf k (.table n st)) s = .next t ∧ Continues s t x) ∧
    (s.cfg.hasTables = true → n.toNat < s.cfg.ntab →
      ∃ t, exec (setterOf k (.table n st)) s = .next t ∧
        Continues s t
          (setKindReg k (if 0 < min (s.readByte a).toNat s.cfg.tabCap then s.readByte (a + 1) else kindReg k x)
            (setBinding k { on := true, t := n, idx := 0, cnt := s1, s := s1 } x)))

/-- 41_dialect_a.md R182, R183, R185, R186, R188, R190: each writes its one register and moves to the next index. -/
def Obligations.PlainSettersWriteOneRegister : Prop :=
  ∀ (s : State) (p : Byte), s.cur < s.voices.length →
    let x := { s.ch s.cur with cursor := (s.ch s.cur).cursor + 1 }
    (∃ t, exec (.aFade p) s = .next t ∧ Continues s t { x with fade := p }) ∧
    (∃ t, exec (.aInert p) s = .next t ∧ Continues s t { x with inertia := BitVec.ofNat 32 (4096 * p.toNat) }) ∧
    (∃ t, exec (.aFlo p) s = .next t ∧ Continues s t { x with cutLo := p }) ∧
    (∃ t, exec (.aFhi p) s = .next t ∧ Continues s t { x with cutHi := p }) ∧
    (∃ t, exec (.aVrate p) s = .next t ∧ Continues s t { x with vibRate := p }) ∧
    ∃ t, exec (.aBend p) s = .next t ∧ Continues s t { x with bendRate := p }

/-- 41_dialect_a.md R187, 42_dialect_b.md R216: both vibrato instructions restart the phase only if the depth changed.
A.VDEP sets depth and mode; B.VIB sets depth 16d on pitch and the rate 4, 8, 16 or 32. -/
def Obligations.VibratoRestartsOnlyOnChange : Prop :=
  ∀ (s : State) (depth : BitVec 7) (mode : Bool) (d : BitVec 3) (r : BitVec 2), s.cur < s.voices.length →
    let x := s.ch s.cur
    (∃ t, exec (.aVdep depth mode) s = .next t ∧
      Continues s t
        { x with vibDepth := depth, vibMode := mode, cursor := x.cursor + 1,
                 vibPhase := if depth.toNat = x.vibDepth.toNat then x.vibPhase else 0 }) ∧
    ∃ t depthB rate, exec (.bVib d r) s = .next t ∧
      Continues s t
        { x with vibDepth := depthB, vibMode := false, vibRate := rate, cursor := x.cursor + 1,
                 vibPhase := if 16 * d.toNat = x.vibDepth.toNat then x.vibPhase else 0 } ∧
      depthB.toNat = 16 * d.toNat ∧ rate.toNat = 4 * 2 ^ r.toNat

/-- 41_dialect_a.md R194: A.WAVE selects a shape or a wavetable that exists; any other parameter moves the cursor only. -/
def Obligations.WaveSelectsOrIsNoOp : Prop :=
  ∀ (s : State) (w : BitVec 7) (p : Byte), s.cur < s.voices.length →
    let x := { s.ch s.cur with cursor := (s.ch s.cur).cursor + 1 }
    (∃ t, exec (.aWave .pulse) s = .next t ∧ Continues s t { x with wave := .pulse }) ∧
    (∃ t, exec (.aWave .saw) s = .next t ∧ Continues s t { x with wave := .saw }) ∧
    (∃ t, exec (.aWave .tri) s = .next t ∧ Continues s t { x with wave := .tri }) ∧
    (∃ t, exec (.aWave .noise) s = .next t ∧ Continues s t { x with wave := .noise }) ∧
    (w.toNat < s.cfg.nwave →
      ∃ t, exec (.aWave (.table w)) s = .next t ∧ Continues s t { x with wave := .table w }) ∧
    (s.cfg.nwave ≤ w.toNat → ∃ t, exec (.aWave (.table w)) s = .next t ∧ Continues s t x) ∧
    ∃ t, exec (.aWave (.other p)) s = .next t ∧ Continues s t x

/-- 41_dialect_a.md R195, R196, 42_dialect_b.md R215: the program's own note, absolute or relative to the trigger note,
brought into 1..NOTE_MAX. -/
def Obligations.NoteSettersClamp : Prop :=
  ∀ (s : State) (p : Byte) (semis : BitVec 5), s.cur < s.voices.length → 1 ≤ s.cfg.noteMax → s.cfg.noteMax ≤ 254 →
    let x := { s.ch s.cur with cursor := (s.ch s.cur).cursor + 1 }
    (∃ t n, exec (.aNote p) s = .next t ∧ Continues s t { x with progNote := n } ∧
      (n.toNat : Int) = min (max (p.toNat : Int) 1) s.cfg.noteMax) ∧
    (∃ t n, exec (.aNrel p) s = .next t ∧ Continues s t { x with progNote := n } ∧
      (n.toNat : Int) = min (max (x.trigNote.toNat + p.toInt) 1) s.cfg.noteMax) ∧
    ∃ t n, exec (.bArp semis) s = .next t ∧ Continues s t { x with progNote := n } ∧
      (n.toNat : Int) = min (max (x.trigNote.toNat + semis.toInt) 1) s.cfg.noteMax

/-- 41_dialect_a.md R180, R184, R191, R193, 42_dialect_b.md R217, R218, the flow of a program. A.END clears `active`, the
gate and the cursor and stops; a jump sets the cursor; a wait sets the counter, moves on and stops; a loop goes back by its
offset, no further than index 0, and goes on in the same run; a loop of offset 0 ends the program and keeps the gate. -/
def Obligations.FlowInstructions : Prop :=
  ∀ (s : State) (p : Byte) (o : BitVec 4), s.cur < s.voices.length →
    let x := s.ch s.cur
    (s.cfg.dialect = .A →
      ∃ t, exec .aEnd s = .next t ∧ Stops s t { x with active := false, gateBit := false, cursor := 0 }) ∧
    (∃ t, exec (.aJump p) s = .next t ∧ Continues s t { x with cursor := p }) ∧
    (∃ t, exec (.aWait p) s = .next t ∧ Stops s t { x with wait := p, cursor := x.cursor + 1 }) ∧
    (∃ t, exec (.bWait o) s = .next t ∧ Stops s t { x with wait := BitVec.ofNat 8 o.toNat, cursor := x.cursor + 1 }) ∧
    (p ≠ 0 → ∃ t, exec (.aLoop p) s = .next t ∧
      Continues s t { x with cursor := BitVec.ofNat 8 (x.cursor.toNat - p.toNat) }) ∧
    (p = 0 → ∃ t, exec (.aLoop p) s = .next t ∧ Stops s t { x with active := false, cursor := 0 }) ∧
    (o ≠ 0 → ∃ t, exec (.bLoop o) s = .next t ∧
      Continues s t { x with cursor := BitVec.ofNat 8 (x.cursor.toNat - o.toNat) }) ∧
    (o = 0 → ∃ t, exec (.bLoop o) s = .next t ∧ Stops s t { x with active := false, cursor := 0 })

/-! ## Dialect B -/

/-- 42_dialect_b.md R210, R220, R221, R222, with 10_state.md R44, R55: B.CTRL writes NOISE, PULSE, SAW, TRI, TEST and GATE
from its payload and keeps RING and SYNC; B.SYNC writes bit 1, B.RING bit 2, and each keeps every other bit; B.EXT writes
the external flag; the gate is bit 0 of CTRL. -/
def Obligations.ControlRegisterInstructions : Prop :=
  ∀ (s : State) (p : BitVec 6) (v : Bool), s.cur < s.voices.length →
    let x := { s.ch s.cur with cursor := (s.ch s.cur).cursor + 1 }
    (∃ t b, exec (.bCtrl p) s = .next t ∧ Continues s t { x with ctrl := b } ∧
      b.getLsbD 7 = p.getLsbD 5 ∧ b.getLsbD 6 = p.getLsbD 4 ∧ b.getLsbD 5 = p.getLsbD 3 ∧ b.getLsbD 4 = p.getLsbD 2 ∧
      b.getLsbD 3 = p.getLsbD 1 ∧ b.getLsbD 2 = x.ctrl.getLsbD 2 ∧ b.getLsbD 1 = x.ctrl.getLsbD 1 ∧
      b.getLsbD 0 = p.getLsbD 0 ∧ (s.cfg.dialect = .B → gateOf s.cfg.dialect (t.ch s.cur) = p.getLsbD 0)) ∧
    (∃ t b, exec (.bSync v) s = .next t ∧ Continues s t { x with ctrl := b } ∧
      ∀ j, j < 8 → b.getLsbD j = if j = 1 then v else x.ctrl.getLsbD j) ∧
    (∃ t b, exec (.bRing v) s = .next t ∧ Continues s t { x with ctrl := b } ∧
      ∀ j, j < 8 → b.getLsbD j = if j = 2 then v else x.ctrl.getLsbD j) ∧
    ∃ t, exec (.bExt v) s = .next t ∧ Continues s t { x with ext := v }

/-- 42_dialect_b.md R211, R212, R213, R214: the increments keep their signed operand as the rate; the sets write 16 times
a signed and 256 times an unsigned operand. -/
def Obligations.EnvelopeIncrementsAndSets : Prop :=
  ∀ (s : State) (v : BitVec 4), s.cur < s.voices.length →
    let x := { s.ch s.cur with cursor := (s.ch s.cur).cursor + 1 }
    (∃ t, exec (.bIncp v) s = .next t ∧ Continues s t { x with pitchRate := v }) ∧
    (∃ t, exec (.bIncw v) s = .next t ∧ Continues s t { x with pwRate := v }) ∧
    (∃ t e, exec (.bSetp v) s = .next t ∧ Continues s t { x with pitchEnv := e } ∧ e.toInt = 16 * v.toInt) ∧
    ∃ t w, exec (.bSetw v) s = .next t ∧ Continues s t { x with pw := w } ∧ w.toNat = 256 * v.toNat

/-- 42_dialect_b.md R223 with 43_sequencer.md R257: the marker makes the next index the release point and stops without
moving; a note-off clears the gate and, in dialect B on a running channel with a release point, goes there and uses it up,
and otherwise ends the program; nothing else of the channel changes. -/
def Obligations.SustainMarkerAndNoteOff : Prop :=
  (∀ s : State, s.cur < s.voices.length →
    ∃ t, exec .bNoff s = .next t ∧
      Stops s t { s.ch s.cur with release := (s.ch s.cur).cursor + 1, releaseOk := true }) ∧
  ∀ (d : Dialect) (x : Channel),
    let released := d = .B ∧ x.releaseOk = true ∧ x.active = true
    let muted := match d with | .A => { x with gateBit := false } | .B => { x with ctrl := x.ctrl &&& 0xFE#8 }
    gateOf d (noteOff d x) = false ∧
    (released → noteOff d x = { muted with cursor := x.release, wait := 0, releaseOk := false }) ∧
    (¬released → noteOff d x = { muted with active := false, cursor := 0 })

/-! ## Every instruction -/

/-- 60_exceptions.md R396, 43_sequencer.md R254: every instruction ends in a next state, and no instruction touches the
store, an engine register, `FAULTS`, another channel, or its own channel's instrument, trigger note, transpose, pattern or
carried-over instrument. -/
def Obligations.EveryInstructionRunsOnItsChannelOnly : Prop :=
  ∀ (i : Instr) (s : State), ∃ t, exec i s = .next t ∧ OnlyCurrentChannel s t ∧
    (t.phase = s.phase ∨ t.phase = .modulate) ∧
    (t.ch s.cur).instr = (s.ch s.cur).instr ∧ (t.ch s.cur).trigNote = (s.ch s.cur).trigNote ∧
    (t.ch s.cur).seqPat = (s.ch s.cur).seqPat ∧ (t.ch s.cur).seqTr = (s.ch s.cur).seqTr ∧
    (t.ch s.cur).lastInstr = (s.ch s.cur).lastInstr

/-- 30_encoding.md R122, 43_sequencer.md R259, R260: a pattern effect performs the register writes of its dialect A
instruction and leaves out the cursor's; the END effect stops the channel; the other flow tags and commands that are no tag
do nothing. -/
def Obligations.EffectsAreInstructionsWithoutTheCursor : Prop :=
  (∀ (i : Instr) (s : State), s.cur < s.voices.length → i.dialect = .A → i ≠ .aEnd →
    (∀ p, i ≠ .aJump p ∧ i ≠ .aWait p ∧ i ≠ .aLoop p) →
    ∃ t, exec i s = .next t ∧
      { t.ch s.cur with cursor := (s.ch s.cur).cursor } = effectOf s.cfg s.store i (s.ch s.cur) ∧
      (t.ch s.cur).cursor = (s.ch s.cur).cursor + 1) ∧
  (∀ (c : Config) (m : Memory) (cmd p : Byte) (x : Channel), cmd ≠ 0 →
    execEffect c m cmd p x = effectOf c m (decodeA cmd p) x) ∧
  ∀ (c : Config) (m : Memory) (cmd p : Byte) (x : Channel),
    execEffect c m 0x45#8 p x = setGate c.dialect false { x with active := false, cursor := 0 } ∧
    execEffect c m 0x57#8 p x = x ∧ execEffect c m 0x47#8 p x = x ∧ execEffect c m 0x4A#8 p x = x ∧
    (cmd ∉ [0x45#8, 0x44#8, 0x46#8, 0x49#8, 0x4A#8, 0x4C#8, 0x48#8, 0x59#8, 0x5A#8, 0x50#8, 0x42#8, 0x57#8, 0x56#8,
        0x47#8, 0x53#8, 0x4E#8, 0x41#8] → execEffect c m cmd p x = x)

/-! ## Modulation tables -/

/-- 40_interpreter.md R161, R162: a bound table of length L shows value `min (n / stretch) (L - 1)` after `n` ticks
(this closed form is the spec's own inference, R161, "derived"): each value for its stretch of ticks, then the last one
held, without wrapping. A table of length 0 changes nothing at a step, and a position at or past a shortened table's
length goes to the last valid value. 43_sequencer.md R240 step 1: the tick steps the bindings that are on, VOL, DUTY,
PAN, of every channel, and nothing else. -/
def Obligations.BoundTableStepsAndHolds : Prop :=
  (∀ (c : Config) (m : Memory) (k : Kind) (t : BitVec 3) (st : BitVec 4) (x : Channel) (n : Nat),
    c.hasTables = true → t.toNat < c.ntab → c.tabCap ≤ 255 → 0 < tableLen c m k t.toNat →
    let y := Nat.iterate (stepIfBound c m k) n (bindTable c m k t st x)
    let pos := min (n / max st.toNat 1) (tableLen c m k t.toNat - 1)
    kindReg k y = tableValue c m k t.toNat pos ∧ (binding k y).idx.toNat = pos ∧ (binding k y).on = true ∧
      (binding k y).t = t) ∧
  (∀ (c : Config) (m : Memory) (k : Kind) (x : Channel), c.tabCap ≤ 255 → (binding k x).on = true →
    let len := tableLen c m k (binding k x).t.toNat
    (len = 0 → stepIfBound c m k x = x) ∧
    (0 < len → len ≤ (binding k x).idx.toNat →
      kindReg k (stepIfBound c m k x) = tableValue c m k (binding k x).t.toNat (len - 1) ∧
      binding k (stepIfBound c m k x) = { binding k x with idx := BitVec.ofNat 8 (len - 1) })) ∧
  (∀ (c : Config) (m : Memory) (k : Kind) (x : Channel), (binding k x).on = false → stepIfBound c m k x = x) ∧
  ∀ s : State, s.phase = .tables →
    (∀ v ∈ s.voices, ∀ k, (binding k v.ch).on = true → (binding k v.ch).t.toNat < s.cfg.ntab) →
    ∃ t, step s = .next t ∧ t = { s with voices := t.voices, phase := .plonks } ∧ t.voices.length = s.voices.length ∧
      ∀ c, c < s.voices.length →
        let x := s.ch c
        let y := t.ch c
        t.voice c = { s.voice c with ch := y } ∧
        (∀ k, binding k y = binding k (stepIfBound s.cfg s.store k x) ∧
          kindReg k y = kindReg k (stepIfBound s.cfg s.store k x)) ∧
        y = { x with vol := y.vol, duty := y.duty, pan := y.pan, tbVol := y.tbVol, tbDuty := y.tbDuty, tbPan := y.tbPan }

/-! ## The sequencer -/

/-- 43_sequencer.md R255: the note-on writes every channel register to its trigger value and keeps the three the sequencer
owns. -/
def Obligations.TriggerWritesTheTriggerColumn : Prop :=
  ∀ (c : Config) (n i : Byte) (x : Channel),
    let y := trigger c n i x
    y.instr = i ∧ y.cursor = 0 ∧ y.wait = 0 ∧ y.active = true ∧ y.release = 0 ∧ y.releaseOk = false ∧
    y.trigNote = n ∧ y.progNote = n ∧ y.vol = 0xF0#8 ∧ y.fade = 0 ∧ y.duty = 0x80#8 ∧ y.pan = 0x80#8 ∧
    y.wave = .pulse ∧ y.bendRate = 0 ∧ y.bendAcc = 0 ∧ y.inertia = 0 ∧ y.vibDepth = 0 ∧ y.vibMode = false ∧
    y.vibRate = 0 ∧ y.vibPhase = 0 ∧ y.cutLo = 0x00#8 ∧ y.cutHi = 0xFF#8 ∧ y.tbVol = bindingOff ∧
    y.tbDuty = bindingOff ∧ y.tbPan = bindingOff ∧ y.pitchEnv = 0 ∧ y.pitchRate = 0 ∧ y.pw = 0x800#12 ∧
    y.pwRate = 0 ∧ y.ext = false ∧ y.ctrl = 0 ∧ (gateOf c.dialect y = true ↔ c.dialect = .A) ∧
    y.seqPat = x.seqPat ∧ y.seqTr = x.seqTr ∧ y.lastInstr = x.lastInstr

/-- 43_sequencer.md R243, R249, R250 to R254: how a row is read, and how its note and instrument act, before its two effects
in their order. -/
def Obligations.RowNoteThenEffects : Prop :=
  ∀ (c : Config) (m : Memory) (r : PatternRow) (tr : Int) (x : Channel),
    let effects := fun y => execEffect c m r.cmd2 r.par2 (execEffect c m r.cmd1 r.par1 y)
    let note := BitVec.ofInt 8 (min (max (r.note.toNat + tr) 1) c.noteMax)
    let given := 1 ≤ r.instr.toNat ∧ r.instr.toNat ≤ c.nins
    (r.note = 0xFF#8 → processRow c m r tr x = effects (noteOff c.dialect x)) ∧
    (r.note = 0#8 → given → processRow c m r tr x = effects { x with lastInstr := r.instr }) ∧
    (r.note = 0#8 → ¬given → processRow c m r tr x = effects x) ∧
    (r.note ≠ 0xFF#8 → r.note ≠ 0#8 → given →
      processRow c m r tr x = effects (trigger c note r.instr { x with lastInstr := r.instr })) ∧
    (r.note ≠ 0xFF#8 → r.note ≠ 0#8 → ¬given → x.lastInstr ≠ 0 →
      processRow c m r tr x = effects (trigger c note x.lastInstr x)) ∧
    (r.note ≠ 0xFF#8 → r.note ≠ 0#8 → ¬given → x.lastInstr = 0 → processRow c m r tr x = effects x) ∧
    ∀ p k : Nat,
      let a := patBase c + (p * c.patLen + k) * 6
      (c.npat ≤ p → readRow c m p k = { note := 0, instr := 0, cmd1 := 0, par1 := 0, cmd2 := 0, par2 := 0 }) ∧
      (p < c.npat →
        (readRow c m p k).note =
          (if c.noteMax < (m.read a).toNat ∧ (m.read a).toNat < 0xFF then 0 else m.read a) ∧
        (readRow c m p k).instr = m.read (a + 1) ∧ (readRow c m p k).cmd1 = m.read (a + 2) ∧
        (readRow c m p k).par1 = m.read (a + 3) ∧ (readRow c m p k).cmd2 = m.read (a + 4) ∧
        (readRow c m p k).par2 = m.read (a + 5))

/-- 43_sequencer.md R245, R246, R248, tick step 3 away from a pattern's start in SONG mode (there it is
`AdvanceSongLoadsWrapsOrEnds`): idle does nothing; a nonzero row wait counts down; otherwise the wait is reset to TEMPO,
every channel (SONG) or the one channel (PATTERN) processes its row, and the row advances modulo the pattern length. -/
def Obligations.RowStepWaitsOrPlaysRows : Prop :=
  ∀ s : State, s.phase = .row → s.eng.row.toNat < s.cfg.patLen → s.cfg.patLen ≤ 256 →
    let advanced := BitVec.ofNat 8 ((s.eng.row.toNat + 1) % s.cfg.patLen)
    let played := { s.eng with rowWait := s.readByte 1, row := advanced }
    (s.eng.mode = .idle → step s = .next { s with cur := 0, phase := .run }) ∧
    (s.eng.mode ≠ .idle → s.eng.rowWait ≠ 0 →
      step s = .next { s with eng := { s.eng with rowWait := s.eng.rowWait - 1 }, cur := 0, phase := .run }) ∧
    (s.eng.mode = .song → s.eng.rowWait = 0 → s.eng.row ≠ 0 →
      ∃ t, step s = .next t ∧ t = { s with eng := played, voices := t.voices, cur := 0, phase := .run } ∧
        t.voices.length = s.voices.length ∧
        ∀ c, c < s.voices.length →
          t.voice c =
            { s.voice c with
              ch := processRow s.cfg s.store (readRow s.cfg s.store (s.ch c).seqPat.toNat s.eng.row.toNat)
                (s.ch c).seqTr.toInt (s.ch c) }) ∧
    (s.eng.mode = .pattern → s.eng.rowWait = 0 → s.eng.patCh.toNat < s.voices.length →
      ∃ t, step s = .next t ∧ t = { s with eng := played, voices := t.voices, cur := 0, phase := .run } ∧
        (∀ c, c ≠ s.eng.patCh.toNat → t.voice c = s.voice c) ∧
        t.voice s.eng.patCh.toNat =
          { s.voice s.eng.patCh.toNat with
            ch := processRow s.cfg s.store (readRow s.cfg s.store s.eng.patIdx.toNat s.eng.row.toNat) 0
              (s.ch s.eng.patCh.toNat) })

/-- 43_sequencer.md R247: the next song row is loaded, or row 0 when the song wraps, with every channel's pattern and
transpose read from the store; with no loop, or an empty song, everything stops. And R245, tick step 3 at a pattern's
start in SONG mode: the song row is loaded, row 0 of every channel is processed with the pattern and transpose just
loaded, the row advances; or, the song ended, everything has stopped and no row is processed. -/
def Obligations.AdvanceSongLoadsWrapsOrEnds : Prop :=
  ∀ s : State,
    let len := min (s.readByte 0).toNat s.cfg.songCap
    let next := s.eng.songNext.toNat
    let loaded := fun (r c : Nat) =>
      { s.ch c with
        seqPat := s.readByte (4 + (r * s.cfg.nch + c) * 2)
        seqTr := s.readByte (4 + (r * s.cfg.nch + c) * 2 + 1) }
    let loads := fun (r : Nat) =>
      ∃ t, s.advanceSong = (t, false) ∧ t.eng.songPos.toNat = r ∧ t.eng.songNext.toNat = r + 1 ∧
        t = { s with eng := { s.eng with songPos := t.eng.songPos, songNext := t.eng.songNext }, voices := t.voices } ∧
        t.voices.length = s.voices.length ∧
        ∀ c, c < s.voices.length → t.voice c = { s.voice c with ch := loaded r c }
    let plays := fun (r : Nat) =>
      ∃ t, step s = .next t ∧ t.eng.songPos.toNat = r ∧ t.eng.songNext.toNat = r + 1 ∧
        t = { s with
          eng := { s.eng with
            songPos := t.eng.songPos, songNext := t.eng.songNext, rowWait := s.readByte 1,
            row := BitVec.ofNat 8 (1 % s.cfg.patLen) },
          voices := t.voices, cur := 0, phase := .run } ∧
        t.voices.length = s.voices.length ∧
        ∀ c, c < s.voices.length →
          t.voice c =
            { s.voice c with
              ch := processRow s.cfg s.store (readRow s.cfg s.store (loaded r c).seqPat.toNat 0) (loaded r c).seqTr.toInt
                (loaded r c) }
    (next < len → loads next) ∧
    (len ≤ next → s.readByte 2 ≠ 0 → 0 < len → loads 0) ∧
    (len ≤ next → (s.readByte 2 = 0 ∨ len = 0) → s.advanceSong = (s.stopAll, true)) ∧
    (s.phase = .row → s.eng.mode = .song → s.eng.rowWait = 0 → s.eng.row = 0 → 1 ≤ s.cfg.patLen →
      (next < len → plays next) ∧
      (len ≤ next → s.readByte 2 ≠ 0 → 0 < len → plays 0) ∧
      (len ≤ next → (s.readByte 2 = 0 ∨ len = 0) → step s = .next { s.stopAll with cur := 0, phase := .run }))

/-- 43_sequencer.md R265, 46_host.md R363: a live-preview command latches its event on its channel, and at tick step 2 every
channel's latch is taken: a valid note triggers without transpose, an invalid one does nothing, a key-up is a note-off; the
latch is cleared. -/
def Obligations.PlonksAreLatchedThenAppliedAtTheTick : Prop :=
  (∀ (s : State) (note instr : BitVec 8) (c : Nat) (down : Bool) (rest : List Command), s.phase = .command →
    s.closed = false → configOk s.cfg = true → s.cmds = .plonk note c instr down :: rest → c < s.cfg.nch →
    c < s.voices.length →
    ∃ t, step s = .next t ∧ t = { s with voices := t.voices, cmds := rest, reply := some .ok } ∧
      (∀ k, k ≠ c → t.voice k = s.voice k) ∧
      t.voice c = { s.voice c with plonk := if down then .on note instr else .off }) ∧
  ∀ s : State, s.phase = .plonks →
    ∃ t, step s = .next t ∧ t = { s with voices := t.voices, phase := .row } ∧ t.voices.length = s.voices.length ∧
      ∀ c, c < s.voices.length →
        (t.voice c).plonk = .none ∧ (t.voice c).osc = (s.voice c).osc ∧
        ((s.voice c).plonk = .none → t.voice c = s.voice c) ∧
        ((s.voice c).plonk = .off → t.ch c = noteOff s.cfg.dialect (s.ch c)) ∧
        ∀ note instr, (s.voice c).plonk = .on note instr →
          (1 ≤ note.toNat ∧ note.toNat ≤ s.cfg.noteMax ∧ 1 ≤ instr.toNat ∧ instr.toNat ≤ s.cfg.nins →
            t.ch c = trigger s.cfg note instr (s.ch c)) ∧
          (¬(1 ≤ note.toNat ∧ note.toNat ≤ s.cfg.noteMax ∧ 1 ≤ instr.toNat ∧ instr.toNat ≤ s.cfg.nins) →
            t.ch c = s.ch c)

/-- 43_sequencer.md R240: the steps of a tick follow one another in the spec's order, the channels of step 4 in index
order, and the frame comes after them. The snapshot that step 5 takes (R266) holds every channel's registers and gate,
the latched step and duty, the five shadow bytes, and the mode, song position, row and row wait. The phases are the
model's cut of a tick (log entry 3). -/
def Obligations.TickStepsFollowInOrder : Prop :=
  ∀ s : State, Inv s →
    (s.phase = .tables → ∃ t, step s = .next t ∧ t.phase = .plonks) ∧
    (s.phase = .plonks → ∃ t, step s = .next t ∧ t.phase = .row) ∧
    (s.phase = .row → ∃ t, step s = .next t ∧ t.phase = .run ∧ t.cur = 0) ∧
    (s.phase = .run → ∃ t, step s = .next t ∧ t.cur = s.cur ∧ (t.phase = .fetch ∨ t.phase = .modulate)) ∧
    (s.phase = .fetch → ∃ t, step s = .next t ∧ t.cur = s.cur ∧ (t.phase = .fetch ∨ t.phase = .modulate)) ∧
    (s.phase = .modulate → s.cur + 1 < s.cfg.nch → ∃ t, step s = .next t ∧ t.phase = .run ∧ t.cur = s.cur + 1) ∧
    (s.phase = .modulate → s.cur + 1 = s.cfg.nch → ∃ t, step s = .next t ∧ t.phase = .snapshot) ∧
    (s.phase = .snapshot → ∃ t, step s = .next t ∧ t.phase = .render ∧ t.voices = s.voices ∧
      ∃ q, t.snap = some q ∧ q.mode = s.eng.mode ∧ q.songPos = s.eng.songPos ∧ q.row = s.eng.row ∧
        q.rowWait = s.eng.rowWait ∧ q.channels.length = s.cfg.nch ∧
        ∀ c, c < s.cfg.nch →
          let o := (s.voice c).osc
          q.channels[c]? = some
            { ch := s.ch c, gate := gateOf s.cfg.dialect (s.ch c), step := o.step, duty := o.duty,
              regs := [o.reg0, o.reg1, o.reg2, o.reg3, (s.ch c).ctrl] })

/-- 43_sequencer.md R241, R242, 45_synth.md R320: the frames before the tick of number `k`, counted from a reset of the
timer, are `floor (k * FS / TICK_HZ)`: the periods never drift; each period is at least one frame. What ties the periods
to the frames: the frame loop ends when no frame is owed, enters a tick exactly when the counter is 0 and makes a frame
otherwise; the end of a tick applies the timer; a frame appends one frame to the answer and lowers the counter and the
frames owed by one; so a counter of at least `n` lets `n` frames pass with no tick between them. The closed form is the
spec's own inference (R242, "derived"); the steps are the model's (log entry 3). -/
def Obligations.TickPeriodsNeverDrift : Prop :=
  (∀ (c : Config) (e : Engine) (k : Nat), configOk c = true → e.tickRem = 0 →
    let after := fun j => Nat.iterate (tickTimer c) j e
    sumInt ((List.range k).map fun j => ((after (j + 1)).sptCnt.toNat : Int)) = ((k * c.fs / c.tickHz : Nat) : Int) ∧
    1 ≤ (after (k + 1)).sptCnt.toNat ∧ (after k).tickRem.toNat < c.tickHz) ∧
  (∀ s : State, s.phase = .frame →
    (s.framesLeft = 0 → step s = .next { s with phase := .command, out := [], reply := some (.frames s.out) }) ∧
    (s.framesLeft ≠ 0 → s.eng.sptCnt = 0 → step s = .next { s with phase := .tables }) ∧
    (s.framesLeft ≠ 0 → s.eng.sptCnt ≠ 0 → step s = .next { s with phase := .render })) ∧
  (∀ s : State, s.phase = .snapshot → configOk s.cfg = true → s.eng.tickRem.toNat < s.cfg.tickHz →
    ∃ t, step s = .next t ∧ t = { s with eng := t.eng, snap := t.snap, phase := .render } ∧ t.eng = tickTimer s.cfg s.eng ∧
      t.eng = { s.eng with sptCnt := t.eng.sptCnt, tickRem := t.eng.tickRem } ∧
      t.eng.sptCnt.toNat = (s.eng.tickRem.toNat + s.cfg.fs) / s.cfg.tickHz ∧
      t.eng.tickRem.toNat = (s.eng.tickRem.toNat + s.cfg.fs) % s.cfg.tickHz) ∧
  (∀ s : State, s.phase = .render → (∀ v ∈ s.voices, WaveOk s.cfg v.ch.wave) →
    step s = .next
      { s with
        voices := (s.renderFrame).2.voices, delay := (s.renderFrame).2.delay, out := s.out ++ [(s.renderFrame).1],
        framesLeft := s.framesLeft - 1, eng := { s.eng with sptCnt := s.eng.sptCnt - 1 }, phase := .frame }) ∧
  ∀ (s : State) (n : Nat), Inv s → s.phase = .frame → n ≤ s.framesLeft → n ≤ s.eng.sptCnt.toNat →
    ∃ t, runSteps (2 * n) s = .next t ∧ t.phase = .frame ∧ t.framesLeft = s.framesLeft - n ∧
      t.eng = { s.eng with sptCnt := t.eng.sptCnt } ∧ t.eng.sptCnt.toNat = s.eng.sptCnt.toNat - n ∧
      t.out.length = s.out.length + n ∧ t.snap = s.snap

/-- 43_sequencer.md R244: only a play command, a stop (which `Init`, `Silence` and `NewSong` perform too) and the natural
end of a song change the mode. -/
def Obligations.ModeChangesOnlyByPlayStopOrEnd : Prop :=
  ∀ s t : State, step s = .next t → t.eng.mode ≠ s.eng.mode →
    (s.phase = .command ∧ ∃ cmd rest, s.cmds = cmd :: rest ∧
      (cmd = .init ∨ cmd = .stop ∨ cmd = .silence ∨ cmd = .newSong ∨ (∃ r, cmd = .playSongFrom r) ∨
        ∃ p r c, cmd = .playPatternFrom p r c)) ∨
    (s.phase = .row ∧ s.eng.mode = .song ∧ t.eng.mode = .idle ∧ s.eng.row = 0 ∧
      songLen s.cfg s.store ≤ s.eng.songNext.toNat ∧ (s.readByte 2 = 0 ∨ songLen s.cfg s.store = 0))

/-! ## Modulation -/

/-- 44_oscillator.md R288, R289, R292: each tick moves the volume by the fade, stopping at 0 and 255, in dialect A the
bend accumulator by 256 times its rate, saturated, and the vibrato phase by its rate, wrapping; no other channel
changes. R280, R281: the step at `modulate` is the whole of `modulateA` or `modulateB` on the current channel; what
these write is `DialectASlewsAndLatches` and `DialectBEnvelopesAndLatch`. -/
def Obligations.FadeBendAndVibratoPhaseEachTick : Prop :=
  ∀ s : State, s.phase = .modulate → s.cur < s.voices.length → (s.ch s.cur).progNote.toNat ≤ s.cfg.noteMax →
    let x := s.ch s.cur
    ∃ t, step s = .next t ∧ (∀ c, c ≠ s.cur → t.voice c = s.voice c) ∧
      t = { s with voices := t.voices, cur := t.cur, phase := t.phase } ∧ t.voices.length = s.voices.length ∧
      (s.cfg.dialect = .A → t.voice s.cur = modulateA s.cfg (s.voice s.cur)) ∧
      (s.cfg.dialect = .B → t.voice s.cur = modulateB s.cfg (s.voice s.cur)) ∧
      ((t.ch s.cur).vol.toNat : Int) = min (max (x.vol.toNat + x.fade.toInt) 0) 255 ∧
      (s.cfg.dialect = .A →
        (t.ch s.cur).bendAcc.toInt = min (max (x.bendAcc.toInt + 256 * x.bendRate.toInt) (-2 ^ 31)) (2 ^ 31 - 1)) ∧
      (s.cfg.dialect = .B → (t.ch s.cur).bendAcc = x.bendAcc) ∧
      (t.ch s.cur).vibPhase.toNat = (x.vibPhase.toNat + x.vibRate.toNat) % 256

/-- 44_oscillator.md R290, R291, R293, R294, dialect A. One tick moves the current step toward the target by at most the
inertia, and exactly onto it when it is that near or inertia is off; the step stays in 0..0x7FFF_FFFF. What is latched
is computed from the slewed step, the duty and the sine of the vibrato phase before its advance, in each vibrato mode.
Nothing else of the channel changes but the volume, the bend accumulator and the vibrato phase. The bound of the step is
the spec's own inference (R290, "derived"). -/
def Obligations.DialectASlewsAndLatches : Prop :=
  ∀ (c : Config) (v : Voice),
    let w := modulateA c v
    let old : Int := v.osc.curStep.toNat
    let limit : Int := v.ch.inertia.toNat
    let bend := min (max (v.ch.bendAcc.toInt + 256 * v.ch.bendRate.toInt) (-2 ^ 31)) (2 ^ 31 - 1)
    let target : Int := min (max ((c.freqA.getD v.ch.progNote.toNat 0 : Int) + bend) 0) 0x7FFFFFFF
    let new : Int := w.osc.curStep.toNat
    let sine := c.sine.getD v.ch.vibPhase.toNat 0
    let depth : Int := v.ch.vibDepth.toNat
    (w = { v with ch := w.ch, osc := w.osc } ∧
      w.ch = { v.ch with vol := w.ch.vol, bendAcc := w.ch.bendAcc, vibPhase := w.ch.vibPhase } ∧
      w.osc = { v.osc with curStep := w.osc.curStep, step := w.osc.step, duty := w.osc.duty }) ∧
    ((w.ch.vol.toNat : Int) = min (max (v.ch.vol.toNat + v.ch.fade.toInt) 0) 255 ∧ w.ch.bendAcc.toInt = bend ∧
      w.ch.vibPhase = v.ch.vibPhase + v.ch.vibRate) ∧
    (v.osc.curStep.toNat ≤ 0x7FFFFFFF →
      (limit = 0 ∨ |target - old| ≤ limit → new = target) ∧
      (limit ≠ 0 → limit < target - old → new = old + limit) ∧
      (limit ≠ 0 → limit < old - target → new = old - limit) ∧
      new ≤ 0x7FFFFFFF ∧
      (v.ch.vibMode = false →
        (w.osc.step.toNat : Int) = min (max (new + (sine * depth * new) / 2 ^ 18) 0) 0x7FFFFFFF ∧
        w.osc.duty = v.ch.duty) ∧
      (v.ch.vibMode = true →
        w.osc.step = w.osc.curStep ∧
        (w.osc.duty.toNat : Int) = min (max (v.ch.duty.toNat + (sine * depth) / 2 ^ 7) 0) 255))

/-- 44_oscillator.md R281, R295, R296: the dialect B envelopes saturate, and the frequency and pulse width computed from
them are latched little-endian, with the step 256 times the frequency. Nothing else of the channel changes but the
volume and the vibrato phase. -/
def Obligations.DialectBEnvelopesAndLatch : Prop :=
  ∀ (c : Config) (v : Voice),
    let w := modulateB c v
    let base : Int := c.freqB.getD v.ch.progNote.toNat 0
    let sine := c.sine.getD v.ch.vibPhase.toNat 0
    let f : Int := w.osc.reg0.toNat + 256 * w.osc.reg1.toNat
    (w = { v with ch := w.ch, osc := w.osc } ∧
      w.ch = { v.ch with vol := w.ch.vol, pitchEnv := w.ch.pitchEnv, pw := w.ch.pw, vibPhase := w.ch.vibPhase } ∧
      w.osc = { v.osc with
        reg0 := w.osc.reg0, reg1 := w.osc.reg1, reg2 := w.osc.reg2, reg3 := w.osc.reg3, step := w.osc.step }) ∧
    ((w.ch.vol.toNat : Int) = min (max (v.ch.vol.toNat + v.ch.fade.toInt) 0) 255 ∧
      w.ch.vibPhase = v.ch.vibPhase + v.ch.vibRate) ∧
    w.ch.pitchEnv.toInt = min (max (v.ch.pitchEnv.toInt + 16 * v.ch.pitchRate.toInt) (-32768)) 32767 ∧
    (w.ch.pw.toNat : Int) = min (max (v.ch.pw.toNat + 16 * v.ch.pwRate.toInt) 0) 4095 ∧
    f = min (max (base + w.ch.pitchEnv.toInt + (sine * v.ch.vibDepth.toNat * base) / 2 ^ 18) 0) 65535 ∧
    w.osc.reg2.toNat + 256 * w.osc.reg3.toNat = w.ch.pw.toNat ∧ w.osc.reg3.toNat < 16 ∧
    (w.osc.step.toNat : Int) = 256 * f

/-- 44_oscillator.md R283: the latched step, duty and register bytes, and the registers the oscillators and the mixer
read directly, change at no step outside a tick but a command of the host. This is the spec's own inference (R283,
"derived"). -/
def Obligations.LatchesChangeOnlyAtModulation : Prop :=
  ∀ s t : State, step s = .next t → s.phase ≠ .modulate → (s.phase = .command → s.cmds.head? ≠ some .init) →
    ∀ c, c < s.voices.length →
      (t.voice c).osc.step = (s.voice c).osc.step ∧ (t.voice c).osc.duty = (s.voice c).osc.duty ∧
      (t.voice c).osc.curStep = (s.voice c).osc.curStep ∧
      (t.voice c).osc.reg0 = (s.voice c).osc.reg0 ∧ (t.voice c).osc.reg1 = (s.voice c).osc.reg1 ∧
      (t.voice c).osc.reg2 = (s.voice c).osc.reg2 ∧ (t.voice c).osc.reg3 = (s.voice c).osc.reg3 ∧
      (s.phase = .frame ∨ s.phase = .render ∨ s.phase = .snapshot → t.ch c = s.ch c)

/-! ## Oscillators -/

/-- 44_oscillator.md R300, R303, R307: one clock of every oscillator. TEST holds the phase at 0 and reseeds the noise;
otherwise the phase adds the step, the overflow is recorded, the noise shifts when the top four bits change; then a
channel with SYNC restarts if its source wrapped. A clock writes the phase, the wrap and the noise register and nothing
else of the channel. The sync source is the spec's general knowledge (R307; log entry 12); that a channel synced to
itself (NCH = 1) goes to phase 0 at its wrap is the model's choice (log entry 27). -/
def Obligations.OscillatorClock : Prop :=
  ∀ (cfg : Config) (vs : List Voice) (c : Nat) (v u : Voice), vs.length = cfg.nch → c < cfg.nch →
    vs[c]? = some v → vs[(c + cfg.nch - 1) % cfg.nch]? = some u →
    let held := fun w : Voice => cfg.dialect = .B ∧ w.ch.ctrl.getLsbD 3 = true
    let next := v.osc.phase + v.osc.step
    let synced := cfg.dialect = .B ∧ v.ch.ctrl.getLsbD 1 = true ∧ ¬held u ∧ 2 ^ 32 ≤ u.osc.phase.toNat + u.osc.step.toNat
    ∃ w, (clockVoices cfg vs)[c]? = some w ∧ w = { v with osc := w.osc } ∧
      w.osc = { v.osc with phase := w.osc.phase, lfsr := w.osc.lfsr, wrapped := w.osc.wrapped } ∧
      (held v → w.osc = { v.osc with phase := 0, lfsr := cfg.noiseSeed, wrapped := false }) ∧
      (¬held v →
        w.osc.wrapped = decide (2 ^ 32 ≤ v.osc.phase.toNat + v.osc.step.toNat) ∧
        (synced → w.osc.phase = 0) ∧ (¬synced → w.osc.phase = next) ∧
        (next.extractLsb' 28 4 = v.osc.phase.extractLsb' 28 4 → w.osc.lfsr = v.osc.lfsr) ∧
        (next.extractLsb' 28 4 ≠ v.osc.phase.extractLsb' 28 4 →
          w.osc.lfsr = if v.osc.lfsr.getLsbD 0 then (v.osc.lfsr >>> 1) ^^^ cfg.noiseTaps else v.osc.lfsr >>> 1))

/-- 44_oscillator.md R301, R302, R304: the level of dialect A for each waveform, and a wavetable's index always below
its length. That the index is below the length is the spec's own inference (R304, "derived"). -/
def Obligations.LevelsOfDialectA : Prop :=
  ∀ (c : Config) (m : Memory) (v : Voice),
    let ph := v.osc.phase.toNat
    let u := (levelA c m v).toNat
    (v.ch.wave = .pulse → u = if ph / 2 ^ 24 < v.osc.duty.toNat then 255 else 0) ∧
    (v.ch.wave = .saw → u = ph / 2 ^ 24) ∧
    (v.ch.wave = .tri → ph < 2 ^ 31 → u = ph / 2 ^ 23) ∧
    (v.ch.wave = .tri → 2 ^ 31 ≤ ph → u = 511 - ph / 2 ^ 23) ∧
    (v.ch.wave = .noise → u = v.osc.lfsr.toNat % 256) ∧
    ∀ w, v.ch.wave = .table w →
      let len := min (m.read (waveAddr c w.toNat)).toNat c.waveCap
      (len = 0 → u = 128) ∧
      (len ≠ 0 → (ph / 2 ^ 24) * len / 256 < len ∧
        levelA c m v = m.read (waveAddr c w.toNat + 1 + (ph / 2 ^ 24) * len / 256))

/-- 44_oscillator.md R304, R305, R306, R308: the level of dialect B. The external flag with a wavetable selects that
wavetable, 128 where its length is 0 and otherwise its byte at the scaled phase; otherwise no waveform bit gives 128,
and the enabled waveforms combine by AND, the triangle's fold bit crossed with the source's top phase bit under RING.
That the index is below the length is the spec's own inference (R304, "derived"). The AND and the ring modulation are
the spec's general knowledge (R305, R308; log entry 12). -/
def Obligations.LevelsOfDialectB : Prop :=
  ∀ (c : Config) (m : Memory) (src : Osc) (v : Voice),
    let ph := v.osc.phase
    let ctrl := v.ch.ctrl
    let fold := ph.getLsbD 31 != (ctrl.getLsbD 2 && src.phase.getLsbD 31)
    let width := v.osc.reg2.toNat + 256 * (v.osc.reg3.toNat % 16)
    let tables := v.ch.ext = true ∧ ∃ w, v.ch.wave = .table w
    (∀ w, v.ch.ext = true → v.ch.wave = .table w →
      let len := min (m.read (waveAddr c w.toNat)).toNat c.waveCap
      (len = 0 → levelB c m src v = 128#8) ∧
      (len ≠ 0 → (ph.toNat / 2 ^ 24) * len / 256 < len ∧
        levelB c m src v = m.read (waveAddr c w.toNat + 1 + (ph.toNat / 2 ^ 24) * len / 256))) ∧
    (¬tables → ctrl.extractLsb' 4 4 = 0 → levelB c m src v = 128#8) ∧
    (¬tables → ctrl.extractLsb' 4 4 ≠ 0 →
      ∀ j, j < 8 → (levelB c m src v).getLsbD j =
        ((!ctrl.getLsbD 4 || (ph.getLsbD (23 + j) != fold)) &&
         (!ctrl.getLsbD 5 || ph.getLsbD (24 + j)) &&
         (!ctrl.getLsbD 6 || decide (ph.toNat / 2 ^ 20 < width)) &&
         (!ctrl.getLsbD 7 || v.osc.lfsr.getLsbD j)))

/-! ## The synthesizer -/

/-- 45_synth.md R325: the side amplitudes of a channel, and their range. The range is the spec's own inference (R325,
"derived"). -/
def Obligations.SideAmplitudes : Prop :=
  ∀ (d : Dialect) (x : Channel) (u : Byte),
    (gateOf d x = false → amplitude d x (gainLeft x) u = 0 ∧ amplitude d x (gainRight x) u = 0) ∧
    (gateOf d x = true →
      amplitude d x (gainLeft x) u = (((u.toNat : Int) - 128) * x.vol.toNat * (255 - x.pan.toNat)) / 256 ∧
      amplitude d x (gainRight x) u = (((u.toNat : Int) - 128) * x.vol.toNat * x.pan.toNat) / 256) ∧
    AmplitudeOk (amplitude d x (gainLeft x) u) ∧ AmplitudeOk (amplitude d x (gainRight x) u)

/-- 45_synth.md R326, R328, R329, edge synthesis on one side. Over any run of clocks the injected deltas sum to the net
change of the level last emitted, which is the amplitude of the most recent clock. The integrator does not leak: a clock
whose kernel row sums to 32768 adds to the side's total exactly 32768 times the change of level, and a flush moves the
total without changing it, so that the total, 0 at power-on, is 32768 times the level between frames; from such a side,
as many flushes without a clock as there are taps leave every cell 0 and `integ = 32768 * last`, and the last of them,
and every one after it, outputs the level. These are the spec's own inferences (R328, R329, "derived"), under the
premise that no accumulator overflows (log entry 8). -/
def Obligations.DeltasSumAndTheIntegratorDoesNotLeak : Prop :=
  (∀ (d : Side) (clocks : List (List Int × Int)), (∀ p ∈ clocks, AmplitudeOk p.2) →
    (clockSide d clocks).last.toInt - d.last.toInt = deltaSum d clocks ∧
    ∀ p, clocks.getLast? = some p → (clockSide d clocks).last.toInt = p.2) ∧
  (∀ (row : List Int) (a : Int) (d : Side), d.blep.length = row.length → sumInt row = 32768 → ClockFits row a d →
    sideTotal (edgeClock row a d) - sideTotal d = 32768 * ((edgeClock row a d).last.toInt - d.last.toInt) ∧
    (edgeClock row a d).last.toInt = a) ∧
  (∀ d : Side, fitsSigned 64 (d.integ.toInt + (d.blep.getD 0 0).toInt) = true →
    sideTotal (edgeFlush d).2 = sideTotal d ∧ (edgeFlush d).2.last = d.last) ∧
  (∀ (c : Config) (d : Side), Flushed c d → (edgeFlush d).1 = d.last.toInt ∧ Flushed c (edgeFlush d).2) ∧
  (∀ c : Config, sideTotal (sidePowerOn c) = 0 ∧ (sidePowerOn c).last = 0) ∧
  ∀ (c : Config) (d : Side), d.blep.length = c.blepTaps → AmplitudeOk d.last.toInt →
    sideTotal d = 32768 * d.last.toInt →
    let after := fun (k : Nat) => Nat.iterate (fun e => (edgeFlush e).2) k d
    (∀ k, k < c.blepTaps →
      fitsSigned 64 ((after k).integ.toInt + ((after k).blep.getD 0 0).toInt) = true) →
    Flushed c (after c.blepTaps) ∧ (after c.blepTaps).last = d.last ∧
    (after c.blepTaps).integ.toInt = 32768 * d.last.toInt ∧
    (1 ≤ c.blepTaps → (edgeFlush (after (c.blepTaps - 1))).1 = d.last.toInt)

/-- 45_synth.md R332: edge synthesis with one clock per frame and the whole step in the first tap gives, from flushed
buffers, the same samples and the same channels as direct evaluation, and flushed buffers again. This is the spec's own
inference (R332, "derived"). -/
def Obligations.EdgeWithOneClockIsDirect : Prop :=
  ∀ (c : Config) (m : Memory) (vs : List Voice), c.synthMode = .edge → c.oversample = 1 → 1 ≤ c.blepTaps →
    c.blepK = [identityKernel c.blepTaps] → (∀ v ∈ vs, Flushed c v.left ∧ Flushed c v.right) →
    let edge := renderVoices c m vs
    let direct := renderVoices { c with synthMode := .direct } m vs
    edge.map (fun x => (x.left, x.right, x.voice.ch, x.voice.osc, x.voice.plonk)) =
      direct.map (fun x => (x.left, x.right, x.voice.ch, x.voice.osc, x.voice.plonk)) ∧
    ∀ x ∈ edge, Flushed c x.voice.left ∧ Flushed c x.voice.right

/-- 45_synth.md R330, R340, R341, R342, R345, R350, the post chain. With any kernels and histories the filter bank is
the high-pass stage with the kernel of the low cutoff, then on its result the low-pass stage with the kernel of the high
cutoff: each outputs the saturated sum of products, and shifts its history by one with its input in front (an input that
leaves 32 bits leaves a free value there, log entry 9). With the trigger's cutoffs it passes every 32-bit value
unchanged, and absent it passes every value and keeps its state. The mixer shifts the sum down and saturates it, and
with four channels and a shift of 2 it never saturates. The delay adds the other side's sample of DLEN frames before,
saturates, stores the sums at its index and moves on; with no feedback a mix in range passes unchanged. That the mixer
never saturates and that the delay passes are the spec's own inferences (R345, R350, "derived"). -/
def Obligations.FilterMixerAndDelay : Prop :=
  (∀ (c : Config) (x : Channel) (d : Side) (v : Int),
    (c.firEnable = true → firOk c = true → x.cutLo = 0x00#8 → x.cutHi = 0xFF#8 → fitsSigned 32 v = true →
      (filterSide c x d v).1 = v) ∧
    (c.firEnable = false → filterSide c x d v = (v, d))) ∧
  (∀ (c : Config) (x : Channel) (d : Side) (v : Int), c.firEnable = true → firOk c = true →
    d.firh.length = c.firTaps - 1 → d.firl.length = c.firTaps - 1 →
    let stage := fun (h : List Int) (hist : List (BitVec 32)) (a : Int) =>
      min (max ((h.getD 0 0 * a +
        sumInt ((List.range (c.firTaps - 1)).map fun j => h.getD (j + 1) 0 * (hist.getD j 0).toInt)) / 2 ^ 15)
        (-2 ^ 31)) (2 ^ 31 - 1)
    let mid := stage (c.firHP.getD x.cutLo.toNat []) d.firh v
    let e := (filterSide c x d v).2
    (filterSide c x d v).1 = stage (c.firLP.getD x.cutHi.toNat []) d.firl mid ∧
    e = { d with firh := e.firh, firl := e.firl } ∧ e.firh.length = c.firTaps - 1 ∧ e.firl.length = c.firTaps - 1 ∧
    (2 ≤ c.firTaps →
      (fitsSigned 32 v = true → (e.firh.getD 0 0).toInt = v) ∧ (e.firl.getD 0 0).toInt = mid) ∧
    ∀ j, j + 1 < c.firTaps - 1 → e.firh.getD (j + 1) 0 = d.firh.getD j 0 ∧ e.firl.getD (j + 1) 0 = d.firl.getD j 0) ∧
  (∀ (c : Config) (ys : List Int),
    mixSide c ys = min (max (sumInt ys / 2 ^ c.mixShift) (-32768)) 32767 ∧
    (c.mixShift = 2 → ys.length = 4 → (∀ y ∈ ys, AmplitudeOk y) → mixSide c ys = sumInt ys / 4)) ∧
  ∀ (c : Config) (d : Delay) (mL mR : Int),
    let r := delayTurn c d mL mR
    let cell := fun (line : List (Nat × BitVec 16)) (a : Nat) => (sparseGet delayBlank line a).toInt
    r.1.left.toInt = min (max (mL + (c.dfb * cell d.right d.ptr) / 256) (-32768)) 32767 ∧
    r.1.right.toInt = min (max (mR + (c.dfb * cell d.left d.ptr) / 256) (-32768)) 32767 ∧
    (∀ a, cell r.2.left a = if a = d.ptr then r.1.left.toInt else cell d.left a) ∧
    (∀ a, cell r.2.right a = if a = d.ptr then r.1.right.toInt else cell d.right a) ∧
    r.2.ptr = (d.ptr + 1) % c.dlen ∧
    (c.dfb = 0 → -32768 ≤ mL → mL ≤ 32767 → -32768 ≤ mR → mR ≤ 32767 → r.1.left.toInt = mL ∧ r.1.right.toInt = mR)

/-- 45_synth.md R352: with every gate at 0, the synthesizer state clear, the filter absent and no feedback, the frame is
(0, 0) and the synthesizer state stays clear. This is the spec's own inference (R352, "derived"). -/
def Obligations.SilenceAtRest : Prop :=
  ∀ s : State, (∀ v ∈ s.voices, gateOf s.cfg.dialect v.ch = false) → s.cfg.firEnable = false → s.cfg.dfb = 0 →
    1 ≤ s.cfg.blepTaps → (∀ v ∈ s.voices, v.left = sidePowerOn s.cfg ∧ v.right = sidePowerOn s.cfg) →
    (s.renderFrame).1 = { left := 0, right := 0 } ∧
    ∀ v ∈ (s.renderFrame).2.voices, v.left = sidePowerOn s.cfg ∧ v.right = sidePowerOn s.cfg

/-! ## The host's commands -/

/-- 46_host.md R362, R363, R370, R371, R375: a store write inside the store changes that one byte, which reads back as
written, and nothing else; a store read answers the byte and changes nothing; an argument out of range is answered
`ERR_RANGE` and changes nothing. -/
def Obligations.StoreCommandsAndRangeRefusals : Prop :=
  ∀ (s : State) (cmd : Command) (rest : List Command), s.phase = .command → s.cmds = cmd :: rest → s.closed = false →
    configOk s.cfg = true →
    (∀ a b, cmd = .writeStore a b → a < storeSize s.cfg →
      ∃ t, step s = .next t ∧ t = { s with store := t.store, cmds := rest, reply := some .ok } ∧
        ∀ k, t.readByte k = if k = a then b else s.readByte k) ∧
    (∀ a, cmd = .readStore a → a < storeSize s.cfg →
      step s = .next { s with cmds := rest, reply := some (.byte (s.readByte a)) }) ∧
    ((∃ p r c, cmd = .playPatternFrom p r c ∧ s.cfg.nch ≤ c) ∨ (∃ n c i d, cmd = .plonk n c i d ∧ s.cfg.nch ≤ c) ∨
      (∃ a b, cmd = .writeStore a b ∧ storeSize s.cfg ≤ a) ∨ (∃ a, cmd = .readStore a ∧ storeSize s.cfg ≤ a) →
      step s = .next { s with cmds := rest, reply := some .errRange })

/-- 43_sequencer.md R262, 46_host.md R364, R367, 70_reset_and_hazards.md R411, R412: `Stop` makes the engine idle and writes
every channel's stop column, the waveform apart; it keeps the oscillators, the tick timer, the synthesizer, the store and
`FAULTS`. `Silence` does the same and clears the synthesizer; `NewSong` does the same and writes the new-song image. -/
def Obligations.StopSilenceAndNewSong : Prop :=
  ∀ (s : State) (cmd : Command) (rest : List Command), s.phase = .command → s.closed = false → configOk s.cfg = true →
    s.cmds = cmd :: rest → (cmd = .stop ∨ cmd = .silence ∨ cmd = .newSong) →
    ∃ t, step s = .next t ∧
      t = { s with
        eng := { s.eng with mode := .idle, row := 0, rowWait := 0 }, voices := t.voices, delay := t.delay,
        store := t.store, cmds := rest, reply := some .ok } ∧
      (cmd = .silence → t.delay = { left := [], right := [], ptr := 0 }) ∧ (cmd ≠ .silence → t.delay = s.delay) ∧
      (cmd ≠ .newSong → t.store = s.store) ∧
      (cmd = .newSong → ∀ a, t.readByte a = if a = 0 then 1 else if a = 1 then 5 else if a = 2 then 1 else 0) ∧
      t.voices.length = s.voices.length ∧
      ∀ c, c < s.voices.length →
        t.ch c = { channelPowerOn with wave := (s.ch c).wave } ∧ gateOf s.cfg.dialect (t.ch c) = false ∧
        (t.ch c).active = false ∧ (t.ch c).vol = 0 ∧ (t.ch c).wait = 0 ∧ (t.ch c).cursor = 0 ∧
        (t.voice c).osc = (s.voice c).osc ∧ (t.voice c).plonk = .none ∧
        (cmd = .silence → (t.voice c).left = sidePowerOn s.cfg ∧ (t.voice c).right = sidePowerOn s.cfg) ∧
        (cmd ≠ .silence → (t.voice c).left = (s.voice c).left ∧ (t.voice c).right = (s.voice c).right)

/-- 43_sequencer.md R264, 46_host.md R362: a play command stops everything first, then sets the mode, the position and
the tick timer, so that the first row plays at the next frame. 70_reset_and_hazards.md R412: the store, the oscillators,
the synthesizer and delay state and `FAULTS` are kept. -/
def Obligations.PlayCommandsStopThenStart : Prop :=
  ∀ (s : State) (p r : BitVec 8) (c : Nat) (rest : List Command), s.phase = .command → s.closed = false →
    configOk s.cfg = true →
    let kept := fun t : State =>
      t.store = s.store ∧ t.delay = s.delay ∧ t.faults = s.faults ∧ t.cmds = rest ∧
      ∀ c, c < s.voices.length →
        (t.voice c).osc = (s.voice c).osc ∧ (t.voice c).left = (s.voice c).left ∧ (t.voice c).right = (s.voice c).right
    (s.cmds = .playSongFrom r :: rest →
      ∃ t, step s = .next t ∧
        t = { s with voices := s.stopAll.voices, eng := t.eng, cmds := rest, reply := some .ok } ∧ kept t ∧
        t.eng = { s.eng with mode := .song, songNext := t.eng.songNext, row := 0, rowWait := 0, sptCnt := 0, tickRem := 0 } ∧
        t.eng.songNext.toNat = r.toNat) ∧
    (s.cmds = .playPatternFrom p r c :: rest → c < s.cfg.nch →
      ∃ t, step s = .next t ∧
        t = { s with voices := s.stopAll.voices, eng := t.eng, cmds := rest, reply := some .ok } ∧ kept t ∧
        t.eng = { s.eng with mode := .pattern, patIdx := p, patCh := t.eng.patCh, row := t.eng.row, rowWait := 0,
                             sptCnt := 0, tickRem := 0 } ∧
        t.eng.patCh.toNat = c ∧ t.eng.row.toNat = r.toNat % s.cfg.patLen)

/-- 10_state.md R32, R33, R34: the bits of the status, fault and gate words. -/
def Obligations.StatusFaultAndGateWords : Prop :=
  ∀ s : State, s.voices.length = s.cfg.nch → s.cfg.nch ≤ 16 →
    ((statusWord s).extractLsb' 0 2).toNat = (match s.eng.mode with | .idle => 0 | .song => 1 | .pattern => 2) ∧
    ((statusWord s).getLsbD 2 = true ↔ ∃ c, c < s.cfg.nch ∧ s.faults.getLsbD c = true) ∧
    (statusWord s).extractLsb' 3 5 = 0 ∧ (statusWord s).extractLsb' 24 8 = 0 ∧
    (∀ c, c < 16 → (statusWord s).getLsbD (8 + c) = (decide (c < s.cfg.nch) && (s.ch c).active)) ∧
    (∀ c, c < 32 → (gatesWord s).getLsbD c = (decide (c < s.cfg.nch) && gateOf s.cfg.dialect (s.ch c))) ∧
    (∀ c, c < 32 → (faultsWord s).getLsbD c = (decide (c < s.cfg.nch) && s.faults.getLsbD c)) ∧
    (isPlayingBit s = true ↔ s.eng.mode ≠ .idle)

/-- 46_host.md R365, R368, R369, 00_scope.md R11: the queries answer what they read and change nothing else. `Shutdown`
(R361) answers OK and changes nothing of the engine; that it sets the flag `closed` of the host's side is the model's
choice (log entry 5, DESIGN CHOICE). -/
def Obligations.QueriesAnswerAndChangeNothing : Prop :=
  ∀ (s : State) (rest : List Command), s.phase = .command → s.closed = false → configOk s.cfg = true →
    let answers := fun (r : Reply) => step s = .next { s with cmds := rest, reply := some r }
    (s.cmds = .shutdown :: rest → step s = .next { s with cmds := rest, reply := some .ok, closed := true }) ∧
    (s.cmds = .isPlaying :: rest → answers (.playing (decide (s.eng.mode ≠ .idle)))) ∧
    (s.cmds = .readStatus :: rest → answers (.word (statusWord s))) ∧
    (s.cmds = .readGates :: rest → answers (.word (gatesWord s))) ∧
    (s.cmds = .readFaults :: rest → answers (.word (faultsWord s))) ∧
    (s.cmds = .capabilities :: rest →
      answers (.caps
        { channels := s.cfg.nch, patterns := s.cfg.npat, patternRows := s.cfg.patLen, instruments := s.cfg.nins,
          programCap := s.cfg.progCap, tables := s.cfg.ntab, tableCap := s.cfg.tabCap, waves := s.cfg.nwave,
          waveCap := s.cfg.waveCap, minOctave := 0, maxOctave := (s.cfg.noteMax - 1) / 12,
          hasTables := s.cfg.hasTables }))

/-- 70_reset_and_hazards.md R410, R411, with the power-on columns of 10_state.md R31, R33, R40, R50, R60 to R62: what `Init`
leaves, in every configuration: it is power-on reset. -/
def Obligations.InitIsPowerOnReset : Prop :=
  ∀ (s : State) (rest : List Command), s.phase = .command → s.cmds = .init :: rest → s.closed = false →
    configOk s.cfg = true →
    ∃ t, step s = .next t ∧ t.cfg = s.cfg ∧ t.cmds = rest ∧ t.reply = some .ok ∧ t.faults = 0 ∧
      t.eng = { mode := .idle, songPos := 0, songNext := 0, row := 0, rowWait := 0, patCh := 0, patIdx := 0,
                sptCnt := 0, tickRem := 0 } ∧
      t.voices.length = s.cfg.nch ∧ t.delay.ptr = 0 ∧
      (∀ a, sparseGet delayBlank t.delay.left a = 0 ∧ sparseGet delayBlank t.delay.right a = 0) ∧
      (∀ a, t.readByte a = if a = 0 then 1 else if a = 1 then 5 else if a = 2 then 1 else 0) ∧
      ∀ c, c < s.cfg.nch →
        let x := t.ch c
        let o := (t.voice c).osc
        (x.vol = 0 ∧ x.duty = 0x80#8 ∧ x.pan = 0x80#8 ∧ x.wave = .pulse ∧ x.cutLo = 0 ∧ x.cutHi = 0xFF#8 ∧
          x.pw = 0x800#12 ∧ x.active = false ∧ x.instr = 0 ∧ x.cursor = 0 ∧ x.wait = 0 ∧ x.release = 0 ∧
          x.releaseOk = false ∧ x.trigNote = 0 ∧ x.progNote = 0 ∧ x.gateBit = false ∧ x.fade = 0 ∧ x.bendRate = 0 ∧
          x.bendAcc = 0 ∧ x.inertia = 0 ∧ x.vibDepth = 0 ∧ x.vibMode = false ∧ x.vibRate = 0 ∧ x.vibPhase = 0 ∧
          x.tbVol = bindingOff ∧ x.tbDuty = bindingOff ∧ x.tbPan = bindingOff ∧ x.pitchEnv = 0 ∧ x.pitchRate = 0 ∧
          x.pwRate = 0 ∧ x.ext = false ∧ x.ctrl = 0 ∧ x.seqPat = 0 ∧ x.seqTr = 0 ∧ x.lastInstr = 0) ∧
        o = { phase := 0, curStep := 0, step := 0, duty := 0x80#8, lfsr := s.cfg.noiseSeed, wrapped := false, reg0 := 0,
              reg1 := 0, reg2 := 0, reg3 := 8 } ∧
        (t.voice c).plonk = .none ∧
        (∀ side, side = (t.voice c).left ∨ side = (t.voice c).right →
          side.integ = 0 ∧ side.last = 0 ∧ (∀ b ∈ side.blep, b = 0) ∧ (∀ b ∈ side.firh, b = 0) ∧
          (∀ b ∈ side.firl, b = 0))

/-! ## The machine -/

/-- 20_memory.md R95, R96, 10_state.md R30: no step changes the configuration, and none changes the store but a host
command that writes it. -/
def Obligations.OnlyTheHostWritesTheStore : Prop :=
  ∀ s t : State, step s = .next t → t.cfg = s.cfg ∧
    (t.store = s.store ∨ ∃ cmd rest, s.phase = .command ∧ s.cmds = cmd :: rest ∧
      (cmd = .init ∨ cmd = .newSong ∨ ∃ a b, cmd = .writeStore a b))

/-- 10_state.md R33, 60_exceptions.md R391: a bit of `FAULTS` stays set until `Init`, and only a run at its step limit sets
one, its own channel's. -/
def Obligations.FaultsAreSticky : Prop :=
  ∀ s t : State, step s = .next t →
    (∀ c, s.faults.getLsbD c = true → t.faults.getLsbD c = true ∨ (s.phase = .command ∧ s.cmds.head? = some .init)) ∧
    ∀ c, s.faults.getLsbD c = false → t.faults.getLsbD c = true →
      s.phase = .fetch ∧ c = s.cur ∧ s.runCount = s.cfg.stepLimit

/-- The invariant holds right after reset, and after power-on in every configuration that meets the constraints.
P-SIMPLE as the configuration of `State.reset` is the model's choice (log entry 1). -/
def Obligations.PowerOnMeetsTheInvariant : Prop :=
  Inv State.reset ∧ ∀ c : Config, configOk c = true → Inv (State.powerOn c)

/-- Every step keeps the invariant: the ranges of 10_state.md and 20_memory.md R94, the store and the delay lines in
canonical form, and where a command in progress may stand. The invariant is the model's, gathered from those rules. -/
def Obligations.EveryStepKeepsTheInvariant : Prop :=
  ∀ s t : State, Inv s → step s = .next t → Inv t

/-- 60_exceptions.md R392, 93_implementation_defined.md row 15: under the invariant no step faults, and none is refused
but a command after `Shutdown`. The list of R392 is the spec's own inference ("derived"); the faults and the refusal are
the model's (log entries 5, 7). -/
def Obligations.NothingStopsTheEngine : Prop :=
  ∀ s : State, Inv s →
    (¬(s.phase = .command ∧ s.cmds ≠ [] ∧ s.closed = true) → ∃ t, step s = .next t) ∧
    (s.phase = .command → s.cmds ≠ [] → s.closed = true → step s = .refused .afterShutdown)

/-- 45_synth.md R320, 46_host.md R366: from every state of the invariant, `GetSamples(n)` completes in finitely many
steps with exactly `n` frames, the store and the configuration as they were. The steps are the model's cut of the
command (log entry 3). -/
def Obligations.GetSamplesGivesExactlyNFrames : Prop :=
  ∀ (s : State) (n : BitVec 32) (rest : List Command), Inv s → s.phase = .command → s.cmds = .getSamples n :: rest →
    s.closed = false →
    ∃ k t out, runSteps k s = .next t ∧ t.phase = .command ∧ t.cmds = rest ∧ t.reply = some (.frames out) ∧
      out.length = n.toNat ∧ t.store = s.store ∧ t.cfg = s.cfg ∧ Inv t

/-- 45_synth.md R321: splitting a request changes nothing: the same frames and the same engine state. This is the spec's
own inference (R321, "derived"); the steps are the model's (log entry 3). -/
def Obligations.SplittingARequestChangesNothing : Prop :=
  ∀ (s : State) (a b whole : BitVec 32), Inv s → AtRest s → s.closed = false → a.toNat + b.toNat = whole.toNat →
    ∃ i j k u v w,
      runSteps i { s with cmds := [.getSamples a] } = .next u ∧ AtRest u ∧
      runSteps j { u with cmds := [.getSamples b] } = .next v ∧ AtRest v ∧
      runSteps k { s with cmds := [.getSamples whole] } = .next w ∧ AtRest w ∧
      answeredFrames u ++ answeredFrames v = answeredFrames w ∧ engineSide v = engineSide w

/-! ## A frame -/

/-- 44_oscillator.md R300, 45_synth.md R322, R326, R330, how a frame is put together. DIRECT: every channel gives the
two amplitudes of its level before the clock, and has been clocked. EDGE: clock `k` takes each channel's amplitudes from
its level before that clock and injects them with row `k` of the kernel; after the last clock each side is flushed. A
clock adds the change of level times the row's coefficient to each cell and remembers the level, and a flush adds the
first cell to the running sum, outputs it divided by 32768 and moves the cells down, wherever no accumulator overflows
(log entry 8). The frame is the filter bank on every channel's two values, then the mixer of each side, then the delay.
-/
def Obligations.FrameIsLevelsThenPostChain : Prop :=
  (∀ (c : Config) (m : Memory) (vs : List Voice),
    let level := fun (us : List Voice) (i : Nat) (v : Voice) =>
      match c.dialect with
      | .A => levelA c m v
      | .B => levelB c m (us.getD ((i + c.nch - 1) % c.nch) (voicePowerOn c)).osc v
    let left := fun (v : Voice) (u : Byte) => amplitude c.dialect v.ch (gainLeft v.ch) u
    let right := fun (v : Voice) (u : Byte) => amplitude c.dialect v.ch (gainRight v.ch) u
    (renderVoices c m vs).length = vs.length ∧
    (c.synthMode = .direct → ∀ (i : Nat) (v : Voice), vs[i]? = some v →
      ∃ w : Voice, (clockVoices c vs)[i]? = some w ∧
        (renderVoices c m vs)[i]? =
          some ({ left := left v (level vs i v), right := right v (level vs i v), voice := w } : Contribution)) ∧
    (c.synthMode = .edge → ∃ clocked : Nat → List Voice, clocked 0 = vs ∧
      (∀ k, k < c.oversample → (clocked (k + 1)).length = (clocked k).length ∧
        ∀ (i : Nat) (v : Voice), (clocked k)[i]? = some v →
          ∃ w : Voice, (clockVoices c (clocked k))[i]? = some w ∧
            (clocked (k + 1))[i]? = some
              ({ w with
                left := edgeClock (c.blepK.getD k []) (left v (level (clocked k) i v)) v.left
                right := edgeClock (c.blepK.getD k []) (right v (level (clocked k) i v)) v.right } : Voice)) ∧
      ∀ (i : Nat) (v : Voice), (clocked c.oversample)[i]? = some v →
        (renderVoices c m vs)[i]? = some
          ({ left := (edgeFlush v.left).1, right := (edgeFlush v.right).1,
             voice := { v with left := (edgeFlush v.left).2, right := (edgeFlush v.right).2 } } : Contribution))) ∧
  (∀ (row : List Int) (a : Int) (d : Side), d.blep.length = row.length → ClockFits row a d →
    let e := edgeClock row a d
    e = { d with last := e.last, blep := e.blep } ∧ e.last.toInt = a ∧ e.blep.length = d.blep.length ∧
    ∀ j, (e.blep.getD j 0).toInt = (d.blep.getD j 0).toInt + (a - d.last.toInt) * row.getD j 0) ∧
  (∀ d : Side, fitsSigned 64 (d.integ.toInt + (d.blep.getD 0 0).toInt) = true →
    let e := (edgeFlush d).2
    (edgeFlush d).1 = (d.integ.toInt + (d.blep.getD 0 0).toInt) / 32768 ∧
    e = { d with integ := e.integ, blep := e.blep } ∧ e.integ.toInt = d.integ.toInt + (d.blep.getD 0 0).toInt ∧
    e.blep.length = d.blep.length ∧ ∀ j, e.blep.getD j 0 = d.blep.getD (j + 1) 0) ∧
  ∀ s : State,
    let xs := renderVoices s.cfg s.store s.voices
    let filtered := fun (x : Contribution) =>
      (filterSide s.cfg x.voice.ch x.voice.left x.left, filterSide s.cfg x.voice.ch x.voice.right x.right)
    let made := delayTurn s.cfg s.delay (mixSide s.cfg (xs.map fun x => (filtered x).1.1))
      (mixSide s.cfg (xs.map fun x => (filtered x).2.1))
    let t := (s.renderFrame).2
    (s.renderFrame).1 = made.1 ∧ t = { s with voices := t.voices, delay := made.2 } ∧ t.voices.length = s.voices.length ∧
    ∀ (i : Nat) (x : Contribution), xs[i]? = some x →
      t.voices[i]? = some ({ x.voice with left := (filtered x).1.2, right := (filtered x).2.2 } : Voice)
end

