-- ==== Sys2Proof/Laws/State.lean ====
section
/-! SUPPORT. One lemma per field per update of the state, true by rfl, and what a write to one channel leaves of the
others; what a write to a bound register or its binding leaves; and a run of one step more. -/

namespace Sys2Proof.Machine

variable (s : State) (c d : Nat) (f : Channel → Channel)

@[simp] theorem State.mapCh_cfg : (s.mapCh c f).cfg = s.cfg := rfl
@[simp] theorem State.mapCh_eng : (s.mapCh c f).eng = s.eng := rfl
@[simp] theorem State.mapCh_faults : (s.mapCh c f).faults = s.faults := rfl
@[simp] theorem State.mapCh_store : (s.mapCh c f).store = s.store := rfl
@[simp] theorem State.mapCh_delay : (s.mapCh c f).delay = s.delay := rfl
@[simp] theorem State.mapCh_phase : (s.mapCh c f).phase = s.phase := rfl
@[simp] theorem State.mapCh_cur : (s.mapCh c f).cur = s.cur := rfl
@[simp] theorem State.mapCh_runCount : (s.mapCh c f).runCount = s.runCount := rfl
@[simp] theorem State.mapCh_framesLeft : (s.mapCh c f).framesLeft = s.framesLeft := rfl
@[simp] theorem State.mapCh_out : (s.mapCh c f).out = s.out := rfl
@[simp] theorem State.mapCh_cmds : (s.mapCh c f).cmds = s.cmds := rfl
@[simp] theorem State.mapCh_reply : (s.mapCh c f).reply = s.reply := rfl
@[simp] theorem State.mapCh_closed : (s.mapCh c f).closed = s.closed := rfl
@[simp] theorem State.mapCh_snap : (s.mapCh c f).snap = s.snap := rfl

@[simp] theorem State.mapCh_readByte (a : Nat) : (s.mapCh c f).readByte a = s.readByte a := rfl

@[simp] theorem State.mapCh_length : (s.mapCh c f).voices.length = s.voices.length := by
  simp [State.mapCh]

/-- A write to channel `c` leaves every other channel's record alone. -/
theorem State.mapCh_voice_other (h : d ≠ c) : (s.mapCh c f).voice d = s.voice d := by
  simp [State.voice, State.mapCh, List.getD_eq_getElem?_getD, Ne.symm h]

/-- A write to an existing channel `c` changes its channel registers by `f` and nothing else of its record. -/
theorem State.mapCh_voice_same (h : c < s.voices.length) :
    (s.mapCh c f).voice c = { s.voice c with ch := f (s.ch c) } := by
  simp [State.ch, State.voice, State.mapCh, List.getD_eq_getElem?_getD, h]

/-- A write to a channel that does not exist changes nothing. -/
theorem State.mapCh_absent (h : s.voices.length ≤ c) : s.mapCh c f = s := by
  cases s
  simp only [State.mapCh, State.mk.injEq, true_and, and_true] at *
  apply List.ext_getElem?
  intro i
  rw [List.getElem?_modify]
  by_cases hi : c = i
  · subst hi; simp [List.getElem?_eq_none h]
  · simp [hi]

/-- The current channel after a write to it. -/
theorem State.mapCh_ch_same (h : c < s.voices.length) : (s.mapCh c f).ch c = f (s.ch c) := by
  simp [State.ch, State.mapCh_voice_same s c f h]

@[simp] theorem State.continueWith_eq : s.continueWith f = .next (s.mapCh s.cur f) := rfl

@[simp] theorem State.stopWith_eq : s.stopWith f = .next { s.mapCh s.cur f with phase := .modulate } := rfl

@[simp] theorem State.raiseRunaway_voices : s.raiseRunaway.voices = s.voices := rfl
@[simp] theorem State.raiseRunaway_phase : s.raiseRunaway.phase = .modulate := rfl
@[simp] theorem State.raiseRunaway_store : s.raiseRunaway.store = s.store := rfl
@[simp] theorem State.raiseRunaway_eng : s.raiseRunaway.eng = s.eng := rfl
@[simp] theorem State.raiseRunaway_faults : s.raiseRunaway.faults = s.faults ||| (1#16 <<< s.cur) := rfl

@[simp] theorem State.stopAll_cfg : s.stopAll.cfg = s.cfg := rfl
@[simp] theorem State.stopAll_store : s.stopAll.store = s.store := rfl
@[simp] theorem State.stopAll_faults : s.stopAll.faults = s.faults := rfl
@[simp] theorem State.stopAll_delay : s.stopAll.delay = s.delay := rfl
@[simp] theorem State.stopAll_mode : s.stopAll.eng.mode = .idle := rfl
@[simp] theorem State.stopAll_phase : s.stopAll.phase = s.phase := rfl
@[simp] theorem State.stopAll_length : s.stopAll.voices.length = s.voices.length := by simp [State.stopAll]

@[simp] theorem State.answer_reply (r : Reply) : (s.answer r).reply = some r := rfl
@[simp] theorem State.answer_voices (r : Reply) : (s.answer r).voices = s.voices := rfl
@[simp] theorem State.answer_store (r : Reply) : (s.answer r).store = s.store := rfl
@[simp] theorem State.answer_eng (r : Reply) : (s.answer r).eng = s.eng := rfl
@[simp] theorem State.answer_cfg (r : Reply) : (s.answer r).cfg = s.cfg := rfl

@[simp] theorem State.loadSongRow_cfg (r : Nat) : (s.loadSongRow r).cfg = s.cfg := rfl
@[simp] theorem State.loadSongRow_store (r : Nat) : (s.loadSongRow r).store = s.store := rfl
@[simp] theorem State.loadSongRow_faults (r : Nat) : (s.loadSongRow r).faults = s.faults := rfl
@[simp] theorem State.loadSongRow_length (r : Nat) : (s.loadSongRow r).voices.length = s.voices.length := by
  simp [State.loadSongRow]

@[simp] theorem State.nextRow_voices : s.nextRow.voices = s.voices := rfl
@[simp] theorem State.nextRow_store : s.nextRow.store = s.store := rfl
@[simp] theorem State.nextRow_faults : s.nextRow.faults = s.faults := rfl
@[simp] theorem State.nextRow_cfg : s.nextRow.cfg = s.cfg := rfl

variable (x : Channel) (k : Kind) (b : Byte) (t : TableBinding)

@[simp] theorem advance_cursor : (advance x).cursor = x.cursor + 1 := rfl
@[simp] theorem endProgram_active : (endProgram x).active = false := rfl
@[simp] theorem endProgram_cursor : (endProgram x).cursor = 0 := rfl

@[simp] theorem kindReg_setKindReg : kindReg k (setKindReg k b x) = b := by cases k <;> rfl
@[simp] theorem binding_setBinding : binding k (setBinding k t x) = t := by cases k <;> rfl
@[simp] theorem binding_setKindReg (j : Kind) : binding j (setKindReg k b x) = binding j x := by
  cases k <;> cases j <;> rfl
@[simp] theorem kindReg_setBinding (j : Kind) : kindReg j (setBinding k t x) = kindReg j x := by
  cases k <;> cases j <;> rfl

/-- The gate reads what was last written to it, in either dialect (10_state.md R44). -/
@[simp] theorem gateOf_setGate (m : Dialect) (v : Bool) : gateOf m (setGate m v x) = v := by
  cases m <;> cases v <;> simp [gateOf, setGate, setBit]

/-- A write to one kind's binding leaves the others' alone. -/
theorem binding_setBinding_other {k j : Kind} (h : j ≠ k) (b : TableBinding) (x : Channel) :
    binding j (setBinding k b x) = binding j x := by
  cases k <;> cases j <;> first | rfl | exact absurd rfl h

/-- A write to one kind's register leaves the others' alone. -/
theorem kindReg_setKindReg_other {k j : Kind} (h : j ≠ k) (b : Byte) (x : Channel) :
    kindReg j (setKindReg k b x) = kindReg j x := by
  cases k <;> cases j <;> first | rfl | exact absurd rfl h

/-- A run of one step more, from a state that has a next state. -/
theorem runSteps_succ {n : Nat} {s t : State} (h : step s = .next t) : runSteps (n + 1) s = runSteps n t := by
  have run : ∀ (M : Host.Core) (a b : M.State), M.step a = .next b → M.run (n + 1) a = M.run n b := by
    intro M a b e
    simp only [Host.Core.run, e]
  exact run Sys2Proof.core s t h

end Sys2Proof.Machine
end

