-- ==== Sys2Proof/Laws/Ops.lean ====
section
/-! SUPPORT. What each shared operation can do, said once: the shape of every instruction's effect, the turns of the run
loop, and the cases of the table operations. -/

namespace Sys2Proof.Machine

/-- Every instruction ends in a next state: some register writes on the current channel, and the run goes on or ends. -/
theorem exec_shape (i : Instr) (s : State) :
    ∃ f : Channel → Channel, exec i s = s.continueWith f ∨ exec i s = s.stopWith f := by
  cases i with
  | aLoop p =>
    by_cases hp : p = 0
    · exact ⟨_, .inr (if_pos hp)⟩
    · exact ⟨_, .inl (if_neg hp)⟩
  | bLoop o =>
    by_cases ho : o = 0
    · exact ⟨_, .inr (if_pos ho)⟩
    · exact ⟨_, .inl (if_neg ho)⟩
  | aEnd => exact ⟨_, .inr rfl⟩
  | aWait p => exact ⟨_, .inr rfl⟩
  | bWait n => exact ⟨_, .inr rfl⟩
  | bNoff => exact ⟨_, .inr rfl⟩
  | aDuty p => exact ⟨_, .inl rfl⟩
  | aFade p => exact ⟨_, .inl rfl⟩
  | aInert p => exact ⟨_, .inl rfl⟩
  | aJump p => exact ⟨_, .inl rfl⟩
  | aFlo p => exact ⟨_, .inl rfl⟩
  | aFhi p => exact ⟨_, .inl rfl⟩
  | aVdep depth mode => exact ⟨_, .inl rfl⟩
  | aVrate p => exact ⟨_, .inl rfl⟩
  | aPan p => exact ⟨_, .inl rfl⟩
  | aBend p => exact ⟨_, .inl rfl⟩
  | aVol p => exact ⟨_, .inl rfl⟩
  | aWave p => exact ⟨_, .inl rfl⟩
  | aNote p => exact ⟨_, .inl rfl⟩
  | aNrel p => exact ⟨_, .inl rfl⟩
  | aNop => exact ⟨_, .inl rfl⟩
  | bCtrl p => exact ⟨_, .inl rfl⟩
  | bIncp d => exact ⟨_, .inl rfl⟩
  | bIncw d => exact ⟨_, .inl rfl⟩
  | bSetp v => exact ⟨_, .inl rfl⟩
  | bSetw v => exact ⟨_, .inl rfl⟩
  | bArp semis => exact ⟨_, .inl rfl⟩
  | bVib d r => exact ⟨_, .inl rfl⟩
  | bRsvd => exact ⟨_, .inl rfl⟩
  | bSync v => exact ⟨_, .inl rfl⟩
  | bRing v => exact ⟨_, .inl rfl⟩
  | bExt v => exact ⟨_, .inl rfl⟩

/-- Register writes on the current channel change nothing else. -/
theorem mapCh_onlyCurrent (s : State) (f : Channel → Channel) : OnlyCurrentChannel s (s.mapCh s.cur f) := by
  by_cases h : s.cur < s.voices.length
  · exact
      { cfg := rfl, eng := rfl, faults := rfl, bytes := fun _ => rfl, store := rfl, delay := rfl, count := by simp,
        others := fun c hc => State.mapCh_voice_other s s.cur c f hc
        osc := by rw [State.mapCh_voice_same s s.cur f h]
        plonk := by rw [State.mapCh_voice_same s s.cur f h]
        left := by rw [State.mapCh_voice_same s s.cur f h]
        right := by rw [State.mapCh_voice_same s s.cur f h]
        cur := rfl, runCount := rfl, framesLeft := rfl, out := rfl, cmds := rfl, reply := rfl, snap := rfl, closed := rfl }
  · rw [State.mapCh_absent s s.cur f (by omega)]
    exact
      { cfg := rfl, eng := rfl, faults := rfl, bytes := fun _ => rfl, store := rfl, delay := rfl, count := rfl,
        others := fun _ _ => rfl, osc := rfl, plonk := rfl, left := rfl, right := rfl, cur := rfl, runCount := rfl
        framesLeft := rfl, out := rfl, cmds := rfl, reply := rfl, snap := rfl, closed := rfl }

/-- Where the run stands does not matter to what else may change. -/
theorem OnlyCurrentChannel.withPhase {s t : State} (h : OnlyCurrentChannel s t) (p : Phase) :
    OnlyCurrentChannel s { t with phase := p } :=
  { cfg := h.cfg, eng := h.eng, faults := h.faults, bytes := h.bytes, store := h.store, delay := h.delay
    count := h.count, others := h.others, osc := h.osc, plonk := h.plonk, left := h.left, right := h.right
    cur := h.cur, runCount := h.runCount, framesLeft := h.framesLeft, out := h.out, cmds := h.cmds
    reply := h.reply, snap := h.snap, closed := h.closed }

/-- A rule that continues, on a channel that exists. -/
theorem continueWith_continues {s : State} (f : Channel → Channel) (h : s.cur < s.voices.length) :
    Continues s (s.mapCh s.cur f) (f (s.ch s.cur)) :=
  ⟨mapCh_onlyCurrent s f, rfl, State.mapCh_ch_same s s.cur f h⟩

/-- A rule that stops, on a channel that exists. -/
theorem stopWith_stops {s : State} (f : Channel → Channel) (h : s.cur < s.voices.length) :
    Stops s { s.mapCh s.cur f with phase := .modulate } (f (s.ch s.cur)) :=
  ⟨(mapCh_onlyCurrent s f).withPhase _, rfl, State.mapCh_ch_same s s.cur f h⟩

/-- The fetched bytes have the length of an instruction, so decoding them always gives one. -/
theorem fetchInstr_ok (s : State) : ∃ i, fetchInstr s = .ok i := by
  unfold fetchInstr fetchBytes
  cases s.cfg.dialect with
  | A => exact ⟨_, rfl⟩
  | B => exact ⟨_, rfl⟩

/-- One turn of the run loop: the program is over, or the step limit is reached and RUNAWAY taken, or the fetched
instruction runs. -/
theorem runTurn_cases (s : State) :
    (programOver s = true ∧ runTurn s = s.stopWith endProgram) ∨
    (programOver s = false ∧ s.runCount = s.cfg.stepLimit ∧ runTurn s = .next s.raiseRunaway) ∨
    (programOver s = false ∧ s.runCount ≠ s.cfg.stepLimit ∧ ∃ i, fetchInstr s = .ok i ∧
      runTurn s = exec i { s with runCount := s.runCount + 1 }) := by
  unfold runTurn
  by_cases ho : programOver s = true
  · exact .inl ⟨ho, by rw [if_pos ho]⟩
  · have ho' : programOver s = false := by simpa using ho
    by_cases hl : s.runCount = s.cfg.stepLimit
    · exact .inr (.inl ⟨ho', hl, by rw [if_neg ho, if_pos hl]⟩)
    · obtain ⟨i, hi⟩ := fetchInstr_ok s
      exact .inr (.inr ⟨ho', hl, i, hi, by rw [if_neg ho, if_neg hl, hi]⟩)

/-- A note brought into range is a note. -/
theorem clampNote_range (c : Config) (v : Int) (h1 : 1 ≤ c.noteMax) (h2 : c.noteMax ≤ 254) :
    1 ≤ (clampNote c v).toNat ∧ (clampNote c v).toNat ≤ c.noteMax := by
  unfold clampNote clamp
  rw [BitVec.toNat_ofInt]
  omega

/-- Binding a table: nothing without tables or past the last one, else the record of the rule and the first value if the
table has one (40_interpreter.md R160, R163). -/
theorem bindTable_cases (c : Config) (m : Memory) (k : Kind) (t : BitVec 3) (st : BitVec 4) (x : Channel) :
    ((c.hasTables = false ∨ c.ntab ≤ t.toNat) ∧ bindTable c m k t st x = x) ∨
    (c.hasTables = true ∧ t.toNat < c.ntab ∧
      let bound := setBinding k { on := true, t := t, idx := 0, cnt := stretchOf st, s := stretchOf st } x
      bindTable c m k t st x =
        if 0 < tableLen c m k t.toNat then setKindReg k (tableValue c m k t.toNat 0) bound else bound) := by
  unfold bindTable
  by_cases hh : c.hasTables = true
  · by_cases ht : t.toNat < c.ntab
    · exact .inr ⟨hh, ht, by simp [hh, ht]⟩
    · exact .inl ⟨.inr (by omega), by simp [ht]⟩
  · exact .inl ⟨.inl (by simpa using hh), by simp [hh]⟩

/-- A stretch is never 0 (40_interpreter.md R160). -/
theorem stretchOf_pos (st : BitVec 4) : 0 < (stretchOf st).toNat := by
  unfold stretchOf
  split
  · decide
  · next h =>
    have : st.toNat ≠ 0 := fun e => h (BitVec.eq_of_toNat_eq (by simpa using e))
    omega

/-- A table step writes the binding and the register of its kind, and what it writes depends on these two alone
(40_interpreter.md R161). -/
theorem stepIfBound_cases (c : Config) (m : Memory) (k : Kind) :
    ∃ f : TableBinding → Byte → TableBinding × Byte, ∀ x,
      stepIfBound c m k x =
        setKindReg k (f (binding k x) (kindReg k x)).2 (setBinding k (f (binding k x) (kindReg k x)).1 x) := by
  refine ⟨fun b r =>
    let len := tableLen c m k b.t.toNat
    if b.on then
      if len = 0 then (b, r)
      else if len ≤ b.idx.toNat then ({ b with idx := BitVec.ofNat 8 (len - 1) }, tableValue c m k b.t.toNat (len - 1))
      else if b.idx.toNat + 1 < len then
        if b.cnt - 1 = 0 then ({ b with idx := b.idx + 1, cnt := b.s }, tableValue c m k b.t.toNat (b.idx.toNat + 1))
        else ({ b with cnt := b.cnt - 1 }, r)
      else (b, r)
    else (b, r), fun x => ?_⟩
  have keep : setKindReg k (kindReg k x) (setBinding k (binding k x) x) = x := by cases k <;> rfl
  have keepReg : ∀ b, setKindReg k (kindReg k x) (setBinding k b x) = setBinding k b x := by
    cases k <;> exact fun _ => rfl
  simp only [stepIfBound, tableStep]
  split_ifs
  · exact keep.symm
  · rfl
  · rfl
  · exact (keepReg _).symm
  · exact keep.symm
  · exact keep.symm

/-- A song's next row is loaded, or row 0 when it wraps, or everything stops (43_sequencer.md R247). -/
theorem advanceSong_cases (s : State) :
    let len := songLen s.cfg s.store
    (s.eng.songNext.toNat < len ∧ s.advanceSong = (s.loadSongRow s.eng.songNext.toNat, false)) ∨
    (len ≤ s.eng.songNext.toNat ∧ s.readByte 2 ≠ 0 ∧ 0 < len ∧ s.advanceSong = (s.loadSongRow 0, false)) ∨
    (len ≤ s.eng.songNext.toNat ∧ (s.readByte 2 = 0 ∨ len = 0) ∧ s.advanceSong = (s.stopAll, true)) := by
  intro len
  by_cases h : s.eng.songNext.toNat < len
  · exact .inl ⟨h, if_pos h⟩
  · by_cases g : s.readByte 2 ≠ 0 ∧ 0 < len
    · exact .inr (.inl ⟨Nat.le_of_not_lt h, g.1, g.2, (if_neg h).trans (if_pos g)⟩)
    · refine .inr (.inr ⟨Nat.le_of_not_lt h, ?_, (if_neg h).trans (if_neg g)⟩)
      by_cases z : s.readByte 2 = 0
      · exact .inl z
      · exact .inr (by have : ¬0 < len := fun l => g ⟨z, l⟩; omega)

end Sys2Proof.Machine
end

