-- ==== Sys2Proof/Laws/Channels.lean ====
section
/-! SUPPORT. What every operation on a channel's registers keeps: the ranges of `ChannelOk`. Each lemma is said once for
its operation; a statement about all instructions or all rows cites them. -/

namespace Sys2Proof.Machine

variable {c : Config} {m : Memory} {x : Channel}

/-- A binding that is off. -/
theorem BindingOk.none : BindingOk c bindingOff where
  table h := by cases h
  ticks h := by cases h
  off _ := rfl

/-- A selector that names no wavetable. -/
theorem WaveOk.shape {w : Wave} (h : ∀ n, w ≠ .table n) : WaveOk c w := fun n e => absurd e (h n)

/-- A channel at power-on. -/
theorem ChannelOk.powerOn : ChannelOk c channelPowerOn where
  progNote := Nat.zero_le _
  trigNote := Nat.zero_le _
  instr := Nat.zero_le _
  lastInstr := Nat.zero_le _
  wave := WaveOk.shape nofun
  tbVol := .none
  tbDuty := .none
  tbPan := .none

/-- A stopped channel keeps its waveform. -/
theorem ChannelOk.stop (h : ChannelOk c x) : ChannelOk c (channelStop x) :=
  { ChannelOk.powerOn (c := c) with wave := h.wave }

/-- A note-on with a note and an instrument in range. -/
theorem ChannelOk.trigger (h : ChannelOk c x) {n i : Byte} (hn : n.toNat ≤ c.noteMax) (hi : i.toNat ≤ c.nins) :
    ChannelOk c (trigger c n i x) :=
  { ChannelOk.powerOn (c := c) with progNote := hn, trigNote := hn, instr := hi, lastInstr := h.lastInstr }

/-- The gate is no part of the ranges. -/
theorem ChannelOk.gate (h : ChannelOk c x) (d : Dialect) (v : Bool) : ChannelOk c (setGate d v x) := by
  cases d <;> exact ⟨h.1, h.2, h.3, h.4, h.5, h.6, h.7, h.8⟩

/-- A note-off. -/
theorem ChannelOk.noteOff (h : ChannelOk c x) (d : Dialect) : ChannelOk c (noteOff d x) := by
  have g := h.gate d false
  unfold Sys2Proof.Machine.noteOff
  split <;> exact ⟨g.1, g.2, g.3, g.4, g.5, g.6, g.7, g.8⟩

/-- The end of a program. -/
theorem ChannelOk.endProgram (h : ChannelOk c x) : ChannelOk c (endProgram x) :=
  ⟨h.1, h.2, h.3, h.4, h.5, h.6, h.7, h.8⟩

/-- The cursor is no part of the ranges. -/
theorem ChannelOk.advance (h : ChannelOk c x) : ChannelOk c (advance x) := ⟨h.1, h.2, h.3, h.4, h.5, h.6, h.7, h.8⟩

/-- The bound registers are no part of the ranges. -/
theorem ChannelOk.setKindReg (h : ChannelOk c x) (k : Kind) (b : Byte) : ChannelOk c (setKindReg k b x) := by
  cases k <;> exact ⟨h.1, h.2, h.3, h.4, h.5, h.6, h.7, h.8⟩

/-- A binding that meets its ranges, put in place. -/
theorem ChannelOk.setBinding (h : ChannelOk c x) (k : Kind) {b : TableBinding} (hb : BindingOk c b) :
    ChannelOk c (setBinding k b x) := by
  cases k
  · exact { h with tbVol := hb }
  · exact { h with tbDuty := hb }
  · exact { h with tbPan := hb }

/-- The binding of a kind meets its ranges. -/
theorem ChannelOk.binding (h : ChannelOk c x) (k : Kind) : BindingOk c (binding k x) := by
  cases k
  · exact h.tbVol
  · exact h.tbDuty
  · exact h.tbPan

/-- Binding a table. -/
theorem ChannelOk.bindTable (h : ChannelOk c x) (k : Kind) (t : BitVec 3) (st : BitVec 4) :
    ChannelOk c (bindTable c m k t st x) := by
  rcases bindTable_cases c m k t st x with ⟨_, e⟩ | ⟨_, ht, e⟩
  · rw [e]; exact h
  · have hb : BindingOk c { on := true, t := t, idx := 0, cnt := stretchOf st, s := stretchOf st } :=
      ⟨fun _ => ht, fun _ => ⟨stretchOf_pos st, le_refl _⟩, nofun⟩
    rw [e]
    split
    · exact (h.setBinding k hb).setKindReg k _
    · exact h.setBinding k hb

/-- One table step of a binding that is on. -/
theorem ChannelOk.tableStep (h : ChannelOk c x) (k : Kind) (hon : (Sys2Proof.Machine.binding k x).on = true) :
    ChannelOk c (tableStep c m k x) := by
  have hb := h.binding k
  have ht := hb.table hon
  have hc := hb.ticks hon
  have keep : ∀ b : TableBinding, b.on = true → b.t.toNat < c.ntab → 0 < b.cnt.toNat ∧ b.cnt.toNat ≤ b.s.toNat →
      ChannelOk c (Sys2Proof.Machine.setBinding k b x) :=
    fun b e ht' hc' => h.setBinding k ⟨fun _ => ht', fun _ => hc', fun e' => by rw [e] at e'; cases e'⟩
  unfold Sys2Proof.Machine.tableStep
  simp only
  split
  · exact h
  · split
    · refine ChannelOk.setKindReg ?_ k _
      refine h.setBinding k ⟨fun _ => ht, fun _ => hc, fun e => ?_⟩
      exact absurd hon (by simpa using e)
    · split
      · split
        · refine ChannelOk.setKindReg ?_ k _
          refine h.setBinding k ⟨fun _ => ht, fun _ => ⟨Nat.lt_of_lt_of_le hc.1 hc.2, le_refl _⟩, fun e => ?_⟩
          exact absurd hon (by simpa using e)
        · next hne =>
          have e : ((Sys2Proof.Machine.binding k x).cnt - 1).toNat = (Sys2Proof.Machine.binding k x).cnt.toNat - 1 := by
            have := (Sys2Proof.Machine.binding k x).cnt.isLt
            rw [BitVec.toNat_sub]
            simp
            omega
          have hz : ((Sys2Proof.Machine.binding k x).cnt - 1).toNat ≠ 0 := fun z => hne (BitVec.eq_of_toNat_eq z)
          refine keep _ hon ht ?_
          show 0 < ((Sys2Proof.Machine.binding k x).cnt - 1).toNat ∧
            ((Sys2Proof.Machine.binding k x).cnt - 1).toNat ≤ (Sys2Proof.Machine.binding k x).s.toNat
          omega
      · exact h

/-- Tick step 1 on one channel. -/
theorem ChannelOk.tableSteps (h : ChannelOk c x) : ChannelOk c (tableSteps c m x) := by
  have one : ∀ {y : Channel} (k : Kind), ChannelOk c y → ChannelOk c (stepIfBound c m k y) := by
    intro y k hy
    unfold stepIfBound
    split
    · next hon => exact hy.tableStep k hon
    · exact hy
  exact one .pan (one .duty (one .vol h))

/-- A literal or a table form. -/
theorem ChannelOk.writeLitOrTable (h : ChannelOk c x) (k : Kind) (p : LitOrTable) :
    ChannelOk c (writeLitOrTable c m k p x) := by
  cases p with
  | lit l => exact (h.setKindReg k _).setBinding k .none
  | table t st => exact h.bindTable k t st

/-- A waveform selection. -/
theorem ChannelOk.writeWave (h : ChannelOk c x) (p : WaveSelect) : ChannelOk c (writeWave c p x) := by
  unfold Sys2Proof.Machine.writeWave
  split
  · next w hw =>
    refine { h with wave := fun n e => ?_ }
    cases p with
    | table v =>
      simp only [waveOf] at hw
      split at hw
      · next hv => cases hw; cases (show Wave.table v = .table n from e); exact hv
      · cases hw
    | pulse => cases hw; cases (show Wave.pulse = .table n from e)
    | saw => cases hw; cases (show Wave.saw = .table n from e)
    | tri => cases hw; cases (show Wave.tri = .table n from e)
    | noise => cases hw; cases (show Wave.noise = .table n from e)
    | other b => cases hw
  · exact h

/-- A program's own note, brought into range. -/
theorem ChannelOk.note (h : ChannelOk c x) (v : Int) (h1 : 1 ≤ c.noteMax) (h2 : c.noteMax ≤ 254) :
    ChannelOk c { x with progNote := clampNote c v } :=
  { h with progNote := (clampNote_range c v h1 h2).2 }

/-- What an effect writes. -/
theorem ChannelOk.effectOf (h : ChannelOk c x) (i : Instr) (h1 : 1 ≤ c.noteMax) (h2 : c.noteMax ≤ 254) :
    ChannelOk c (effectOf c m i x) := by
  cases i
  case aEnd => exact h.endProgram.gate c.dialect false
  case aDuty p => exact h.writeLitOrTable .duty p
  case aPan p => exact h.writeLitOrTable .pan p
  case aVol p => exact h.writeLitOrTable .vol p
  case aWave p => exact h.writeWave p
  case aNote p => exact h.note _ h1 h2
  case aNrel p => exact h.note _ h1 h2
  all_goals exact ⟨h.1, h.2, h.3, h.4, h.5, h.6, h.7, h.8⟩

/-- One effect of a row. -/
theorem ChannelOk.execEffect (h : ChannelOk c x) (cmd par : Byte) (h1 : 1 ≤ c.noteMax) (h2 : c.noteMax ≤ 254) :
    ChannelOk c (execEffect c m cmd par x) := by
  unfold Sys2Proof.Machine.execEffect
  split
  · exact h
  · exact h.effectOf _ h1 h2

/-- An instrument number a row gives is in range. -/
theorem rowInstr_le (c : Config) (n : Byte) : (rowInstr c n).toNat ≤ c.nins := by
  unfold rowInstr
  split
  · next h => exact h.2
  · exact Nat.zero_le _

/-- The note part of a row. -/
theorem ChannelOk.processNote (h : ChannelOk c x) (r : PatternRow) (tr : Int) (h1 : 1 ≤ c.noteMax)
    (h2 : c.noteMax ≤ 254) : ChannelOk c (processNote c r tr x) := by
  unfold Sys2Proof.Machine.processNote
  split
  · exact h.noteOff _
  · have hy : ChannelOk c (if rowInstr c r.instr = 0 then x else { x with lastInstr := rowInstr c r.instr }) := by
      split
      · exact h
      · exact { h with lastInstr := rowInstr_le c _ }
    have sounds : ∀ y : Channel, ChannelOk c y → ChannelOk c
        (if r.note = 0 ∨ y.lastInstr = 0 then y else Sys2Proof.Machine.trigger c (clampNote c (r.note.toNat + tr)) y.lastInstr y) := by
      intro y h
      split
      · exact h
      · exact h.trigger (clampNote_range c _ h1 h2).2 h.lastInstr
    exact sounds _ hy

/-- A whole row. -/
theorem ChannelOk.processRow (h : ChannelOk c x) (r : PatternRow) (tr : Int) (h1 : 1 ≤ c.noteMax)
    (h2 : c.noteMax ≤ 254) : ChannelOk c (processRow c m r tr x) :=
  ((h.processNote r tr h1 h2).execEffect _ _ h1 h2).execEffect _ _ h1 h2

/-- Every instruction's writes on its channel keep the ranges. -/
theorem exec_keeps_ranges (i : Instr) (s : State) (h1 : 1 ≤ s.cfg.noteMax) (h2 : s.cfg.noteMax ≤ 254) :
    ∃ f : Channel → Channel, (exec i s = s.continueWith f ∨ exec i s = s.stopWith f) ∧
      ∀ x, ChannelOk s.cfg x → ChannelOk s.cfg (f x) := by
  cases i
  case aLoop p =>
    by_cases hp : p = 0
    · exact ⟨_, .inr (if_pos hp), fun x h => h.endProgram⟩
    · exact ⟨_, .inl (if_neg hp), fun x h => ⟨h.1, h.2, h.3, h.4, h.5, h.6, h.7, h.8⟩⟩
  case bLoop o =>
    by_cases ho : o = 0
    · exact ⟨_, .inr (if_pos ho), fun x h => h.endProgram⟩
    · exact ⟨_, .inl (if_neg ho), fun x h => ⟨h.1, h.2, h.3, h.4, h.5, h.6, h.7, h.8⟩⟩
  case aEnd =>
    exact ⟨_, .inr rfl, fun x h => h.endProgram.gate _ _⟩
  case aWait p => exact ⟨_, .inr rfl, fun x h => ⟨h.1, h.2, h.3, h.4, h.5, h.6, h.7, h.8⟩⟩
  case bWait n => exact ⟨_, .inr rfl, fun x h => ⟨h.1, h.2, h.3, h.4, h.5, h.6, h.7, h.8⟩⟩
  case bNoff => exact ⟨_, .inr rfl, fun x h => ⟨h.1, h.2, h.3, h.4, h.5, h.6, h.7, h.8⟩⟩
  case aDuty p => exact ⟨_, .inl rfl, fun x h => (h.writeLitOrTable .duty p).advance⟩
  case aPan p => exact ⟨_, .inl rfl, fun x h => (h.writeLitOrTable .pan p).advance⟩
  case aVol p => exact ⟨_, .inl rfl, fun x h => (h.writeLitOrTable .vol p).advance⟩
  case aWave p => exact ⟨_, .inl rfl, fun x h => (h.writeWave p).advance⟩
  case aNote p => exact ⟨_, .inl rfl, fun x h => (h.note _ h1 h2).advance⟩
  case aNrel p => exact ⟨_, .inl rfl, fun x h => (h.note _ h1 h2).advance⟩
  case bArp semis => exact ⟨_, .inl rfl, fun x h => (h.note _ h1 h2).advance⟩
  all_goals exact ⟨_, .inl rfl, fun x h => ⟨h.1, h.2, h.3, h.4, h.5, h.6, h.7, h.8⟩⟩

end Sys2Proof.Machine
end

