-- ==== Sys2Proof/Laws/Memory.lean ====
section
/-! SUPPORT. The laws of sparse memory: a read after a write, and the canonical form every operation keeps. -/

namespace Sys2Proof.Machine

variable {w : Nat} {d : Nat → BitVec w} {l : List (Nat × BitVec w)} {a k : Nat} {v : BitVec w}

/-- A key no entry has reads as an unlisted key. -/
theorem sparseGet_unlisted (h : ∀ c ∈ l, c.1 ≠ a) : sparseGet d l a = d a := by
  induction l with
  | nil => rfl
  | cons c rest ih =>
    have hc : c.1 ≠ a := h c (by simp)
    simp [sparseGet, hc, ih fun e he => h e (by simp [he])]

/-- Removing a key's entries leaves every other key's value. -/
theorem sparseGet_filter_other (h : k ≠ a) : sparseGet d (l.filter fun c => c.1 != a) k = sparseGet d l k := by
  induction l with
  | nil => rfl
  | cons c rest ih =>
    by_cases hc : c.1 = a
    · have : c.1 ≠ k := fun e => h (e.symm.trans hc)
      simp [sparseGet, hc, ih, Ne.symm h]
    · simp [sparseGet, hc, ih]

/-- An inserted key reads as its value, if no entry had it. -/
theorem sparseGet_insert_same (h : ∀ c ∈ l, c.1 ≠ a) : sparseGet d (sparseInsert a v l) a = v := by
  induction l with
  | nil => simp [sparseInsert, sparseGet]
  | cons c rest ih =>
    have hc : c.1 ≠ a := h c (by simp)
    by_cases hlt : a < c.1
    · simp [sparseInsert, sparseGet, hlt]
    · simp [sparseInsert, sparseGet, hlt, hc, ih fun e he => h e (by simp [he])]

/-- An insertion leaves every other key's value. -/
theorem sparseGet_insert_other (h : k ≠ a) : sparseGet d (sparseInsert a v l) k = sparseGet d l k := by
  induction l with
  | nil => simp [sparseInsert, sparseGet, Ne.symm h]
  | cons c rest ih =>
    by_cases hlt : a < c.1
    · simp [sparseInsert, sparseGet, hlt, Ne.symm h]
    · simp [sparseInsert, sparseGet, hlt, ih]

/-- Reading the key just written gives the value written. -/
theorem sparseGet_set_same : sparseGet d (sparseSet d l a v) a = v := by
  have hno : ∀ c ∈ l.filter (fun c => c.1 != a), c.1 ≠ a := by simp
  by_cases hv : v = d a
  · rw [sparseSet, if_pos hv, sparseGet_unlisted hno, hv]
  · rw [sparseSet, if_neg hv, sparseGet_insert_same hno]

/-- Reading any other key is not changed by a write. -/
theorem sparseGet_set_other (h : k ≠ a) : sparseGet d (sparseSet d l a v) k = sparseGet d l k := by
  by_cases hv : v = d a
  · rw [sparseSet, if_pos hv, sparseGet_filter_other h]
  · rw [sparseSet, if_neg hv, sparseGet_insert_other h, sparseGet_filter_other h]

/-- The entries after an insertion are the old ones and the new one. -/
theorem mem_sparseInsert {c : Nat × BitVec w} : c ∈ sparseInsert a v l ↔ c = (a, v) ∨ c ∈ l := by
  induction l with
  | nil => simp [sparseInsert]
  | cons e rest ih =>
    by_cases hlt : a < e.1
    · simp [sparseInsert, hlt]
    · simp only [sparseInsert, hlt, if_false, List.mem_cons, ih]
      tauto

/-- An insertion keeps the keys strictly rising, if no entry had the key. -/
theorem sparseInsert_rising (h : l.Pairwise fun x y => x.1 < y.1) (hno : ∀ c ∈ l, c.1 ≠ a) :
    (sparseInsert a v l).Pairwise fun x y => x.1 < y.1 := by
  induction l with
  | nil => simp [sparseInsert]
  | cons e rest ih =>
    rw [List.pairwise_cons] at h
    have he : e.1 ≠ a := hno e (by simp)
    by_cases hlt : a < e.1
    · simp only [sparseInsert, hlt, if_true, List.pairwise_cons]
      refine ⟨?_, h⟩
      intro c hc
      rcases List.mem_cons.1 hc with rfl | hc
      · exact hlt
      · exact hlt.trans (h.1 c hc)
    · simp only [sparseInsert, hlt, if_false, List.pairwise_cons]
      refine ⟨?_, ih h.2 fun c hc => hno c (by simp [hc])⟩
      intro c hc
      rcases mem_sparseInsert.1 hc with rfl | hc
      · show e.1 < a
        omega
      · exact h.1 c hc

/-- A write keeps the canonical form. -/
theorem sparseSet_wf (h : sparseWf d l) : sparseWf d (sparseSet d l a v) := by
  have hrise : (l.filter fun c => c.1 != a).Pairwise fun x y => x.1 < y.1 := h.1.filter _
  have hno : ∀ c ∈ l.filter (fun c => c.1 != a), c.1 ≠ a := by simp
  have hval : ∀ c ∈ l.filter (fun c => c.1 != a), c.2 ≠ d c.1 := fun c hc => h.2 c (List.mem_of_mem_filter hc)
  by_cases hv : v = d a
  · rw [sparseSet, if_pos hv]
    exact ⟨hrise, hval⟩
  · rw [sparseSet, if_neg hv]
    refine ⟨sparseInsert_rising hrise hno, ?_⟩
    intro c hc
    rcases mem_sparseInsert.1 hc with rfl | hc
    · exact hv
    · exact hval c hc

/-- A write lists no key but the one written and those listed before. -/
theorem sparseSet_keys {n : Nat} (h : ∀ c ∈ l, c.1 < n) (ha : a < n) : ∀ c ∈ sparseSet d l a v, c.1 < n := by
  intro c hc
  have hold : ∀ e ∈ l.filter (fun e => e.1 != a), e.1 < n := fun e he => h e (List.mem_of_mem_filter he)
  by_cases hv : v = d a
  · rw [sparseSet, if_pos hv] at hc
    exact hold c hc
  · rw [sparseSet, if_neg hv] at hc
    rcases mem_sparseInsert.1 hc with rfl | hc
    · exact ha
    · exact hold c hc

/-- The store keeps its canonical form under a host write. -/
theorem Memory.write_wf {m : Memory} (h : m.wf) (addr : Nat) (b : Byte) : (m.write addr b).wf := sparseSet_wf h

@[simp] theorem Memory.read_write_same (m : Memory) (addr : Nat) (b : Byte) : (m.write addr b).read addr = b :=
  sparseGet_set_same

theorem Memory.read_write_other (m : Memory) {addr other : Nat} (b : Byte) (h : other ≠ addr) :
    (m.write addr b).read other = m.read other := sparseGet_set_other h

/-- A store write inside the store keeps what the store must be. -/
theorem StoreOk.write {c : Config} {m : Memory} (h : StoreOk c m) {addr : Nat} (b : Byte) (ha : addr < storeSize c) :
    StoreOk c (m.write addr b) := ⟨m.write_wf h.form addr b, sparseSet_keys h.inside ha⟩

/-- The empty list, the new-song image, is in canonical form. -/
theorem StoreOk.newSong (c : Config) : StoreOk c [] := ⟨⟨List.Pairwise.nil, by simp⟩, by simp⟩

/-- A field of record `i` of `n` records of `a` bytes lies inside the region of the records. -/
theorem record_inside {i n a b : Nat} (hi : i < n) (hb : b < a) : i * a + b < n * a := by
  have := Nat.mul_le_mul_right a (show i + 1 ≤ n from hi)
  rw [Nat.add_mul, one_mul] at this
  omega

end Sys2Proof.Machine
end

