-- ==== Sys2Proof/Laws/PerInstr.lean ====
section
/-! SUPPORT. What holds of every instruction as syntax, one lemma for each constructor. -/

namespace Sys2Proof.Laws.EncodeLength

/-- The encoding of an instruction has its dialect's width (30_encoding.md R110). -/
def Statement (i : Instr) : Prop := (encode i).length = instrWidth i.dialect

theorem aEnd : Statement .aEnd := rfl
theorem aDuty (p) : Statement (.aDuty p) := rfl
theorem aFade (p) : Statement (.aFade p) := rfl
theorem aInert (p) : Statement (.aInert p) := rfl
theorem aJump (p) : Statement (.aJump p) := rfl
theorem aFlo (p) : Statement (.aFlo p) := rfl
theorem aFhi (p) : Statement (.aFhi p) := rfl
theorem aVdep (depth mode) : Statement (.aVdep depth mode) := rfl
theorem aVrate (p) : Statement (.aVrate p) := rfl
theorem aPan (p) : Statement (.aPan p) := rfl
theorem aBend (p) : Statement (.aBend p) := rfl
theorem aWait (p) : Statement (.aWait p) := rfl
theorem aVol (p) : Statement (.aVol p) := rfl
theorem aLoop (p) : Statement (.aLoop p) := rfl
theorem aWave (p) : Statement (.aWave p) := rfl
theorem aNote (p) : Statement (.aNote p) := rfl
theorem aNrel (p) : Statement (.aNrel p) := rfl
theorem aNop : Statement .aNop := rfl
theorem bCtrl (p) : Statement (.bCtrl p) := rfl
theorem bIncp (d) : Statement (.bIncp d) := rfl
theorem bIncw (d) : Statement (.bIncw d) := rfl
theorem bSetp (v) : Statement (.bSetp v) := rfl
theorem bSetw (v) : Statement (.bSetw v) := rfl
theorem bArp (semis) : Statement (.bArp semis) := rfl
theorem bVib (d r) : Statement (.bVib d r) := rfl
theorem bWait (n) : Statement (.bWait n) := rfl
theorem bLoop (o) : Statement (.bLoop o) := rfl
theorem bRsvd : Statement .bRsvd := rfl
theorem bSync (v) : Statement (.bSync v) := rfl
theorem bRing (v) : Statement (.bRing v) := rfl
theorem bExt (v) : Statement (.bExt v) := rfl
theorem bNoff : Statement .bNoff := rfl

end Sys2Proof.Laws.EncodeLength
end

