-- ==== Sys2Proof/Laws/Voices.lean ====
section
/-! SUPPORT. What the tick's modulation, the oscillator clocks and the synthesizer keep of every channel: the ranges of
`VoiceOk`, said once for each operation; and what an accumulator and a history cell hold of a value that fits. -/

namespace Sys2Proof.Machine
variable {c : Config} {m : Memory}

/-- An integer in the range of `w` bits is kept by the register. -/
theorem ofInt_toNat {w : Nat} (v : Int) (h0 : 0 ≤ v) (h1 : v < 2 ^ w) : ((BitVec.ofInt w v).toNat : Int) = v := by
  rw [BitVec.toNat_ofInt, Int.toNat_of_nonneg (Int.emod_nonneg _ (by positivity))]
  exact Int.emod_eq_of_lt h0 (by exact_mod_cast h1)

/-- A clamp stays between its bounds. -/
theorem clamp_range (v lo hi : Int) (h : lo ≤ hi) : lo ≤ clamp v lo hi ∧ clamp v lo hi ≤ hi := by
  unfold clamp; omega

/-- A slewed step stays in the range of steps (44_oscillator.md R290). -/
theorem slew_range (i a t : Int) (hi : 0 ≤ i) (ha : 0 ≤ a ∧ a ≤ maxStep) (ht : 0 ≤ t ∧ t ≤ maxStep) :
    0 ≤ slew i a t ∧ slew i a t ≤ maxStep := by
  unfold slew
  simp only
  split
  · exact ht
  · rcases lt_trichotomy (t - a) 0 with h | h | h
    · rw [Int.sign_eq_neg_one_of_neg h]; omega
    · omega
    · rw [Int.sign_eq_one_of_pos h]; omega

/-- A step in range is kept in range by its register. -/
theorem step_range {v : Int} (h0 : 0 ≤ v) (h1 : v ≤ maxStep) : (BitVec.ofInt 32 v).toNat ≤ 0x7FFFFFFF := by
  have : ((BitVec.ofInt 32 v).toNat : Int) = v := ofInt_toNat v h0 (by unfold maxStep at h1; omega)
  unfold maxStep at h1; omega

/-- The oscillator file at power-on. -/
theorem OscOk.powerOn : OscOk (oscPowerOn c) := ⟨by simp [oscPowerOn], by simp [oscPowerOn], by simp [oscPowerOn]⟩

/-- The modulation of dialect A keeps the ranges. -/
theorem VoiceOk.modulateA {v : Voice} (h : VoiceOk c v) : VoiceOk c (modulateA c v) := by
  obtain ⟨⟨a1,a2,a3,a4,a5,a6,a7,a8⟩, ⟨b1,b2,b3⟩, l, r⟩ := h
  have hm : maxStep = 0x7FFFFFFF := rfl
  have hs := slew_range (bendPitch (fadeVolume v.ch)).inertia.toNat v.osc.curStep.toNat
    (pitchTarget c (bendPitch (fadeVolume v.ch))) (by omega) ⟨by omega, by omega⟩ (clamp_range _ 0 maxStep (by decide))
  unfold Sys2Proof.Machine.modulateA
  simp only
  refine ⟨⟨a1,a2,a3,a4,a5,a6,a7,a8⟩, ?_, l, r⟩
  split
  · exact ⟨step_range hs.1 hs.2, step_range hs.1 hs.2, b3⟩
  · have := clamp_range ((slew (bendPitch (fadeVolume v.ch)).inertia.toNat v.osc.curStep.toNat
      (pitchTarget c (bendPitch (fadeVolume v.ch)))) + vibOffset (sineAt c (bendPitch (fadeVolume v.ch)).vibPhase)
        (bendPitch (fadeVolume v.ch)).vibDepth.toNat (slew (bendPitch (fadeVolume v.ch)).inertia.toNat v.osc.curStep.toNat
      (pitchTarget c (bendPitch (fadeVolume v.ch))))) 0 maxStep (by decide)
    exact ⟨step_range hs.1 hs.2, step_range this.1 this.2, b3⟩

/-- The modulation of dialect B keeps the ranges. -/
theorem VoiceOk.modulateB {v : Voice} (h : VoiceOk c v) : VoiceOk c (modulateB c v) := by
  obtain ⟨⟨a1,a2,a3,a4,a5,a6,a7,a8⟩, ⟨b1,b2,b3⟩, l, r⟩ := h
  refine ⟨⟨a1,a2,a3,a4,a5,a6,a7,a8⟩, ⟨b1, ?_, ?_⟩, l, r⟩
  · show (BitVec.setWidth 32 (frequencyB c _) <<< 8).toNat ≤ _
    generalize frequencyB c _ = f
    have := f.isLt
    rw [BitVec.toNat_shiftLeft, BitVec.toNat_setWidth, Nat.shiftLeft_eq]
    omega
  · show (BitVec.extractLsb' 8 8 (BitVec.setWidth 16 _)).toNat < 16
    generalize (stepEnvelopes _).pw = p
    have := p.isLt
    rw [BitVec.extractLsb'_toNat, BitVec.toNat_setWidth, Nat.shiftRight_eq_div_pow]
    omega

/-- The step at `modulate`: a note above NOTE_MAX faults (log entry 7), and any other has the dialect's modulation of the
current channel, then the next channel's run or the snapshot (43_sequencer.md R240). -/
theorem modulateStep_cases (s : State) :
    (s.cfg.noteMax < (s.ch s.cur).progNote.toNat ∧ modulateStep s = .fault .noteRead) ∨
    ((s.ch s.cur).progNote.toNat ≤ s.cfg.noteMax ∧ ∃ t, modulateStep s = .next t ∧
      t = { s with voices := s.voices.modify s.cur (modulateVoice s.cfg), cur := t.cur, phase := t.phase } ∧
      ((s.cur + 1 < s.cfg.nch ∧ t.cur = s.cur + 1 ∧ t.phase = .run) ∨
        (s.cfg.nch ≤ s.cur + 1 ∧ t.cur = s.cur ∧ t.phase = .snapshot))) := by
  unfold modulateStep
  by_cases h : s.cfg.noteMax < (s.ch s.cur).progNote.toNat
  · exact .inl ⟨h, if_pos h⟩
  · refine .inr ⟨by omega, ?_⟩
    rw [if_neg h]
    by_cases g : s.cur + 1 < s.cfg.nch
    · exact ⟨_, if_pos g, rfl, .inl ⟨g, rfl, rfl⟩⟩
    · exact ⟨_, if_neg g, rfl, .inr ⟨by omega, rfl, rfl⟩⟩

/-- A wavetable's level: 128 for an empty one, else the byte at the scaled phase (44_oscillator.md R304). -/
theorem waveLevel_cases (w : Nat) (ph : BitVec 32) :
    (waveLen c m w = 0 ∧ waveLevel c m w ph = 128) ∨
    (waveLen c m w ≠ 0 ∧
      waveLevel c m w ph = m.read (waveAddr c w + 1 + (ph.toNat / 2 ^ 24) * waveLen c m w / 256)) := by
  have top : (phaseTop ph).toNat = ph.toNat / 2 ^ 24 := by
    unfold phaseTop
    rw [BitVec.extractLsb'_toNat, Nat.shiftRight_eq_div_pow]
    have := ph.isLt
    omega
  unfold waveLevel
  rw [top]
  by_cases h : waveLen c m w = 0
  · exact .inl ⟨h, if_pos h⟩
  · exact .inr ⟨h, if_neg h⟩

/-- The modulation keeps the ranges. -/
theorem VoiceOk.modulate {v : Voice} (h : VoiceOk c v) : VoiceOk c (modulateVoice c v) := by
  unfold modulateVoice; split
  · exact h.modulateA
  · exact h.modulateB

/-- One clock keeps the ranges of the oscillator file. -/
theorem OscOk.clock {v : Voice} (h : OscOk v.osc) : OscOk (clockOsc c v) := by
  unfold clockOsc; split
  · exact ⟨h.1, h.2, h.3⟩
  · exact ⟨h.1, h.2, h.3⟩

/-- Hard sync keeps the ranges. -/
theorem VoiceOk.sync {v : Voice} (vs : List Voice) (i : Nat) (h : VoiceOk c v) : VoiceOk c (syncVoice c vs i v) := by
  unfold syncVoice; split
  · exact ⟨h.1, ⟨h.2.1, h.2.2, h.2.3⟩, h.3, h.4⟩
  · exact h

/-- A clock keeps the number of channels. -/
theorem clockVoices_length (vs : List Voice) : (clockVoices c vs).length = vs.length := by simp [clockVoices]

/-- One clock of every channel keeps the ranges. -/
theorem VoicesOk.clock {vs : List Voice} (h : ∀ v ∈ vs, VoiceOk c v) : ∀ v ∈ clockVoices c vs, VoiceOk c v := by
  intro v hv
  unfold clockVoices at hv
  obtain ⟨i, hi, rfl⟩ := List.mem_mapIdx.1 hv
  refine VoiceOk.sync _ _ ?_
  rw [List.getElem_map]
  have hm : vs[i]'(by simpa using hi) ∈ vs := List.getElem_mem _
  exact ⟨(h _ hm).1, (h _ hm).2.clock, (h _ hm).3, (h _ hm).4⟩

/-- One clock of edge synthesis keeps the number of cells. -/
theorem SideOk.edgeClock {d : Side} {row : List Int} (a : Int) (h : SideOk c d) (hr : c.synthMode = .edge → row.length = c.blepTaps) :
    SideOk c (edgeClock row a d) := by
  unfold Sys2Proof.Machine.edgeClock
  split
  · exact h
  · refine ⟨?_, h.firh, h.firl⟩
    have hb := h.blep
    by_cases he : c.synthMode = .edge
    · simp only [List.length_zipWith, hb, if_pos he, hr he, min_self]
    · simp only [List.length_zipWith, hb, if_neg he, Nat.zero_min]

/-- The end of a frame of edge synthesis keeps the number of cells. -/
theorem SideOk.edgeFlush {d : Side} (h : SideOk c d) : SideOk c (edgeFlush d).2 := by
  refine ⟨?_, h.firh, h.firl⟩
  show ((d.blep ++ [0]).drop 1).length = _
  have hb := h.blep
  simp [hb]

/-- A filter stage keeps the length of its history. -/
theorem firStage_length (k : List Int) (hist : List (BitVec 32)) (v : Int) : (firStage k hist v).2.length = hist.length := by
  simp [firStage]

/-- The filter bank keeps the number of cells. -/
theorem SideOk.filter {d : Side} (x : Channel) (v : Int) (h : SideOk c d) : SideOk c (filterSide c x d v).2 := by
  unfold filterSide; split
  · exact ⟨h.blep, by simpa [firStage_length] using h.firh, by simpa [firStage_length] using h.firl⟩
  · exact h

/-- A value that fits its accumulator is kept (45_synth.md R326). -/
theorem toAcc_toInt {v : Int} (h : fitsSigned 64 v = true) : (toAcc v).toInt = v := by
  unfold toAcc
  rw [if_pos h]
  simp only [fitsSigned, Bool.and_eq_true, decide_eq_true_eq] at h
  rw [BitVec.toInt_ofInt, Int.bmod_def]
  omega

/-- A value that fits its history cell is kept (45_synth.md R341). -/
theorem toHist_toInt {v : Int} (h : fitsSigned 32 v = true) : (toHist v).toInt = v := by
  unfold toHist
  rw [if_pos h]
  simp only [fitsSigned, Bool.and_eq_true, decide_eq_true_eq] at h
  rw [BitVec.toInt_ofInt, Int.bmod_def]
  omega

/-- The rows of the step kernel have the taps of the configuration. -/
theorem blepRow_length (hc : configOk c = true) {k : Nat} (hk : k < c.oversample) :
    (c.blepK.getD k []).length = c.blepTaps := by
  simp only [configOk, blepOk, Bool.and_eq_true, beq_iff_eq, List.all_eq_true] at hc
  obtain ⟨⟨⟨-, -⟩, hl, ha⟩, -⟩ := hc
  have : k < c.blepK.length := by omega
  rw [List.getD_eq_getElem _ _ this]
  exact (ha _ (List.getElem_mem this)).1.1

/-- One clock of edge synthesis on every channel keeps the ranges. -/
theorem VoicesOk.edgeTurn {vs : List Voice} {k : Nat} (h : ∀ v ∈ vs, VoiceOk c v)
    (hr : (c.blepK.getD k []).length = c.blepTaps) : ∀ v ∈ edgeTurn c m vs k, VoiceOk c v := by
  intro v hv
  unfold Sys2Proof.Machine.edgeTurn at hv
  obtain ⟨i, hi, rfl⟩ := List.getElem_of_mem hv
  rw [List.getElem_zipWith]
  have hm := VoicesOk.clock h _ (List.getElem_mem (l := clockVoices c vs) (n := i) (by simp at hi; omega))
  exact ⟨hm.1, hm.2, hm.3.edgeClock _ fun _ => hr, hm.4.edgeClock _ fun _ => hr⟩

/-- One clock of edge synthesis keeps the number of channels. -/
theorem edgeTurn_length (vs : List Voice) (k : Nat) : (edgeTurn c m vs k).length = vs.length := by
  simp [edgeTurn, clockVoices_length, clockLevels]

/-- The clocks of a frame keep the ranges and the number of channels. -/
theorem edgeClocks_keeps (hc : configOk c = true) {vs : List Voice} (h : ∀ v ∈ vs, VoiceOk c v) :
    (∀ v ∈ edgeClocks c m vs, VoiceOk c v) ∧ (edgeClocks c m vs).length = vs.length := by
  unfold edgeClocks
  suffices H : ∀ l : List Nat, (∀ k ∈ l, k < c.oversample) → ∀ us : List Voice, (∀ v ∈ us, VoiceOk c v) →
      (∀ v ∈ l.foldl (Sys2Proof.Machine.edgeTurn c m) us, VoiceOk c v) ∧
        (l.foldl (Sys2Proof.Machine.edgeTurn c m) us).length = us.length from
    H _ (by simp) _ h
  intro l
  induction l with
  | nil => exact fun _ us hu => ⟨hu, rfl⟩
  | cons k rest ih =>
    intro hk us hu
    obtain ⟨h1, h2⟩ := ih (fun j hj => hk j (by simp [hj])) (Sys2Proof.Machine.edgeTurn c m us k)
      (VoicesOk.edgeTurn hu (blepRow_length hc (hk k (by simp))))
    exact ⟨h1, h2.trans (edgeTurn_length us k)⟩

/-- The channels make one contribution each. -/
theorem renderVoices_length (vs : List Voice) : (renderVoices c m vs).length = vs.length := by
  unfold renderVoices
  split
  · simp [clockVoices_length, clockLevels]
  · have fold : ∀ (l : List Nat) (us : List Voice),
        (l.foldl (Sys2Proof.Machine.edgeTurn c m) us).length = us.length := by
      intro l
      induction l with
      | nil => exact fun _ => rfl
      | cons k rest ih => exact fun us => (ih _).trans (edgeTurn_length us k)
    rw [List.length_map]
    exact fold _ _

/-- A frame keeps every channel's ranges and the number of channels. -/
theorem renderFrame_keeps {s : State} (hc : configOk s.cfg = true) (h : ∀ v ∈ s.voices, VoiceOk s.cfg v) :
    (∀ v ∈ s.renderFrame.2.voices, VoiceOk s.cfg v) ∧ s.renderFrame.2.voices.length = s.voices.length := by
  have key : (∀ x ∈ renderVoices s.cfg s.store s.voices, VoiceOk s.cfg x.voice) ∧
      (renderVoices s.cfg s.store s.voices).length = s.voices.length := by
    refine ⟨?_, renderVoices_length _⟩
    unfold renderVoices
    split
    · intro x hx
      obtain ⟨i, hi, rfl⟩ := List.getElem_of_mem hx
      rw [List.getElem_zipWith]
      exact VoicesOk.clock h _ (List.getElem_mem (l := clockVoices s.cfg s.voices) (n := i) (by simp at hi; omega))
    · obtain ⟨h1, -⟩ := edgeClocks_keeps (m := s.store) hc h
      intro x hx
      obtain ⟨v, hv, rfl⟩ := List.mem_map.1 hx
      exact ⟨(h1 v hv).1, (h1 v hv).2, (h1 v hv).3.edgeFlush, (h1 v hv).4.edgeFlush⟩
  refine ⟨?_, by simpa [State.renderFrame] using key.2⟩
  intro v hv
  simp only [State.renderFrame, List.map_map, List.mem_map] at hv
  obtain ⟨x, hx, rfl⟩ := hv
  have := key.1 x hx
  exact ⟨this.1, this.2, this.3.filter _ _, this.4.filter _ _⟩

/-- The delay keeps its canonical form. -/
theorem DelayOk.turn {d : Delay} (h : DelayOk c d) (l r : Int) (hd : 0 < c.dlen) : DelayOk c (delayTurn c d l r).2 :=
  { left := sparseSet_wf h.left, right := sparseSet_wf h.right
    leftInside := sparseSet_keys h.leftInside h.ptr, rightInside := sparseSet_keys h.rightInside h.ptr
    ptr := Nat.mod_lt _ hd }

/-- The delay lines at power-on. -/
theorem DelayOk.powerOn (hd : 0 < c.dlen) : DelayOk c delayPowerOn :=
  ⟨⟨.nil, by simp [delayPowerOn]⟩, ⟨.nil, by simp [delayPowerOn]⟩, by simp [delayPowerOn], by simp [delayPowerOn], hd⟩

/-- The synthesizer state at power-on. -/
theorem SideOk.powerOn : SideOk c (sidePowerOn c) := by
  constructor <;> simp only [sidePowerOn] <;> split <;> simp

/-- One channel at power-on. -/
theorem VoiceOk.powerOn : VoiceOk c (voicePowerOn c) := ⟨ChannelOk.powerOn, OscOk.powerOn, SideOk.powerOn, SideOk.powerOn⟩

/-- A live-preview event keeps the ranges. -/
theorem VoiceOk.plonk {v : Voice} (h : VoiceOk c v) : VoiceOk c (applyPlonk c v) := by
  unfold applyPlonk
  split
  · exact h
  · exact ⟨h.1.noteOff _, h.2, h.3, h.4⟩
  · split
    · next hr => exact ⟨h.1.trigger hr.2.1 hr.2.2.2, h.2, h.3, h.4⟩
    · exact ⟨h.1, h.2, h.3, h.4⟩

/-- What the constraints say of the counts that the invariant needs. -/
theorem configOk_counts (hc : configOk c = true) :
    1 ≤ c.nch ∧ c.nch ≤ 16 ∧ 1 ≤ c.noteMax ∧ c.noteMax ≤ 254 ∧ 1 ≤ c.patLen ∧ c.patLen ≤ 256 ∧ 1 ≤ c.tickHz ∧
    c.tickHz ≤ c.fs ∧ c.fs ≤ 1048576 ∧ 1 ≤ c.dlen ∧ c.songCap ≤ 256 ∧ c.tabCap ≤ 255 ∧ c.nins ≤ 255 := by
  simp only [configOk, countsOk, inRange, Bool.and_eq_true, decide_eq_true_eq] at hc
  omega

end Sys2Proof.Machine
end

