-- ==== Sys2Proof/Machine/Assembly.lean ====
section
/-! DEFINITION. The assembly spelling of an instruction (30_encoding.md R123): a mnemonic and its operand. Nothing in the
machine reads it. -/

namespace Sys2Proof.Machine

/-- An LT operand (30_encoding.md R123). -/
def asmLT : LitOrTable → String
  | .lit l => toString l.toNat
  | .table t st => "tab=" ++ toString t.toNat ++ ",s=" ++ toString st.toNat

/-- A WS operand; a byte of the no-op form is spelt as its number (30_encoding.md R123). -/
def asmWS : WaveSelect → String
  | .pulse => "pulse"
  | .saw => "saw"
  | .tri => "tri"
  | .noise => "noise"
  | .table w => "wt:" ++ toString w.toNat
  | .other p => toString p.toNat

/-- A B.CTRL operand: the names of the bits set, joined by a bar, or 0 (30_encoding.md R123). -/
def asmControl (p : BitVec 6) : String :=
  let names := ["gate", "test", "tri", "saw", "pulse", "noise"]
  let set := (names.zipIdx.filter fun n => p.getLsbD n.2).map (·.1)
  if set.isEmpty then "0" else "|".intercalate set

/-- A one-bit operand. -/
def asmBit (v : Bool) : String := if v then "1" else "0"

/-- The assembly line of an instruction (30_encoding.md R112, R116, R123). -/
def asmInstr : Instr → String
  | .aEnd => "A.END"
  | .aDuty p => "A.DUTY " ++ asmLT p
  | .aFade p => "A.FADE " ++ toString p.toInt
  | .aInert p => "A.INERT " ++ toString p.toNat
  | .aJump p => "A.JUMP " ++ toString p.toNat
  | .aFlo p => "A.FLO " ++ toString p.toNat
  | .aFhi p => "A.FHI " ++ toString p.toNat
  | .aVdep depth mode => "A.VDEP " ++ (if mode then "duty:" else "") ++ toString depth.toNat
  | .aVrate p => "A.VRATE " ++ toString p.toNat
  | .aPan p => "A.PAN " ++ asmLT p
  | .aBend p => "A.BEND " ++ toString p.toInt
  | .aWait p => "A.WAIT " ++ toString p.toNat
  | .aVol p => "A.VOL " ++ asmLT p
  | .aLoop p => "A.LOOP " ++ toString p.toNat
  | .aWave p => "A.WAVE " ++ asmWS p
  | .aNote p => "A.NOTE " ++ toString p.toNat
  | .aNrel p => "A.NREL " ++ toString p.toInt
  | .aNop => "A.NOP"
  | .bCtrl p => "B.CTRL " ++ asmControl p
  | .bIncp d => "B.INCP " ++ toString d.toInt
  | .bIncw d => "B.INCW " ++ toString d.toInt
  | .bSetp v => "B.SETP " ++ toString v.toInt
  | .bSetw v => "B.SETW " ++ toString v.toNat
  | .bArp semis => "B.ARP " ++ toString semis.toInt
  | .bVib d r => "B.VIB " ++ toString d.toNat ++ "," ++ toString r.toNat
  | .bWait n => "B.WAIT " ++ toString n.toNat
  | .bLoop o => "B.LOOP " ++ toString o.toNat
  | .bRsvd => "B.RSVD"
  | .bSync v => "B.SYNC " ++ asmBit v
  | .bRing v => "B.RING " ++ asmBit v
  | .bExt v => "B.EXT " ++ asmBit v
  | .bNoff => "B.NOFF"

end Sys2Proof.Machine
end

