-- ==== Sys2Proof/Tests/Slice0.lean ====
section
/-! SUPPORT. Small tests of the model: the well-formedness check, one word for every instruction written out from the
encoding tables, one or two steps for each instruction with the results of 95_test_vectors.md part 2 (the vector's name
stands in the comment), and a few results of the tick, the oscillators and the synthesizer. -/

namespace Sys2Proof.Tests

open Sys2Proof Sys2Proof.Machine

/-! ## Well-formedness and decoding -/

/-- 30_encoding.md R113: the no-op form of the waveform selector stands for no shape and no wavetable byte. -/
theorem test_wf_refuses :
    (Instr.aWave (.other 3#8)).wf = false ∧ (Instr.aWave (.other 0x80#8)).wf = false ∧
    (Instr.aWave (.other 4#8)).wf = true ∧ (Instr.aWave (.other 0x7F#8)).wf = true := by decide

/-- 95_test_vectors.md 2.1 and the map of 30_encoding.md R112: one written word for every tag of dialect A. -/
theorem test_decode_words_A :
    decode .A [0x45#8, 0x00#8] = .ok .aEnd ∧ decode .A [0x44#8, 0x40#8] = .ok (.aDuty (.lit 64#7)) ∧
    decode .A [0x46#8, 0xF0#8] = .ok (.aFade 0xF0#8) ∧ decode .A [0x49#8, 0x01#8] = .ok (.aInert 1#8) ∧
    decode .A [0x4A#8, 0x02#8] = .ok (.aJump 2#8) ∧ decode .A [0x4C#8, 0x20#8] = .ok (.aFlo 0x20#8) ∧
    decode .A [0x48#8, 0x80#8] = .ok (.aFhi 0x80#8) ∧ decode .A [0x59#8, 0x8A#8] = .ok (.aVdep 10#7 true) ∧
    decode .A [0x5A#8, 0x08#8] = .ok (.aVrate 8#8) ∧ decode .A [0x50#8, 0xF1#8] = .ok (.aPan (.table 7#3 1#4)) ∧
    decode .A [0x42#8, 0xFE#8] = .ok (.aBend 0xFE#8) ∧ decode .A [0x57#8, 0xFF#8] = .ok .aHold ∧
    decode .A [0x56#8, 0xA3#8] = .ok (.aVol (.table 2#3 3#4)) ∧ decode .A [0x47#8, 0x00#8] = .ok .aStop ∧
    decode .A [0x53#8, 0x83#8] = .ok (.aWave (.table 3#7)) ∧ decode .A [0x4E#8, 0x3A#8] = .ok (.aNote 58#8) ∧
    decode .A [0x41#8, 0xC4#8] = .ok (.aNrel 0xC4#8) ∧ decode .A [0x76#8, 0x0F#8] = .ok .aNop := by decide

/-- 95_test_vectors.md 2.1: one written byte for every prefix of dialect B, the class boundaries among them. -/
theorem test_decode_words_B :
    decode .B [0x11#8] = .ok (.bCtrl 0b010001#6) ∧ decode .B [0x3F#8] = .ok (.bCtrl 0b111111#6) ∧
    decode .B [0x40#8] = .ok (.bIncp 0#4) ∧ decode .B [0x48#8] = .ok (.bIncp 8#4) ∧
    decode .B [0x5F#8] = .ok (.bIncw 15#4) ∧ decode .B [0x68#8] = .ok (.bSetp 8#4) ∧
    decode .B [0x7F#8] = .ok (.bSetw 15#4) ∧ decode .B [0x80#8] = .ok (.bArp 0#5) ∧
    decode .B [0x9F#8] = .ok (.bArp 31#5) ∧ decode .B [0xB1#8] = .ok (.bVib 4#3 1#2) ∧
    decode .B [0xCF#8] = .ok (.bWait 15#4) ∧ decode .B [0xD3#8] = .ok (.bLoop 3#4) ∧
    decode .B [0xD0#8] = .ok .bStop ∧ decode .B [0xE7#8] = .ok .bRsvd ∧ decode .B [0xF1#8] = .ok (.bSync true) ∧
    decode .B [0xF3#8] = .ok (.bSync true) ∧ decode .B [0xF6#8] = .ok (.bRing false) ∧
    decode .B [0xF9#8] = .ok (.bExt true) ∧ decode .B [0xFC#8] = .ok .bHold ∧ decode .B [0xFF#8] = .ok .bNoff := by
  decide

/-- 30_encoding.md R110: bytes of another number are refused by name. -/
theorem test_decode_refuses :
    decode .A [0x45#8] = .error (.wrongLength 1) ∧ decode .B [] = .error (.wrongLength 0) := by decide

/-- 30_encoding.md R123, R124, the spellings of 95_test_vectors.md 2.1. -/
theorem test_assembly :
    asmInstr (.aVol (.table 2#3 3#4)) = "A.VOL tab=2,s=3" ∧ asmInstr (.aFade 0xF0#8) = "A.FADE -16" ∧
    asmInstr (.aVdep 10#7 true) = "A.VDEP duty:10" ∧ asmInstr (.bVib 4#3 1#2) = "B.VIB 4,1" := by decide

/-- The numbering of spec/opcode_table.json: the tag of a dialect A word is its high byte. -/
theorem test_table_word :
    decodeTableWord 16 0x560F = some (.aVol (.lit 15#7)) ∧ decodeTableWord 8 0xD3 = some (.bLoop 3#4) := by decide

/-! ## One step of each instruction -/

/-- A channel right after a note-on of note 49 with instrument 1 (43_sequencer.md R255). -/
def struck (c : Config) : Channel := trigger c 49 1 channelPowerOn

/-- A state at a fetch of channel 0, whose registers are given. -/
def standing (c : Config) (x : Channel) : State :=
  { State.powerOn c with
    voices := (State.powerOn c).voices.modify 0 fun v => { v with ch := x }, phase := .fetch, framesLeft := 1 }

/-- Channel 0 after the instruction that the bytes decode to. -/
def after (c : Config) (bytes : List Byte) (x : Channel) : Option Channel :=
  match decode c.dialect bytes with
  | .ok i =>
    match exec i (standing c x) with
    | .next t => some (t.ch 0)
    | .fault _ => none
    | .refused _ => none
  | .error _ => none

/-- Where the run stands after the instruction. -/
def phaseAfter (c : Config) (bytes : List Byte) (x : Channel) : Option Phase :=
  match decode c.dialect bytes with
  | .ok i =>
    match exec i (standing c x) with
    | .next t => some t.phase
    | .fault _ => none
    | .refused _ => none
  | .error _ => none

/-- A dialect A run of one instruction from the trigger values. -/
def ranA (tag p : Byte) : Option Channel := after pSimple [tag, p] (struck pSimple)

/-- A dialect B run of one instruction from the trigger values. -/
def ranB (b : Byte) : Option Channel := after pReg [b] (struck pReg)

/-- Vector A1. -/
theorem test_aEnd :
    (ranA 0x45 0).map (fun x => (x.vol, x.gateBit, x.active, x.cursor)) = some (0xF0#8, false, false, 0#8) ∧
    phaseAfter pSimple [0x45, 0] (struck pSimple) = some .modulate := by decide

/-- Vectors A2, A4. -/
theorem test_aDuty :
    (ranA 0x44 0x40).map (fun x => (x.duty, x.tbDuty.on)) = some (0x80#8, false) ∧
    (ranA 0x44 0x7F).map (·.duty) = some 254#8 := by decide

/-- Vectors A5, A7. -/
theorem test_aFade :
    (ranA 0x46 0xF0).map (fun x => (fadeVolume x).vol) = some 0xE0#8 ∧
    (ranA 0x46 0x80).map (·.fade.toInt) = some (-128) := by decide

/-- Vectors A8, A9. -/
theorem test_aInert :
    (ranA 0x49 1).map (·.inertia) = some 4096#32 ∧ (ranA 0x49 0).map (·.inertia) = some 0#32 := by decide

/-- Vector A10. -/
theorem test_aJump :
    (ranA 0x4A 2).map (fun x => (x.cursor, x.vol)) = some (2#8, 0xF0#8) ∧
    phaseAfter pSimple [0x4A, 2] (struck pSimple) = some .fetch := by decide

/-- Vector A12. -/
theorem test_aFlo : (ranA 0x4C 0x20).map (fun x => (x.cutLo, x.cutHi)) = some (0x20#8, 0xFF#8) := by decide

/-- Vector A13. -/
theorem test_aFhi : (ranA 0x48 0x80).map (fun x => (x.cutLo, x.cutHi)) = some (0x00#8, 0x80#8) := by decide

/-- Vectors A14, A15, A16. -/
theorem test_aVdep :
    let x := { struck pSimple with vibDepth := 10, vibPhase := 77 }
    (after pSimple [0x59, 0x0A] x).map (·.vibPhase) = some 77#8 ∧
    (after pSimple [0x59, 0x0B] x).map (fun y => (y.vibPhase, y.vibDepth)) = some (0#8, 11#7) ∧
    (after pSimple [0x59, 0x8A] x).map (fun y => (y.vibMode, y.vibPhase)) = some (true, 77#8) := by decide

/-- Vector A17. -/
theorem test_aVrate : (ranA 0x5A 8).map (fun x => (x.vibRate, (advanceVibrato x).vibPhase)) = some (8#8, 8#8) := by decide

/-- Vectors A18, A20, A19. -/
theorem test_aPan :
    (ranA 0x50 0).map (fun x => (x.pan, gainLeft x, gainRight x)) = some (0#8, 255, 0) ∧
    (ranA 0x50 0x7F).map (·.pan) = some 254#8 ∧ (ranA 0x50 0x40).map (·.pan) = some 0x80#8 := by decide

/-- Vector I14: a table number at NTAB moves the cursor only. -/
theorem test_aPan_absent_table :
    after { pSimple with ntab := 4 } [0x50, 0xF1] (struck pSimple) = some { struck pSimple with cursor := 1 } := by decide

/-- Vectors A21, A22. -/
theorem test_aBend :
    (ranA 0x42 1).map (fun x => (bendPitch x).bendAcc.toInt) = some 256 ∧
    (ranA 0x42 0xFE).map (fun x => (bendPitch x).bendAcc.toInt) = some (-512) := by decide

/-- Vector A23, and the run ends there. -/
theorem test_aWait :
    (ranA 0x57 2).map (fun x => (x.wait, x.cursor)) = some (2#8, 1#8) ∧
    phaseAfter pSimple [0x57, 2] (struck pSimple) = some .modulate := by decide

/-- Vectors A24, A25, A26. -/
theorem test_aVol :
    (ranA 0x56 0x0F).map (·.vol) = some 240#8 ∧ (ranA 0x56 0x10).map (·.vol) = some 255#8 ∧
    (ranA 0x56 0).map (·.vol) = some 0#8 := by decide

/-- Vector I10: binding a table of length 0 keeps the volume. -/
theorem test_aVol_empty_table :
    (ranA 0x56 0x81).map (fun x => (x.vol, x.tbVol.on, x.tbVol.s)) = some (0xF0#8, true, 1#4) := by decide

/-- Vectors A27, A28. -/
theorem test_aLoop_back :
    (after pSimple [0x47, 2] { struck pSimple with cursor := 2 }).map (·.cursor) = some 0#8 ∧
    (after pSimple [0x47, 9] { struck pSimple with cursor := 3 }).map (·.cursor) = some 0#8 := by decide

/-- Vector A29. -/
theorem test_aLoop_end :
    (ranA 0x47 0).map (fun x => (x.active, x.cursor, x.gateBit)) = some (false, 0#8, true) := by decide

/-- Vectors A30, A31. -/
theorem test_aWave :
    (ranA 0x53 2).map (fun x => waveCode x.wave) = some 2#8 ∧
    (ranA 0x53 0x83).map (fun x => waveCode x.wave) = some 0x83#8 := by decide

/-- Vectors A32, A33. -/
theorem test_aWave_noop :
    ranA 0x53 5 = some { struck pSimple with cursor := 1 } ∧ ranA 0x53 0x89 = some { struck pSimple with cursor := 1 } := by
  decide

/-- Vectors A34, A35, A36. -/
theorem test_aNote :
    (ranA 0x4E 58).map (fun x => (x.progNote, x.trigNote)) = some (58#8, 49#8) ∧
    (ranA 0x4E 0).map (·.progNote) = some 1#8 ∧ (ranA 0x4E 0xFF).map (·.progNote) = some 96#8 := by decide

/-- Vectors A37, A38, A39. -/
theorem test_aNrel :
    (ranA 0x41 0x0C).map (·.progNote) = some 61#8 ∧ (ranA 0x41 0xC4).map (·.progNote) = some 1#8 ∧
    (ranA 0x41 0x3C).map (·.progNote) = some 96#8 := by decide

/-- Vectors A40, A41. -/
theorem test_aNop :
    after pSimple [0, 0] { struck pSimple with cursor := 4 } = some { struck pSimple with cursor := 5 } ∧
    ranA 0x7A 0x33 = some { struck pSimple with cursor := 1 } := by decide

/-- Vectors B1, B2, B3, B5. -/
theorem test_bCtrl :
    (ranB 0x11).map (fun x => (x.ctrl, gateOf .B x)) = some (0x41#8, true) ∧
    (after pReg [0x11] { struck pReg with ctrl := 0x06 }).map (·.ctrl) = some 0x47#8 ∧
    (after pReg [0x00] { struck pReg with ctrl := 0x41 }).map (·.ctrl) = some 0x00#8 ∧
    (ranB 0x3F).map (·.ctrl) = some 0xF9#8 := by decide

/-- Vectors B6, B7. -/
theorem test_bIncp :
    (ranB 0x41).map (fun x => (stepEnvelopes x).pitchEnv.toInt) = some 16 ∧
    (ranB 0x48).map (fun x => (stepEnvelopes x).pitchEnv.toInt) = some (-128) := by decide

/-- Vectors B8, B9, B10. -/
theorem test_bIncw :
    (ranB 0x5F).map (fun x => (stepEnvelopes x).pw) = some 2032#12 ∧
    (after pReg [0x58] { struck pReg with pw := 100 }).map (fun x => (stepEnvelopes x).pw) = some 0#12 ∧
    (after pReg [0x57] { struck pReg with pw := 4090 }).map (fun x => (stepEnvelopes x).pw) = some 4095#12 := by decide

/-- Vectors B11, B12. -/
theorem test_bSetp :
    (after pReg [0x60] { struck pReg with pitchEnv := 48 }).map (·.pitchEnv) = some 0#16 ∧
    (after pReg [0x68] { struck pReg with pitchRate := 3 }).map (fun x => (x.pitchEnv.toInt, x.pitchRate)) =
      some (-128, 3#4) := by decide

/-- Vectors B13, B14. -/
theorem test_bSetw : (ranB 0x78).map (·.pw) = some 2048#12 ∧ (ranB 0x7F).map (·.pw) = some 3840#12 := by decide

/-- Vectors B15, B16, B17. -/
theorem test_bArp :
    (ranB 0x8C).map (·.progNote) = some 61#8 ∧ (ranB 0x9F).map (·.progNote) = some 48#8 ∧
    (after pReg [0x90] { struck pReg with trigNote := 5 }).map (·.progNote) = some 1#8 := by decide

/-- Vectors B18, B19, B20. -/
theorem test_bVib :
    (ranB 0xB1).map (fun x => (x.vibDepth, x.vibRate, x.vibPhase)) = some (64#7, 8#8, 0#8) ∧
    (after pReg [0xB3] { struck pReg with vibDepth := 64, vibPhase := 40 }).map (fun x => (x.vibRate, x.vibPhase)) =
      some (32#8, 40#8) ∧
    (ranB 0xA0).map (fun x => (x.vibDepth, x.vibRate)) = some (0#7, 4#8) := by decide

/-- Vector B21. -/
theorem test_bWait :
    (ranB 0xC2).map (fun x => (x.wait, x.cursor)) = some (2#8, 1#8) ∧
    phaseAfter pReg [0xC2] (struck pReg) = some .modulate := by decide

/-- Vectors B23, B24. -/
theorem test_bLoop_back :
    (after pReg [0xD3] { struck pReg with cursor := 5 }).map (·.cursor) = some 2#8 ∧
    (after pReg [0xD5] { struck pReg with cursor := 1 }).map (·.cursor) = some 0#8 := by decide

/-- Vector B25. -/
theorem test_bLoop_end :
    (after pReg [0xD0] { struck pReg with ctrl := 0x41 }).map (fun x => (x.active, x.cursor, x.ctrl)) =
      some (false, 0#8, 0x41#8) := by decide

/-- Vector B26. -/
theorem test_bRsvd :
    after pReg [0xE7] { struck pReg with cursor := 3 } = some { struck pReg with cursor := 4 } := by decide

/-- Vectors B27, B28. -/
theorem test_bSync :
    (after pReg [0xF1] { struck pReg with ctrl := 0x41 }).map (·.ctrl) = some 0x43#8 ∧
    (after pReg [0xF2] { struck pReg with ctrl := 0x43 }).map (·.ctrl) = some 0x41#8 := by decide

/-- Vector B29. -/
theorem test_bRing : (after pReg [0xF5] { struck pReg with ctrl := 0x11 }).map (·.ctrl) = some 0x15#8 := by decide

/-- Vector B30. -/
theorem test_bExt : (ranB 0xF9).map (·.ext) = some true ∧ (ranB 0xF8).map (·.ext) = some false := by decide

/-- Vector B31. -/
theorem test_bNoff :
    (after pReg [0xFC] { struck pReg with cursor := 1 }).map (fun x => (x.release, x.releaseOk, x.cursor)) =
      some (2#8, true, 1#8) ∧ phaseAfter pReg [0xFC] (struck pReg) = some .modulate := by decide

/-- Vectors B32, B33: the note-off after and before the marker. -/
theorem test_noteOff_B :
    (noteOff .B { struck pReg with release := 4, releaseOk := true, ctrl := 0x41 }).cursor = 4#8 ∧
    (noteOff .B { struck pReg with cursor := 2, ctrl := 0x41 }).active = false ∧
    gateOf .B (noteOff .B { struck pReg with ctrl := 0x41 }) = false := by decide

/-! ## The placed word runs -/

set_option maxRecDepth 4000 in
/-- The step after placing a dialect A word runs it: A.VOL 15 (vector A24). -/
theorem test_withFetchWord_A :
    (match step (State.reset.withFetchWord 16 0x560F) with
     | .next t => some ((t.ch 0).vol, (t.ch 0).cursor, t.runCount)
     | .fault _ => none
     | .refused _ => none) = some (240#8, 1#8, 1) := by decide

set_option maxRecDepth 4000 in
/-- The step after placing a dialect B byte runs it: B.CTRL gate|pulse (vector B1). -/
theorem test_withFetchWord_B :
    (match step (State.reset.withFetchWord 8 0x11) with
     | .next t => some ((t.ch 0).ctrl, (t.ch 0).cursor)
     | .fault _ => none
     | .refused _ => none) = some (0x41#8, 1#8) := by decide

/-! ## Tables, modulation, oscillators, synthesizer -/

/-- Vector I12: a stretch of 0 acts as 1. -/
theorem test_stretch_zero : stretchOf 0 = 1#4 ∧ stretchOf 9 = 9#4 := by decide

/-- W4: inertia. -/
theorem test_slew :
    slew 30 100 50 = 70 ∧ slew 30 100 80 = 80 ∧ slew 30 100 130 = 130 ∧ slew 0 100 50 = 50 ∧
    slew 1044480 25480119 50960238 = 26524599 := by decide

/-- Vectors O21, O22: the vibrato's offset rounds down. -/
theorem test_vibrato_offset :
    vibOffset 127 64 25480119 = 790032 ∧ vibOffset (-127) 64 25480119 = -790033 := by decide

/-- Vector O10: the noise register's shifts. -/
theorem test_noise :
    noiseShift 0xB400 1 = 0xB400#16 ∧ noiseShift 0xB400 0xB400 = 0x5A00#16 := by decide

/-- Vector O9: the triangle. -/
theorem test_triangle :
    triLevel false 0x40000000 = 0x80#8 ∧ triLevel false 0x7F800000 = 0xFF#8 ∧ triLevel true 0x80000000 = 0xFF#8 ∧
    triLevel true 0xFF800000 = 0x00#8 := by decide

/-- Vectors O25, O26: the dialect B latch is little-endian. -/
theorem test_latch_B :
    let o := latchB 0x184D 0x800 (oscPowerOn pReg)
    (o.reg0, o.reg1, o.reg2, o.reg3, o.step) = (0x4D#8, 0x18#8, 0x00#8, 0x08#8, 1592576#32) ∧
    (latchB 0 4095 (oscPowerOn pReg)).reg3 = 0x0F#8 := by decide

/-- Vectors Y1 to Y5: the side amplitudes. -/
theorem test_amplitude :
    let x := { channelPowerOn with gateBit := true, vol := 240 }
    amplitude .A x (gainLeft x) 255 = 15120 ∧ amplitude .A x (gainRight x) 255 = 15240 ∧
    amplitude .A x (gainLeft x) 0 = -15240 ∧ amplitude .A { x with vol := 255, pan := 255 } 255 0 = -32513 ∧
    amplitude .A { x with gateBit := false } 255 255 = 0 := by decide

/-- Vectors Y6, Y7, Y8: the mixer. -/
theorem test_mixer :
    mixSide pSimple [-32513, -32513, -32513, -32513] = -32513 ∧
    mixSide { pSimple with mixShift := 0 } [-32513, -32513, -32513, -32513] = -32768 ∧
    mixSide pSimple [15120, 0, 0, 0] = 3780 := by decide

/-- Vector Y9: the default step kernel. -/
theorem test_box_kernel :
    (boxKernel 16).getD 0 [] = [32768, 0] ∧ (boxKernel 16).getD 5 [] = [22528, 10240] ∧
    (boxKernel 16).getD 15 [] = [2048, 30720] := by decide

/-- W9: a frame's bytes. -/
theorem test_frame_bytes : frameBytes { left := 3780, right := 3810 } = [0xC4, 0x0E, 0xE2, 0x0E] := by decide

/-- Vector S2: nine periods of 44 frames and one of 45. -/
theorem test_tick_timer :
    let e := Nat.iterate (tickTimer { pSimple with tickHz := 1000 }) 9 enginePowerOn
    e.sptCnt = 44#32 ∧ (tickTimer { pSimple with tickHz := 1000 } e).sptCnt = 45#32 := by decide

/-- Vector S19: the END effect after a note-on. -/
theorem test_end_effect :
    (fun x : Channel => (x.active, x.gateBit, x.vol)) (processRow pSimple []
      { note := 49, instr := 1, cmd1 := 0x45, par1 := 0, cmd2 := 0, par2 := 0 } 0 channelPowerOn) =
      (false, false, 0xF0#8) := by decide

/-- Vectors S14, S15: the transpose of a row's note is clamped. -/
theorem test_transpose :
    (processNote pSimple { note := 49, instr := 1, cmd1 := 0, par1 := 0, cmd2 := 0, par2 := 0 } (-12)
      channelPowerOn).trigNote = 37#8 ∧
    (processNote pSimple { note := 49, instr := 1, cmd1 := 0, par1 := 0, cmd2 := 0, par2 := 0 } 127
      channelPowerOn).trigNote = 96#8 := by decide

/-- Vectors H3, H4: the store's sizes. -/
theorem test_store_sizes : storeSize pSimple = 16452 ∧ storeSize pReg = 15428 := by decide

/-! ## Witnesses: for every statement that has hypotheses, states and operands that meet them, clause by clause

Each is named after its statement. A state is built from the three below by changing a field or two. -/

/-- Between commands, with the commands to come. -/
def asked (cmds : List Command) : State := { State.reset with cmds := cmds }

/-- Channel 0 at a fetch of A.VOL 15. -/
def fetchA : State := State.reset.withFetchWord 16 0x560F

/-- Channel 0 at a fetch of B.CTRL gate|pulse. -/
def fetchB : State := State.reset.withFetchWord 8 0x11

/-- A state of a tick, or of a frame, of `GetSamples`. -/
def standingAt (p : Phase) (c : Fin 4) (cmds : List Command) : State :=
  { State.reset with
    phase := p, cur := c, framesLeft := 1, cmds := cmds,
    eng := { enginePowerOn with sptCnt := if p = .render then 1 else 0 } }

theorem witness_configs : configOk pSimple = true ∧ configOk pBlep = true ∧ configOk pReg = true := by decide +kernel

/-- The premises of every statement about one instruction on the current channel. -/
theorem witness_channel : State.reset.cur < State.reset.voices.length ∧ 1 ≤ State.reset.cfg.noteMax ∧
    State.reset.cfg.noteMax ≤ 254 ∧ State.reset.cfg.dialect = .A := by decide

theorem witness_inv (p : Phase) (c : Fin 4) (cmds : List Command) : Inv (standingAt p c cmds) where
  config := witness_configs.1
  count := rfl
  voices v hv := by
    obtain rfl : v = voicePowerOn pSimple := List.eq_of_mem_replicate hv
    have off : BindingOk pSimple bindingOff := ⟨by decide, by decide, fun _ => rfl⟩
    exact
      { ch := { progNote := Nat.zero_le _, trigNote := Nat.zero_le _, instr := Nat.zero_le _, lastInstr := Nat.zero_le _
                wave := fun n h => by cases h
                tbVol := off, tbDuty := off, tbPan := off }
        osc := ⟨by decide, by decide, by decide⟩
        left := ⟨rfl, rfl, rfl⟩
        right := ⟨rfl, rfl, rfl⟩ }
  engine := ⟨(by decide : 0 < 32), Nat.zero_le _, (by decide : 0 < 4), (by decide : 0 < 50)⟩
  store := ⟨⟨.nil, by simp [standingAt, State.reset, State.powerOn]⟩, by simp [standingAt, State.reset, State.powerOn]⟩
  delay :=
    { left := ⟨.nil, by simp [standingAt, State.reset, State.powerOn, delayPowerOn]⟩
      right := ⟨.nil, by simp [standingAt, State.reset, State.powerOn, delayPowerOn]⟩
      leftInside := by simp [standingAt, State.reset, State.powerOn, delayPowerOn]
      rightInside := by simp [standingAt, State.reset, State.powerOn, delayPowerOn]
      ptr := (by decide : 0 < 8820) }
  faults c _ := BitVec.getLsbD_zero
  phase :=
    { tick := fun h => ⟨Nat.one_ne_zero, if_neg (fun e => by rw [show p = .render from e] at h; cases h)⟩
      channel := fun _ => c.isLt
      count := fun _ => Nat.zero_le _
      frame := fun e => ⟨Nat.one_ne_zero, by rw [show (standingAt p c cmds).eng.sptCnt = 1 from if_pos e]; decide⟩ }

theorem witness_OpcodeMapOfDialectA :
    (0x00#8 ∉ [0x45#8, 0x44#8, 0x46#8, 0x49#8, 0x4A#8, 0x4C#8, 0x48#8, 0x59#8, 0x5A#8, 0x50#8, 0x42#8, 0x57#8, 0x56#8,
      0x47#8, 0x53#8, 0x4E#8, 0x41#8]) ∧ (0x7F#8).getLsbD 7 = false ∧ (0x80#8).getLsbD 7 = true ∧
    ((0x87#8).extractLsb' 0 7).toNat < pSimple.nwave ∧ pSimple.nwave ≤ ((0x88#8).extractLsb' 0 7).toNat ∧
    4 ≤ (0x04#8).toNat ∧ (0x7F#8).toNat < 0x80 := by decide

theorem witness_PrefixTableOfDialectB :
    (0x3F#8).extractLsb' 6 2 = 0b00#2 ∧ (0x40#8).extractLsb' 4 4 = 0b0100#4 ∧ (0x5F#8).extractLsb' 4 4 = 0b0101#4 ∧
    (0x60#8).extractLsb' 4 4 = 0b0110#4 ∧ (0x7F#8).extractLsb' 4 4 = 0b0111#4 ∧ (0x80#8).extractLsb' 5 3 = 0b100#3 ∧
    (0xBF#8).extractLsb' 5 3 = 0b101#3 ∧ (0xC0#8).extractLsb' 4 4 = 0b1100#4 ∧ (0xDF#8).extractLsb' 4 4 = 0b1101#4 ∧
    (0xEF#8).extractLsb' 4 4 = 0b1110#4 ∧ (0xF0#8).extractLsb' 2 6 = 0b111100#6 ∧
    (0xF7#8).extractLsb' 2 6 = 0b111101#6 ∧ (0xFB#8).extractLsb' 2 6 = 0b111110#6 ∧
    (0xFC#8).extractLsb' 2 6 = 0b111111#6 := by decide

theorem witness_UnassignedCodesAreNoOps :
    (0x76#8 ∉ [0x45#8, 0x44#8, 0x46#8, 0x49#8, 0x4A#8, 0x4C#8, 0x48#8, 0x59#8, 0x5A#8, 0x50#8, 0x42#8, 0x57#8, 0x56#8,
      0x47#8, 0x53#8, 0x4E#8, 0x41#8]) ∧ (0xE0#8).extractLsb' 4 4 = 0b1110#4 ∧
    ((0xFB#8).extractLsb' 4 4 = 0b1111#4 ∧ (0xFB#8).extractLsb' 2 2 ≠ 0b11#2) ∧
    (0xFC#8).extractLsb' 2 6 = 0b111111#6 ∧ (0xFF#8).extractLsb' 2 6 = 0b111111#6 := by decide

theorem witness_DecodeEncode :
    (Instr.aWave (.other 4#8)).dialect = .A ∧ (Instr.aWave (.other 4#8)).wf = true ∧
    (Instr.bVib 7 3).dialect = .B ∧ (Instr.bVib 7 3).wf = true := by decide

theorem witness_StepRunsDecodedInstruction :
    (fetchA.phase = .fetch ∧ (fetchA.ch fetchA.cur).instr ≠ 0 ∧
      (fetchA.ch fetchA.cur).instr.toNat ≤ fetchA.cfg.nins ∧
      (fetchA.ch fetchA.cur).cursor.toNat < progLen fetchA.cfg fetchA.store (fetchA.ch fetchA.cur).instr.toNat ∧
      fetchA.runCount ≠ fetchA.cfg.stepLimit ∧ fetchA.cfg.dialect = .A ∧
      decode .A [fetchA.readByte (instrAddr fetchA.cfg 1 + 1), fetchA.readByte (instrAddr fetchA.cfg 1 + 2)] =
        .ok (.aVol (.lit 15#7)) ∧ (Instr.aVol (.lit 15#7)).wf = true) ∧
    (fetchB.phase = .fetch ∧ (fetchB.ch fetchB.cur).instr ≠ 0 ∧
      (fetchB.ch fetchB.cur).instr.toNat ≤ fetchB.cfg.nins ∧
      (fetchB.ch fetchB.cur).cursor.toNat < progLen fetchB.cfg fetchB.store (fetchB.ch fetchB.cur).instr.toNat ∧
      fetchB.runCount ≠ fetchB.cfg.stepLimit ∧ fetchB.cfg.dialect = .B ∧
      decode .B [fetchB.readByte (instrAddr fetchB.cfg 1 + 1)] = .ok (.bCtrl 0x11#6) ∧
      (Instr.bCtrl 0x11#6).wf = true) := by decide +kernel

theorem witness_AddressMapAndReadsStayInRegion :
    1 ≤ pSimple.nins ∧ 31 < progLen pSimple [(instrAddr pSimple pSimple.nins, 0xFF#8)] pSimple.nins ∧
    1 < instrWidth pSimple.dialect := by decide +kernel

/-- The last in-range index of every region of the store. -/
theorem witness_AddressMapAndReadsStayInRegion_last :
    (127 < pSimple.songCap ∧ 3 < pSimple.nch) ∧ (63 < pSimple.npat ∧ 31 < pSimple.patLen) ∧
    (1 ≤ 32 ∧ 32 ≤ pSimple.nins) ∧ (7 < pSimple.ntab ∧ 32 ≤ pSimple.tabCap) ∧
    (7 < pSimple.nwave ∧ 32 ≤ pSimple.waveCap) := by decide

theorem witness_RunawayIsRecordedAndEndsTheRun :
    let s := { fetchA with runCount := 256 }
    s.phase = .fetch ∧ s.cur < s.voices.length ∧ s.cur < 16 ∧ (s.ch s.cur).instr ≠ 0 ∧
    (s.ch s.cur).instr.toNat ≤ s.cfg.nins ∧
    (s.ch s.cur).cursor.toNat < progLen s.cfg s.store (s.ch s.cur).instr.toNat ∧ s.runCount = s.cfg.stepLimit := by
  decide +kernel

theorem witness_RunStartsWaitsAndEnds :
    (standing pSimple channelPowerOn).cur < (standing pSimple channelPowerOn).voices.length ∧
    ((standing pSimple channelPowerOn).ch 0).active = false ∧ ((standing pSimple (struck pSimple)).ch 0).active = true ∧
    ((standing pSimple (struck pSimple)).ch 0).wait = 0 ∧
    ((standing pSimple { struck pSimple with wait := 255 }).ch 0).wait ≠ 0 ∧
    ((standing pSimple channelPowerOn).ch 0).instr = 0 ∧
    pSimple.nins < ((standing pSimple { struck pSimple with instr := 33 }).ch 0).instr.toNat ∧
    progLen pSimple [] 1 ≤ ((standing pSimple (struck pSimple)).ch 0).cursor.toNat := by decide

theorem witness_WaitOfNDelaysByNPlusOneTicks :
    let s := standing pSimple { struck pSimple with wait := 2 }
    s.cur < s.voices.length ∧ (s.ch s.cur).active = true ∧ (s.ch s.cur).wait.toNat = 2 := by decide

theorem witness_RunEndsWithinTheStepLimit :
    fetchA.phase = .fetch ∧ fetchA.runCount ≤ fetchA.cfg.stepLimit ∧ 256 ≤ fetchA.cfg.stepLimit := by decide

theorem witness_TableFormsBind :
    let noTables := { State.reset with cfg := { pSimple with hasTables := false } }
    let four := { State.reset with cfg := { pSimple with ntab := 4 } }
    noTables.cur < noTables.voices.length ∧ noTables.cfg.hasTables = false ∧ four.cfg.hasTables = true ∧
    four.cfg.ntab ≤ (4#3).toNat ∧ (3#3).toNat < four.cfg.ntab := by decide

theorem witness_WaveSelectsOrIsNoOp :
    (7#7).toNat < State.reset.cfg.nwave ∧ State.reset.cfg.nwave ≤ (8#7).toNat := by decide

theorem witness_FlowInstructions : (255#8 ≠ 0) ∧ (0#8 = 0) ∧ (15#4 ≠ 0) ∧ (0#4 = 0) := by decide

theorem witness_ControlRegisterInstructions : fetchB.cur < fetchB.voices.length ∧ fetchB.cfg.dialect = .B := by decide

theorem witness_EffectsAreInstructionsWithoutTheCursor :
    (Instr.aVol (.lit 15#7)).dialect = .A ∧ Instr.aVol (.lit 15#7) ≠ .aEnd ∧
    (∀ p : Byte, Instr.aVol (.lit 15#7) ≠ .aJump p ∧ Instr.aVol (.lit 15#7) ≠ .aWait p ∧
      Instr.aVol (.lit 15#7) ≠ .aLoop p) ∧ 0x56#8 ≠ 0 ∧
    (0x7A#8 ∉ [0x45#8, 0x44#8, 0x46#8, 0x49#8, 0x4A#8, 0x4C#8, 0x48#8, 0x59#8, 0x5A#8, 0x50#8, 0x42#8, 0x57#8, 0x56#8,
      0x47#8, 0x53#8, 0x4E#8, 0x41#8]) := ⟨rfl, nofun, fun _ => ⟨nofun, nofun, nofun⟩, by decide, by decide⟩

theorem witness_BoundTableStepsAndHolds :
    let m : Memory := [(tableAddr pSimple .vol 7, 4#8)]
    let x := { channelPowerOn with tbVol := { on := true, t := 7, idx := 4, cnt := 1, s := 1 } }
    pSimple.hasTables = true ∧ (7#3).toNat < pSimple.ntab ∧ pSimple.tabCap ≤ 255 ∧ 0 < tableLen pSimple m .vol 7 ∧
    (binding .vol x).on = true ∧ tableLen pSimple [] .vol (binding .vol x).t.toNat = 0 ∧
    tableLen pSimple m .vol (binding .vol x).t.toNat ≤ (binding .vol x).idx.toNat ∧
    (binding .pan x).on = false := by decide

/-- Tick step 1 with the volume of channel 0 bound to the last table, and every other binding off. -/
def bound : State :=
  { State.reset with
    phase := .tables
    voices := State.reset.voices.modify 0 fun v =>
      { v with ch := { v.ch with tbVol := { on := true, t := 7, idx := 0, cnt := 1, s := 1 } } } }

theorem witness_BoundTableStepsAndHolds_tick :
    bound.phase = .tables ∧ (binding .vol (bound.ch 0)).on = true ∧ 3 < bound.voices.length ∧
    ∀ v ∈ bound.voices, ∀ k, (binding k v.ch).on = true → (binding k v.ch).t.toNat < bound.cfg.ntab := by
  refine ⟨rfl, by decide, by decide, fun v hv k => ?_⟩
  cases k <;> revert v <;> decide

theorem witness_RowNoteThenEffects :
    (1 ≤ (32#8).toNat ∧ (32#8).toNat ≤ pSimple.nins) ∧ ¬(1 ≤ (0#8).toNat ∧ (0#8).toNat ≤ pSimple.nins) ∧
    ¬(1 ≤ (33#8).toNat ∧ (33#8).toNat ≤ pSimple.nins) ∧ (49#8 ≠ 0xFF#8 ∧ 49#8 ≠ 0#8) ∧
    (struck pSimple).lastInstr = 0 ∧ { struck pSimple with lastInstr := 1 }.lastInstr ≠ 0 ∧ pSimple.npat ≤ 64 ∧
    63 < pSimple.npat := by decide

theorem witness_RowStepWaitsOrPlaysRows :
    let s := fun (m : Mode) (row wait : BitVec 8) =>
      { State.reset with phase := .row, eng := { enginePowerOn with mode := m, row := row, rowWait := wait } }
    (s .idle 0 0).phase = .row ∧ (s .idle 31 0).eng.row.toNat < pSimple.patLen ∧ pSimple.patLen ≤ 256 ∧
    ((s .song 31 1).eng.mode ≠ .idle ∧ (s .song 31 1).eng.rowWait ≠ 0) ∧
    ((s .song 31 0).eng.mode = .song ∧ (s .song 31 0).eng.rowWait = 0 ∧ (s .song 31 0).eng.row ≠ 0) ∧
    ((s .pattern 0 0).eng.mode = .pattern ∧ (s .pattern 0 0).eng.rowWait = 0 ∧
      (s .pattern 0 0).eng.patCh.toNat < (s .pattern 0 0).voices.length) := by decide

theorem witness_AdvanceSongLoadsWrapsOrEnds :
    let at1 := { State.reset with eng := { enginePowerOn with songNext := 1 } }
    (State.reset.eng.songNext.toNat < min (State.reset.readByte 0).toNat State.reset.cfg.songCap) ∧
    (min (at1.readByte 0).toNat at1.cfg.songCap ≤ at1.eng.songNext.toNat ∧ at1.readByte 2 ≠ 0 ∧
      0 < min (at1.readByte 0).toNat at1.cfg.songCap) ∧
    { at1 with store := [(2, 0#8)] }.readByte 2 = 0 ∧
    min ({ at1 with store := [(0, 0#8)] }.readByte 0).toNat at1.cfg.songCap = 0 := by decide

theorem witness_AdvanceSongLoadsWrapsOrEnds_step :
    let s := fun (next : BitVec 9) (m : Memory) =>
      { State.reset with phase := .row, store := m, eng := { enginePowerOn with mode := .song, songNext := next } }
    let len := fun (t : State) => min (t.readByte 0).toNat t.cfg.songCap
    ((s 0 []).phase = .row ∧ (s 0 []).eng.mode = .song ∧ (s 0 []).eng.rowWait = 0 ∧ (s 0 []).eng.row = 0 ∧
      1 ≤ (s 0 []).cfg.patLen ∧ (s 0 []).eng.songNext.toNat < len (s 0 [])) ∧
    ((s 1 []).phase = .row ∧ (s 1 []).eng.mode = .song ∧ (s 1 []).eng.rowWait = 0 ∧ (s 1 []).eng.row = 0 ∧
      1 ≤ (s 1 []).cfg.patLen ∧ len (s 1 []) ≤ (s 1 []).eng.songNext.toNat ∧ (s 1 []).readByte 2 ≠ 0 ∧ 0 < len (s 1 [])) ∧
    (len (s 1 [(2, 0#8)]) ≤ (s 1 [(2, 0#8)]).eng.songNext.toNat ∧ (s 1 [(2, 0#8)]).readByte 2 = 0) ∧
    (len (s 0 [(0, 0#8)]) ≤ (s 0 [(0, 0#8)]).eng.songNext.toNat ∧ len (s 0 [(0, 0#8)]) = 0) := by decide

theorem witness_PlonksAreLatchedThenAppliedAtTheTick :
    let s := asked [.plonk 96 3 32 true]
    let latched := fun e : Plonk =>
      { State.reset with phase := .plonks, voices := State.reset.voices.map fun v : Voice => { v with plonk := e } }
    s.phase = .command ∧ s.closed = false ∧ s.cmds = [.plonk 96 3 32 true] ∧ 3 < s.cfg.nch ∧ 3 < s.voices.length ∧
    (latched (.on 96 32)).phase = .plonks ∧ ((latched .none).voice 0).plonk = .none ∧
    ((latched .off).voice 0).plonk = .off ∧ ((latched (.on 96 32)).voice 0).plonk = .on 96 32 ∧
    (1 ≤ (96#8).toNat ∧ (96#8).toNat ≤ pSimple.noteMax ∧ 1 ≤ (32#8).toNat ∧ (32#8).toNat ≤ pSimple.nins) ∧
    ¬(1 ≤ (97#8).toNat ∧ (97#8).toNat ≤ pSimple.noteMax ∧ 1 ≤ (32#8).toNat ∧ (32#8).toNat ≤ pSimple.nins) := by
  decide

theorem witness_TickStepsFollowInOrder :
    Inv (standingAt .tables 0 []) ∧ Inv (standingAt .plonks 0 []) ∧ Inv (standingAt .row 0 []) ∧
    Inv (standingAt .run 3 []) ∧ Inv (standingAt .fetch 3 []) ∧ Inv (standingAt .snapshot 0 []) ∧
    (Inv (standingAt .modulate 2 []) ∧ (standingAt .modulate 2 []).cur + 1 < (standingAt .modulate 2 []).cfg.nch) ∧
    (Inv (standingAt .modulate 3 []) ∧ (standingAt .modulate 3 []).cur + 1 = (standingAt .modulate 3 []).cfg.nch) :=
  ⟨witness_inv .., witness_inv .., witness_inv .., witness_inv .., witness_inv .., witness_inv ..,
    ⟨witness_inv .., by decide⟩, ⟨witness_inv .., by decide⟩⟩

theorem witness_TickPeriodsNeverDrift : configOk pSimple = true ∧ enginePowerOn.tickRem = 0 :=
  ⟨witness_configs.1, rfl⟩

/-- At a frame, with the frames still owed and the frames before the next tick. -/
def framesAhead (owed : Nat) (before : BitVec 32) : State :=
  { standingAt .frame 0 [] with framesLeft := owed, eng := { enginePowerOn with sptCnt := before } }

theorem witness_TickPeriodsNeverDrift_steps :
    ((framesAhead 0 0).phase = .frame ∧ (framesAhead 0 0).framesLeft = 0) ∧
    ((framesAhead 1 0).framesLeft ≠ 0 ∧ (framesAhead 1 0).eng.sptCnt = 0) ∧
    ((framesAhead 1 1).framesLeft ≠ 0 ∧ (framesAhead 1 1).eng.sptCnt ≠ 0) ∧
    ((standingAt .snapshot 0 []).phase = .snapshot ∧ configOk (standingAt .snapshot 0 []).cfg = true ∧
      (standingAt .snapshot 0 []).eng.tickRem.toNat < (standingAt .snapshot 0 []).cfg.tickHz) ∧
    ((standingAt .render 0 []).phase = .render ∧
      ∀ v ∈ (standingAt .render 0 []).voices, WaveOk (standingAt .render 0 []).cfg v.ch.wave) ∧
    Inv (framesAhead 2 2) ∧ (framesAhead 2 2).phase = .frame ∧ 2 ≤ (framesAhead 2 2).framesLeft ∧
    2 ≤ (framesAhead 2 2).eng.sptCnt.toNat := by
  have h := witness_inv .frame 0 []
  refine ⟨by decide, by decide, by decide, ⟨rfl, witness_configs.1, by decide⟩,
    ⟨rfl, fun v hv => ((witness_inv .render 0 []).voices v hv).ch.wave⟩, ?_, rfl, by decide, by decide⟩
  exact ⟨h.1, h.2, h.3, ⟨h.4.1, h.4.2, h.4.3, h.4.4⟩, h.5, h.6, h.7, ⟨nofun, nofun, nofun, nofun⟩⟩

/-- The song is at its end: the row step stops everything. -/
def songEnd : State :=
  { standingAt .row 0 [] with store := [(2, 0#8)], eng := { enginePowerOn with mode := .song, songNext := 1 } }

theorem witness_ModeChangesOnlyByPlayStopOrEnd :
    (∃ t, step songEnd = .next t ∧ t.eng.mode ≠ songEnd.eng.mode) ∧
    ∃ t, step (asked [.playSongFrom 0]) = .next t ∧ t.eng.mode ≠ (asked [.playSongFrom 0]).eng.mode := by
  have plays : step (asked [.playSongFrom 0]) = .next ((State.reset.startSong 0).answer .ok) := by
    have h : configOk (asked [.playSongFrom 0]).cfg = true := witness_configs.1
    simp only [step, commandStep, asked, State.reset, State.powerOn] at h ⊢
    simp [h, runCommand, State.startSong, State.stopAll, State.answer]
  exact ⟨⟨_, rfl, by decide⟩, _, plays, by decide⟩

theorem witness_FadeBendAndVibratoPhaseEachTick :
    ((standingAt .modulate 3 []).phase = .modulate ∧
      (standingAt .modulate 3 []).cur < (standingAt .modulate 3 []).voices.length ∧
      ((standingAt .modulate 3 []).ch 3).progNote.toNat ≤ (standingAt .modulate 3 []).cfg.noteMax ∧
      (standingAt .modulate 3 []).cfg.dialect = .A) ∧
    { fetchB with phase := .modulate }.cfg.dialect = .B ∧
    { fetchB with phase := .modulate }.cur < fetchB.voices.length ∧
    (fetchB.ch 0).progNote.toNat ≤ fetchB.cfg.noteMax := by decide

theorem witness_DialectASlewsAndLatches :
    (voicePowerOn pSimple).osc.curStep.toNat ≤ 0x7FFFFFFF ∧ (voicePowerOn pSimple).ch.inertia.toNat = 0 ∧
    (0x7FFFFFFF#32).toNat ≤ 0x7FFFFFFF ∧ (inertiaOf 1).toNat ≠ 0 ∧
    ((inertiaOf 1).toNat : Int) < (pSimple.freqA.getD 49 0 : Int) - 0 ∧
    ((inertiaOf 1).toNat : Int) < 0x7FFFFFFF - (pSimple.freqA.getD 49 0 : Int) := by decide

theorem witness_LatchesChangeOnlyAtModulation :
    (∃ t, step (standingAt .row 0 []) = .next t) ∧ (standingAt .row 0 []).phase ≠ .modulate ∧
    (∃ t, step (standingAt .frame 0 []) = .next t) ∧ (standingAt .frame 0 []).phase = .frame ∧
    (∃ t, step (standingAt .snapshot 0 []) = .next t) ∧
    (asked [.stop]).cmds.head? ≠ some .init := ⟨⟨_, rfl⟩, by decide, ⟨_, rfl⟩, rfl, ⟨_, rfl⟩, by decide⟩

/-- Two channels of dialect B: the first about to wrap, the second to be synced to it, or held by TEST. -/
def pair (ctrl : Byte) : List Voice :=
  [{ voicePowerOn pReg with osc := { oscPowerOn pReg with phase := 0xFFFFFFFF, step := 1 } },
   { voicePowerOn pReg with ch := { channelPowerOn with ctrl := ctrl } }]

theorem witness_OscillatorClock :
    let cfg := { pReg with nch := 2 }
    (pair 2).length = cfg.nch ∧ 1 < cfg.nch ∧ (pair 2)[1]? = some ((pair 2).getD 1 (voicePowerOn pReg)) ∧
    (pair 2)[(1 + cfg.nch - 1) % cfg.nch]? = some ((pair 2).getD 0 (voicePowerOn pReg)) ∧ cfg.dialect = .B ∧
    ((pair 2).getD 1 (voicePowerOn pReg)).ch.ctrl.getLsbD 1 = true ∧
    ((pair 2).getD 1 (voicePowerOn pReg)).ch.ctrl.getLsbD 3 = false ∧
    ((pair 8).getD 1 (voicePowerOn pReg)).ch.ctrl.getLsbD 3 = true ∧
    ((pair 2).getD 0 (voicePowerOn pReg)).ch.ctrl.getLsbD 3 = false ∧
    2 ^ 32 ≤ ((pair 2).getD 0 (voicePowerOn pReg)).osc.phase.toNat +
      ((pair 2).getD 0 (voicePowerOn pReg)).osc.step.toNat ∧
    (0xFFFFFFFF#32 + 1#32).extractLsb' 28 4 ≠ (0xFFFFFFFF#32).extractLsb' 28 4 ∧
    (0#32 + 0#32).extractLsb' 28 4 = (0#32).extractLsb' 28 4 := by decide

/-- One channel synced to itself, about to wrap to a phase that is not 0: after the clock its phase is 0 (44_oscillator.md
R300; log entry 27). -/
theorem witness_OscillatorClock_self :
    let cfg := { pReg with nch := 1 }
    let v := { voicePowerOn pReg with
      ch := { channelPowerOn with ctrl := 2 }, osc := { oscPowerOn pReg with phase := 0xFFFFFFFF, step := 3 } }
    [v].length = cfg.nch ∧ [v][(0 + cfg.nch - 1) % cfg.nch]? = some v ∧ v.osc.phase + v.osc.step = 2 ∧
    (clockVoices cfg [v]).map (fun w => (w.osc.phase, w.osc.wrapped)) = [(0, true)] := by decide

theorem witness_LevelsOfDialectA :
    let v := fun (w : Wave) (p : BitVec 32) =>
      { voicePowerOn pSimple with ch := { channelPowerOn with wave := w }, osc := { oscPowerOn pSimple with phase := p } }
    (v .tri 0x7FFFFFFF).osc.phase.toNat < 2 ^ 31 ∧ 2 ^ 31 ≤ (v .tri 0x80000000).osc.phase.toNat ∧
    (v (.table 7) 0).ch.wave = .table 7#7 ∧ min (Memory.read [] (waveAddr pSimple 7)).toNat pSimple.waveCap = 0 ∧
    min (Memory.read [(waveAddr pSimple 7, 0xFF#8)] (waveAddr pSimple 7)).toNat pSimple.waveCap ≠ 0 := by decide

theorem witness_LevelsOfDialectB :
    ({ channelPowerOn with ext := true, wave := .table 7#7 }.ext = true ∧
      { channelPowerOn with ext := true, wave := .table 7#7 }.wave = .table 7#7) ∧ ¬(channelPowerOn.ext = true ∧ ∃ w, channelPowerOn.wave = .table w) ∧
    channelPowerOn.ctrl.extractLsb' 4 4 = 0 ∧ (0x61#8).extractLsb' 4 4 ≠ 0 ∧
    min (Memory.read [] (waveAddr pReg 7)).toNat pReg.waveCap = 0 ∧
    min (Memory.read [(waveAddr pReg 7, 0xFF#8)] (waveAddr pReg 7)).toNat pReg.waveCap ≠ 0 :=
  ⟨⟨rfl, rfl⟩, fun h => absurd h.1 (by decide), by decide, by decide, by decide, by decide⟩

theorem witness_SideAmplitudes :
    gateOf .A channelPowerOn = false ∧ gateOf .A (struck pSimple) = true ∧
    gateOf .B { channelPowerOn with ctrl := 0x41 } = true := by decide

theorem witness_DeltasSumAndTheIntegratorDoesNotLeak :
    (∀ p ∈ [([32768, 0], (32258 : Int)), ([2048, 30720], -32513)], AmplitudeOk p.2) ∧
    ((sidePowerOn pBlep).blep.length = [2048, (30720 : Int)].length ∧ sumInt [2048, 30720] = 32768 ∧
      ClockFits [2048, 30720] (-32513) (sidePowerOn pBlep)) ∧
    fitsSigned 64 ((sidePowerOn pBlep).integ.toInt + ((sidePowerOn pBlep).blep.getD 0 0).toInt) = true ∧
    Flushed pBlep (sidePowerOn pBlep) :=
  ⟨by simp [AmplitudeOk], ⟨rfl, by decide, by simp [AmplitudeOk], by decide⟩, by decide,
    ⟨rfl, rfl, by decide, by decide⟩⟩

theorem witness_DeltasSumAndTheIntegratorDoesNotLeak_flush :
    let c := { pSimple with blepTaps := 2 }
    let d := { sidePowerOn pBlep with blep := [-2048, -30720], last := -1 }
    d.blep.length = c.blepTaps ∧ AmplitudeOk d.last.toInt ∧ sideTotal d = 32768 * d.last.toInt ∧ 1 ≤ c.blepTaps ∧
    ∀ k, k < c.blepTaps →
      fitsSigned 64 ((Nat.iterate (fun e => (edgeFlush e).2) k d).integ.toInt +
        ((Nat.iterate (fun e => (edgeFlush e).2) k d).blep.getD 0 0).toInt) = true := by
  refine ⟨rfl, by simp [AmplitudeOk], by decide, by decide, fun k hk => ?_⟩
  have : k = 0 ∨ k = 1 := by simp at hk; omega
  rcases this with rfl | rfl <;> decide

theorem witness_EdgeWithOneClockIsDirect :
    let c := { pSimple with synthMode := .edge, blepK := [identityKernel 2] }
    c.synthMode = .edge ∧ c.oversample = 1 ∧ 1 ≤ c.blepTaps ∧ c.blepK = [identityKernel c.blepTaps] ∧
    ∀ v ∈ List.replicate 4 (voicePowerOn c), Flushed c v.left ∧ Flushed c v.right :=
  ⟨rfl, rfl, by decide, rfl, fun v hv => by
    obtain rfl := List.eq_of_mem_replicate hv
    exact ⟨⟨rfl, rfl, by decide, by decide⟩, ⟨rfl, rfl, by decide, by decide⟩⟩⟩

theorem witness_FilterMixerAndDelay :
    let c := { pSimple with
      firEnable := true, firTaps := 2, firLP := List.replicate 256 (identityKernel 2),
      firHP := List.replicate 256 (identityKernel 2) }
    (c.firEnable = true ∧ firOk c = true ∧ channelPowerOn.cutLo = 0x00#8 ∧ channelPowerOn.cutHi = 0xFF#8 ∧
      fitsSigned 32 (-2147483648) = true ∧ fitsSigned 32 2147483647 = true) ∧
    (pSimple.firEnable = false ∧ pSimple.mixShift = 2 ∧ [-32513, -32513, -32513, (-32513 : Int)].length = 4) ∧
    (∀ y ∈ [-32513, -32513, -32513, (-32513 : Int)], AmplitudeOk y) ∧ pSimple.dfb = 0 := by
  refine ⟨by decide +kernel, by decide, by simp [AmplitudeOk], rfl⟩

theorem witness_FilterMixerAndDelay_stage :
    let c := { pSimple with
      firEnable := true, firTaps := 3, firLP := List.replicate 256 (identityKernel 3),
      firHP := List.replicate 1 (identityKernel 3) ++ List.replicate 255 [16384, 8192, -8192] }
    let d := { sidePowerOn pSimple with firh := [1, -1], firl := [0, 7] }
    c.firEnable = true ∧ firOk c = true ∧ d.firh.length = c.firTaps - 1 ∧ d.firl.length = c.firTaps - 1 ∧
    2 ≤ c.firTaps ∧ 0 + 1 < c.firTaps - 1 ∧ fitsSigned 32 (-2147483648) = true := by decide +kernel

theorem witness_SilenceAtRest :
    (∀ v ∈ State.reset.voices, gateOf State.reset.cfg.dialect v.ch = false) ∧ State.reset.cfg.firEnable = false ∧
    State.reset.cfg.dfb = 0 ∧ 1 ≤ State.reset.cfg.blepTaps ∧
    ∀ v ∈ State.reset.voices, v.left = sidePowerOn State.reset.cfg ∧ v.right = sidePowerOn State.reset.cfg := by
  decide

/-- The premises of every statement about one command, for any command. -/
theorem witness_command (cmd : Command) :
    (asked [cmd]).phase = .command ∧ (asked [cmd]).cmds = [cmd] ∧ (asked [cmd]).closed = false ∧
    configOk (asked [cmd]).cfg = true := ⟨rfl, rfl, rfl, witness_configs.1⟩

theorem witness_StoreCommandsAndRangeRefusals :
    16451 < storeSize pSimple ∧ storeSize pSimple ≤ 16452 ∧ pSimple.nch ≤ 4 ∧ 3 < pSimple.nch := by decide

theorem witness_StatusFaultAndGateWords :
    State.reset.voices.length = State.reset.cfg.nch ∧ State.reset.cfg.nch ≤ 16 := by decide

theorem witness_FaultsAreSticky :
    let s := { fetchA with runCount := 256 }
    ∃ t, step s = .next t ∧ s.faults.getLsbD 0 = false ∧ t.faults.getLsbD 0 = true :=
  ⟨State.raiseRunaway { fetchA with runCount := 256 }, by rfl, by decide, by decide⟩

theorem witness_FaultsAreSticky_kept :
    let s := { standingAt .row 0 [] with faults := 1 }
    ∃ t, step s = .next t ∧ s.faults.getLsbD 0 = true := ⟨_, rfl, by decide⟩

theorem witness_EveryStepKeepsTheInvariant :
    (∃ t, Inv (standingAt .tables 0 []) ∧ step (standingAt .tables 0 []) = .next t) ∧
    (∃ t, Inv (standingAt .modulate 3 []) ∧ step (standingAt .modulate 3 []) = .next t) :=
  ⟨⟨_, witness_inv .., rfl⟩, ⟨_, witness_inv .., rfl⟩⟩

theorem witness_GetSamplesGivesExactlyNFrames :
    Inv (standingAt .command 0 [.getSamples 1]) ∧ (standingAt .command 0 [.getSamples 1]).phase = .command ∧
    (standingAt .command 0 [.getSamples 1]).closed = false := ⟨witness_inv .., rfl, rfl⟩

theorem witness_SplittingARequestChangesNothing :
    Inv (standingAt .command 0 []) ∧ AtRest (standingAt .command 0 []) ∧ (standingAt .command 0 []).closed = false ∧
    (500#32).toNat + (2147#32).toNat = (2647#32).toNat := ⟨witness_inv .., ⟨rfl, rfl⟩, rfl, by decide⟩

theorem witness_NothingStopsTheEngine :
    (Inv (standingAt .tables 0 []) ∧ ¬((standingAt .tables 0 []).phase = .command ∧ (standingAt .tables 0 []).cmds ≠ [] ∧
      (standingAt .tables 0 []).closed = true)) ∧
    { standingAt .command 0 [.stop] with closed := true }.phase = .command ∧
    { standingAt .command 0 [.stop] with closed := true }.cmds ≠ [] ∧
    Inv { standingAt .command 0 [.stop] with closed := true } := by
  refine ⟨⟨witness_inv .., by decide⟩, rfl, by decide, ?_⟩
  have h := witness_inv .command 0 [.stop]
  exact ⟨h.1, h.2, h.3, h.4, h.5, h.6, h.7, ⟨h.8.1, h.8.2, h.8.3, h.8.4⟩⟩

theorem witness_FrameIsLevelsThenPostChain :
    let d := { sidePowerOn pBlep with blep := [9223372036854775807, -1], last := 32258 }
    pSimple.synthMode = .direct ∧ pBlep.synthMode = .edge ∧ 15 < pBlep.oversample ∧
    State.reset.voices[3]? = some (voicePowerOn pSimple) ∧
    (d.blep.length = [0, (32768 : Int)].length ∧ ClockFits [0, 32768] (-32513) d) ∧
    fitsSigned 64 (d.integ.toInt + (d.blep.getD 0 0).toInt) = true ∧ d.last.toInt = 32258 :=
  ⟨rfl, rfl, by decide, rfl, ⟨rfl, by simp [AmplitudeOk], by decide⟩, by decide, by decide⟩

end Sys2Proof.Tests
end

section
/-! PROOFS. The three words the host reads: each bit of `FAULTS` and `GATES`, and the fields of `STATUS` as digits of the
number it packs (10_state.md R32 to R34). -/

namespace Sys2Proof.Machine

/-- Bit `c` of the packed bits of a list of voices is `f` of voice `c`, and 0 past the end of the list. -/
theorem channelBits_testBit (f : Channel → Bool) (vs : List Voice) (c : Nat) :
    (channelBits f vs).testBit c = (vs[c]?.map fun v => f v.ch).getD false := by
  induction vs generalizing c with
  | nil => simp [channelBits]
  | cons v rest ih =>
    cases c with
    | zero => cases h : f v.ch <;> simp [channelBits, h]
    | succ c =>
      have half : ((if f v.ch then 1 else 0) + 2 * channelBits f rest) / 2 = channelBits f rest := by split <;> omega
      rw [channelBits, Nat.testBit_add_one, half, ih, List.getElem?_cons_succ]

/-- The packed bits take one bit for each voice. -/
theorem channelBits_lt (f : Channel → Bool) (vs : List Voice) : channelBits f vs < 2 ^ vs.length := by
  induction vs with
  | nil => simp [channelBits]
  | cons v rest ih =>
    rw [channelBits, List.length_cons, Nat.pow_succ]
    split <;> omega

/-- The packed bits of up to 16 voices fit 16 bits. -/
theorem channelBits_lt_of_le (f : Channel → Bool) {vs : List Voice} (h : vs.length ≤ 16) : channelBits f vs < 2 ^ 16 :=
  (channelBits_lt f vs).trans_le (Nat.pow_le_pow_right (by decide) h)

variable {s : State}

/-- The packed bits of a state's voices are `f` of the channels there are. -/
theorem channelBits_voices_testBit (hlen : s.voices.length = s.cfg.nch) (f : Channel → Bool) (c : Nat) :
    (channelBits f s.voices).testBit c = (decide (c < s.cfg.nch) && f (s.ch c)) := by
  rw [channelBits_testBit, ← hlen]
  by_cases h : c < s.voices.length
  · simp [State.ch, State.voice, h]
  · simp [h]

theorem gatesWord_getLsbD (hlen : s.voices.length = s.cfg.nch) {c : Nat} (hc : c < 32) :
    (gatesWord s).getLsbD c = (decide (c < s.cfg.nch) && gateOf s.cfg.dialect (s.ch c)) := by
  rw [gatesWord, BitVec.getLsbD_ofNat, channelBits_voices_testBit hlen, decide_eq_true hc, Bool.true_and]

theorem faultsWord_getLsbD (s : State) {c : Nat} (hc : c < 32) :
    (faultsWord s).getLsbD c = (decide (c < s.cfg.nch) && s.faults.getLsbD c) := by
  rw [faultsWord, BitVec.getLsbD_ofNat, Nat.testBit_mod_two_pow, BitVec.testBit_toNat, decide_eq_true hc, Bool.true_and]

/-- `FAULTS` reads nonzero just when a channel there is has its bit set (10_state.md R33). -/
theorem faultsWord_ne_zero_iff (hn : s.cfg.nch ≤ 16) :
    faultsWord s ≠ 0 ↔ ∃ c, c < s.cfg.nch ∧ s.faults.getLsbD c = true := by
  constructor
  · intro h
    by_contra hno
    refine h (BitVec.eq_of_getLsbD_eq fun c hc => ?_)
    rw [faultsWord_getLsbD s hc, BitVec.ofNat_eq_ofNat, BitVec.getLsbD_zero, Bool.and_eq_false_imp]
    intro hlt
    exact Bool.eq_false_iff.mpr fun hset => hno ⟨c, of_decide_eq_true hlt, hset⟩
  · rintro ⟨c, hlt, hset⟩ h0
    have hbit := faultsWord_getLsbD s (show c < 32 by omega)
    simp [h0, hlt, hset] at hbit

theorem modeCode_le (m : Mode) : modeCode m ≤ 2 := by cases m <;> decide

theorem modeCode_eq_zero_iff (m : Mode) : modeCode m = 0 ↔ m = .idle := by cases m <;> decide

/-- `STATUS` as a number: nothing of what it packs is cut off (10_state.md R32). -/
theorem statusWord_toNat (hlen : s.voices.length ≤ 16) :
    (statusWord s).toNat =
      modeCode s.eng.mode + (if faultsWord s = 0 then 0 else 4) + 256 * channelBits (·.active) s.voices := by
  have hmode := modeCode_le s.eng.mode
  have hbits := channelBits_lt_of_le (·.active) hlen
  rw [statusWord, BitVec.toNat_ofNat]
  apply Nat.mod_eq_of_lt
  split <;> omega

/-- `STATUS[1:0]` is the mode. -/
theorem statusWord_mode (hlen : s.voices.length ≤ 16) :
    ((statusWord s).extractLsb' 0 2).toNat = modeCode s.eng.mode := by
  have hmode := modeCode_le s.eng.mode
  rw [BitVec.extractLsb'_toNat, statusWord_toNat hlen, Nat.shiftRight_zero]
  split <;> omega

/-- `STATUS[2]` is FAULT. -/
theorem statusWord_fault (hlen : s.voices.length ≤ 16) : (statusWord s).getLsbD 2 = true ↔ faultsWord s ≠ 0 := by
  have hmode := modeCode_le s.eng.mode
  rw [← BitVec.testBit_toNat, statusWord_toNat hlen, Nat.testBit_eq_decide_div_mod_eq, decide_eq_true_eq]
  split
  case isTrue h0 => simp only [h0, ne_eq, not_true_eq_false, iff_false]; omega
  case isFalse h1 => simp only [h1, ne_eq, not_false_eq_true, iff_true]; omega

theorem statusWord_low_reserved (hlen : s.voices.length ≤ 16) : (statusWord s).extractLsb' 3 5 = 0 := by
  have hmode := modeCode_le s.eng.mode
  apply BitVec.eq_of_toNat_eq
  rw [BitVec.extractLsb'_toNat, statusWord_toNat hlen, Nat.shiftRight_eq_div_pow]
  change _ = 0
  split <;> omega

theorem statusWord_high_reserved (hlen : s.voices.length ≤ 16) : (statusWord s).extractLsb' 24 8 = 0 := by
  have hmode := modeCode_le s.eng.mode
  have hbits := channelBits_lt_of_le (·.active) hlen
  apply BitVec.eq_of_toNat_eq
  rw [BitVec.extractLsb'_toNat, statusWord_toNat hlen, Nat.shiftRight_eq_div_pow]
  change _ = 0
  split <;> omega

/-- The bits of `STATUS` from 8 up are the packed `active` bits. -/
theorem statusWord_active (hlen : s.voices.length ≤ 16) (c : Nat) :
    (statusWord s).getLsbD (8 + c) = (channelBits (·.active) s.voices).testBit c := by
  have hmode := modeCode_le s.eng.mode
  have upper : (statusWord s).toNat / 2 ^ 8 = channelBits (·.active) s.voices := by
    rw [statusWord_toNat hlen]
    split <;> omega
  rw [← BitVec.testBit_toNat, Nat.add_comm, ← Nat.testBit_div_two_pow, upper]

theorem isPlayingBit_iff (hlen : s.voices.length ≤ 16) : isPlayingBit s = true ↔ s.eng.mode ≠ .idle := by
  rw [isPlayingBit, bne_iff_ne, ne_eq, ← BitVec.toNat_inj, statusWord_mode hlen]
  exact not_congr (modeCode_eq_zero_iff _)

/-- Settles O50: `FAULTS` and `GATES` bit by bit, and `STATUS` by the fields of the number it packs. -/
theorem statusFaultAndGateWords : Obligations.StatusFaultAndGateWords := by
  intro s hlen hn
  have hlen16 : s.voices.length ≤ 16 := hlen.trans_le hn
  refine ⟨?mode, (statusWord_fault hlen16).trans (faultsWord_ne_zero_iff hn), statusWord_low_reserved hlen16,
    statusWord_high_reserved hlen16, ?active, fun c hc => gatesWord_getLsbD hlen hc,
    fun c hc => faultsWord_getLsbD s hc, isPlayingBit_iff hlen16⟩
  case mode => rw [statusWord_mode hlen16]; cases s.eng.mode <;> rfl
  case active =>
    intro c _
    rw [statusWord_active hlen16, channelBits_voices_testBit hlen]

end Sys2Proof.Machine
end

section
/-! PROOFS. The configuration and the store along a step (20_memory.md R95, R96; 10_state.md R30): every step inside a
command keeps both, and of the commands only three write the store. -/

namespace Sys2Proof.Machine

/-- From `s` to `t` neither the configuration nor the store has changed. -/
structure MemoryKept (s t : State) : Prop where
  cfg : t.cfg = s.cfg
  store : t.store = s.store

variable {s t u : State}

theorem MemoryKept.trans (h : MemoryKept s t) (g : MemoryKept t u) : MemoryKept s u :=
  ⟨g.cfg.trans h.cfg, g.store.trans h.store⟩

/-- A step that goes one of two ways keeps what both ways keep. -/
theorem MemoryKept.ite {p : Prop} [Decidable p] (h : MemoryKept s t) (g : MemoryKept s u) :
    MemoryKept s (if p then t else u) := by
  split
  case isTrue => exact h
  case isFalse => exact g

/-! ## The steps of a tick and of a frame -/

theorem frameStep_keeps_memory (s : State) : MemoryKept s (frameStep s) :=
  .ite ⟨rfl, rfl⟩ (.ite ⟨rfl, rfl⟩ ⟨rfl, rfl⟩)

theorem tablesStep_keeps_memory (h : tablesStep s = .next t) : MemoryKept s t := by
  unfold tablesStep at h
  split_ifs at h
  cases h
  exact ⟨rfl, rfl⟩

theorem advanceSong_keeps_memory (s : State) : MemoryKept s s.advanceSong.1 := by
  obtain ⟨-, loads⟩ | ⟨-, -, -, wraps⟩ | ⟨-, -, ends⟩ := advanceSong_cases s
  · rw [loads]; exact ⟨rfl, rfl⟩
  · rw [wraps]; exact ⟨rfl, rfl⟩
  · rw [ends]; exact ⟨rfl, rfl⟩

theorem playRows_keeps_memory (s : State) : MemoryKept s s.playRows := .ite ⟨rfl, rfl⟩ ⟨rfl, rfl⟩

/-- Playing the current rows and moving on to the next row. -/
theorem MemoryKept.playRow (h : MemoryKept s t) : MemoryKept s t.playRows.nextRow :=
  h.trans ((playRows_keeps_memory t).trans ⟨rfl, rfl⟩)

theorem rowStep_keeps_memory (s : State) : MemoryKept s s.rowStep := by
  have reloaded : MemoryKept s { s with eng := { s.eng with rowWait := s.readByte 1 } } := ⟨rfl, rfl⟩
  have loaded := reloaded.trans (advanceSong_keeps_memory _)
  unfold State.rowStep
  refine .ite ⟨rfl, rfl⟩ (.ite ?song reloaded.playRow)
  case song =>
    dsimp only
    split
    next u ended => rw [ended] at loaded; exact loaded
    next u goesOn => rw [goesOn] at loaded; exact loaded.playRow

theorem rowPhase_keeps_memory (h : rowPhase s = .next t) : MemoryKept s t := by
  unfold rowPhase at h
  split_ifs at h
  case pos => cases h; exact ⟨rfl, rfl⟩
  case neg => cases h; exact (rowStep_keeps_memory s).trans ⟨rfl, rfl⟩

theorem runEntry_keeps_memory (s : State) : MemoryKept s (runEntry s) :=
  .ite ⟨rfl, rfl⟩ (.ite ⟨rfl, rfl⟩ ⟨rfl, rfl⟩)

/-- No instruction stores: whichever it is, it writes registers of its channel. -/
theorem exec_keeps_memory {i : Instr} (h : exec i s = .next t) : MemoryKept s t := by
  obtain ⟨f, goesOn | stops⟩ := exec_shape i s
  · rw [goesOn] at h; cases h; exact ⟨rfl, rfl⟩
  · rw [stops] at h; cases h; exact ⟨rfl, rfl⟩

theorem runTurn_keeps_memory (h : runTurn s = .next t) : MemoryKept s t := by
  obtain ⟨-, ended⟩ | ⟨-, -, runaway⟩ | ⟨-, -, i, -, runs⟩ := runTurn_cases s
  · rw [ended] at h; cases h; exact ⟨rfl, rfl⟩
  · rw [runaway] at h; cases h; exact ⟨rfl, rfl⟩
  · have counted : MemoryKept s { s with runCount := s.runCount + 1 } := ⟨rfl, rfl⟩
    exact counted.trans (exec_keeps_memory (runs ▸ h))

theorem modulateStep_keeps_memory (h : modulateStep s = .next t) : MemoryKept s t := by
  obtain ⟨-, faults⟩ | ⟨-, u, next, frame, -⟩ := modulateStep_cases s
  · rw [faults] at h; cases h
  · rw [next] at h
    cases h
    rw [frame]
    exact ⟨rfl, rfl⟩

theorem renderStep_keeps_memory (h : renderStep s = .next t) : MemoryKept s t := by
  unfold renderStep at h
  split_ifs at h
  cases h
  exact ⟨rfl, rfl⟩

/-- Inside a command no step writes the store (20_memory.md R95) or the configuration (10_state.md R30). -/
theorem step_keeps_memory (hp : s.phase ≠ .command) (h : step s = .next t) : MemoryKept s t := by
  unfold step at h
  generalize s.phase = phase at h hp
  cases phase with
  | command => exact absurd rfl hp
  | frame => cases h; exact frameStep_keeps_memory s
  | tables => exact tablesStep_keeps_memory h
  | plonks => cases h; exact ⟨rfl, rfl⟩
  | row => exact rowPhase_keeps_memory h
  | run => cases h; exact runEntry_keeps_memory s
  | fetch => exact runTurn_keeps_memory h
  | modulate => exact modulateStep_keeps_memory h
  | snapshot => cases h; exact ⟨rfl, rfl⟩
  | render => exact renderStep_keeps_memory h

/-! ## The host's commands -/

/-- The commands that write the store: `Init` and `NewSong` write the new-song image (70_reset_and_hazards.md
R411), `WriteStore` one byte (46_host.md R370). -/
def Command.WritesStore (cmd : Command) : Prop := cmd = .init ∨ cmd = .newSong ∨ ∃ a b, cmd = .writeStore a b

/-- Any other command leaves the store alone, whether it is answered or out of range (46_host.md R375). -/
theorem runCommand_keeps_memory {cmd : Command} (h : ¬cmd.WritesStore) (s : State) :
    MemoryKept s (runCommand cmd s) := by
  cases cmd with
  | init => exact absurd (.inl rfl) h
  | newSong => exact absurd (.inr (.inl rfl)) h
  | writeStore a b => exact absurd (.inr (.inr ⟨a, b, rfl⟩)) h
  | playPatternFrom | plonk | readStore => exact .ite ⟨rfl, rfl⟩ ⟨rfl, rfl⟩
  | _ => exact ⟨rfl, rfl⟩

/-- A command that writes the store keeps the configuration, as every other does. -/
theorem runCommand_cfg (cmd : Command) (s : State) : (runCommand cmd s).cfg = s.cfg := by
  by_cases writes : cmd.WritesStore
  case neg => exact (runCommand_keeps_memory writes s).cfg
  case pos =>
    obtain rfl | rfl | ⟨a, b, rfl⟩ := writes
    · rfl
    · rfl
    · exact (apply_ite State.cfg _ _ _).trans (ite_self _)

/-- Between commands the engine waits, or, in an allowed configuration and before `Shutdown`, runs the next command. -/
theorem commandStep_cases (h : commandStep s = .next t) :
    (s.cmds = [] ∧ t = s) ∨
    ∃ cmd rest, s.cmds = cmd :: rest ∧ configOk s.cfg = true ∧ s.closed = false ∧
      t = runCommand cmd { s with cmds := rest } := by
  unfold commandStep at h
  split at h
  next idle => cases h; exact .inl ⟨idle, rfl⟩
  next cmd rest issued =>
    split_ifs at h with bad closed
    cases h
    exact .inr ⟨cmd, rest, issued, by simpa using bad, by simpa using closed, rfl⟩

/-- Settles O53: a step inside a command keeps the configuration and the store; a command keeps the configuration,
and the store too unless it is one of the three that write it. -/
theorem onlyTheHostWritesTheStore : Obligations.OnlyTheHostWritesTheStore := by
  intro s t h
  by_cases hp : s.phase = .command
  case neg =>
    have kept := step_keeps_memory hp h
    exact ⟨kept.cfg, .inl kept.store⟩
  case pos =>
    have hc : commandStep s = .next t := by rwa [step, hp] at h
    obtain ⟨-, rfl⟩ | ⟨cmd, rest, issued, -, -, rfl⟩ := commandStep_cases hc
    · exact ⟨rfl, .inl rfl⟩
    · refine ⟨runCommand_cfg cmd _, ?_⟩
      by_cases writes : cmd.WritesStore
      · exact .inr ⟨cmd, rest, hp, issued, writes⟩
      · exact .inl (runCommand_keeps_memory writes _).store

end Sys2Proof.Machine
end

section
/-! PROOFS. How many bytes are one instruction, and the bytes that stand for nothing: tags outside the dialect A map,
the reserved codes of dialect B and its ignored bits (30_encoding.md R110, R114, R118). -/

namespace Sys2Proof

/-- The decoder takes bytes of the dialect's instruction width and no others. -/
theorem decode_ok_iff_length (d : Dialect) (bytes : List Byte) :
    (∃ i, decode d bytes = .ok i) ↔ bytes.length = instrWidth d := by
  cases d with
  | A =>
    match bytes with
    | [] | [_] | _ :: _ :: _ :: _ => simp [decode, instrWidth]
    | [tag, p] => exact ⟨fun _ => rfl, fun _ => ⟨decodeA tag p, rfl⟩⟩
  | B =>
    match bytes with
    | [] | _ :: _ :: _ => simp [decode, instrWidth]
    | [x] => exact ⟨fun _ => rfl, fun _ => ⟨decodeB x, rfl⟩⟩

/-- Settles O1: the length the decoder takes is the instruction width. -/
theorem lengthComesFromDialectAlone : Obligations.LengthComesFromDialectAlone := by
  intro d bytes
  rw [decode_ok_iff_length]
  cases d <;> rfl

/-! ## Dialect A: tags outside the map -/

/-- The tags of the opcode map of dialect A (30_encoding.md R112). -/
def assignedTags : List Byte :=
  [0x45#8, 0x44#8, 0x46#8, 0x49#8, 0x4A#8, 0x4C#8, 0x48#8, 0x59#8, 0x5A#8, 0x50#8, 0x42#8, 0x57#8, 0x56#8, 0x47#8,
    0x53#8, 0x4E#8, 0x41#8]

/-- A tag outside the map fails every test of the decoder. -/
theorem decodeA_of_not_mem_assignedTags {tag : Byte} (h : tag ∉ assignedTags) (p : Byte) : decodeA tag p = .aNop := by
  simp only [assignedTags, List.mem_cons, List.not_mem_nil, or_false, not_or] at h
  simp only [decodeA, h, if_false]

/-! ## Dialect B: the group 1110 and the group 1111 -/

variable {x y : Byte}

/-- The tag of four bits is the upper part of the tag of six. -/
theorem tag4_eq_of_tag6 (x : Byte) : x.extractLsb' 4 4 = (x.extractLsb' 2 6).extractLsb' 2 4 := by
  ext i hi
  have inside : 2 + i < 6 := by omega
  simp [inside, ← Nat.add_assoc]

theorem decodeB_sync (h : x.extractLsb' 2 6 = 0b111100#6) : decodeB x = .bSync (x.getLsbD 0) := by
  simp [decodeB, h]

theorem decodeB_ring (h : x.extractLsb' 2 6 = 0b111101#6) : decodeB x = .bRing (x.getLsbD 0) := by
  simp [decodeB, h]

theorem decodeB_ext (h : x.extractLsb' 2 6 = 0b111110#6) : decodeB x = .bExt (x.getLsbD 0) := by
  simp [decodeB, h]

theorem decodeB_noff (h : x.extractLsb' 2 6 = 0b111111#6) : decodeB x = .bNoff := by
  simp [decodeB, h]

/-- A byte of the group 1111 has one of the four tags of six bits. -/
theorem tag6_cases_of_group1111 (h : x.extractLsb' 4 4 = 0b1111#4) :
    x.extractLsb' 2 6 = 0b111100#6 ∨ x.extractLsb' 2 6 = 0b111101#6 ∨ x.extractLsb' 2 6 = 0b111110#6 ∨
      x.extractLsb' 2 6 = 0b111111#6 := by
  have upper : ∀ t : BitVec 6, t.extractLsb' 2 4 = 0b1111#4 →
      t = 0b111100#6 ∨ t = 0b111101#6 ∨ t = 0b111110#6 ∨ t = 0b111111#6 := by decide
  exact upper _ (tag4_eq_of_tag6 x ▸ h)

/-- In the group 1111 the tag and bit 0 alone decide: bit 1 selects nothing. -/
theorem decodeB_eq_of_group1111 (h : x.extractLsb' 4 4 = 0b1111#4) (tag : y.extractLsb' 2 6 = x.extractLsb' 2 6)
    (bit0 : y.getLsbD 0 = x.getLsbD 0) : decodeB y = decodeB x := by
  obtain sync | ring | ext | noff := tag6_cases_of_group1111 h
  · rw [decodeB_sync sync, decodeB_sync (tag.trans sync), bit0]
  · rw [decodeB_ring ring, decodeB_ring (tag.trans ring), bit0]
  · rw [decodeB_ext ext, decodeB_ext (tag.trans ext), bit0]
  · rw [decodeB_noff noff, decodeB_noff (tag.trans noff)]

/-- Flipping bit 1 keeps the tag of six bits. -/
theorem tag6_xor_bit1 (x : Byte) : (x ^^^ 0b10#8).extractLsb' 2 6 = x.extractLsb' 2 6 := by
  rw [BitVec.extractLsb'_xor, show (0b10#8).extractLsb' 2 6 = 0#6 by decide, BitVec.xor_zero]

/-- Flipping bit 1 keeps bit 0. -/
theorem bit0_xor_bit1 (x : Byte) : (x ^^^ 0b10#8).getLsbD 0 = x.getLsbD 0 := by
  rw [BitVec.getLsbD_xor, show (0b10#8).getLsbD 0 = false by decide, Bool.xor_false]

/-- The group 1110 has a tag of four bits of its own, and no tag of six bits lies in it. -/
theorem decodeB_rsvd (h : x.extractLsb' 4 4 = 0b1110#4) : decodeB x = .bRsvd := by
  have outside : ∀ t : BitVec 6, t.extractLsb' 2 4 = 0b1110#4 →
      t ≠ 0b111100#6 ∧ t ≠ 0b111101#6 ∧ t ≠ 0b111110#6 ∧ t ≠ 0b111111#6 := by decide
  obtain ⟨notSync, notRing, notExt, notNoff⟩ := outside _ (tag4_eq_of_tag6 x ▸ h)
  simp [decodeB, notSync, notRing, notExt, notNoff, h]

/-! ## The no-ops -/

namespace Machine

theorem exec_aNop (s : State) : exec .aNop s = s.continueWith advance := rfl

theorem exec_bRsvd (s : State) : exec .bRsvd s = s.continueWith advance := rfl

/-- Moving the cursor on, on a channel that exists. -/
theorem continueWith_advance {s : State} (h : s.cur < s.voices.length) :
    ∃ t, s.continueWith advance = .next t ∧
      Continues s t { s.ch s.cur with cursor := (s.ch s.cur).cursor + 1 } :=
  ⟨_, State.continueWith_eq s advance, continueWith_continues advance h⟩

end Machine

/-- Settles O4: the decoder falls through to the no-op of its dialect, and both no-ops are `advance` alone. -/
theorem unassignedCodesAreNoOps : Obligations.UnassignedCodesAreNoOps := by
  refine ⟨?tagA, ?reserved, ?bit1, ?noff, ?total, ?effect⟩
  case tagA =>
    intro tag p outside
    exact congrArg Except.ok (decodeA_of_not_mem_assignedTags outside p)
  case reserved =>
    intro x group
    exact congrArg Except.ok (decodeB_rsvd group)
  case bit1 =>
    intro x group _
    exact (decodeB_eq_of_group1111 group (tag6_xor_bit1 x) (bit0_xor_bit1 x)).symm
  case noff =>
    intro x y hx hy
    rw [decodeB_noff hx, decodeB_noff hy]
  case total =>
    intro x
    exact (decode_ok_iff_length .B [x]).mpr rfl
  case effect =>
    intro s present moved
    rw [Machine.exec_aNop, Machine.exec_bRsvd]
    exact ⟨Machine.continueWith_advance present, Machine.continueWith_advance present⟩

end Sys2Proof
end

section
/-! PROOFS. The sequencer (43_sequencer.md): the note events, the pattern effects and rows, the song's advance at a
pattern's start, and the live preview. -/

namespace Sys2Proof.Machine

variable {s t : State} {c : Config} {m : Memory} {d : Dialect} {x : Channel}

/-! ## A write to every channel -/

theorem voice_of_map {f : Voice → Voice} (h : t.voices = s.voices.map f) {k : Nat} (hk : k < s.voices.length) :
    t.voice k = f (s.voice k) := by
  simp [State.voice, h, hk]

theorem voice_of_mapIdx {f : Nat → Voice → Voice} (h : t.voices = s.voices.mapIdx f) {k : Nat}
    (hk : k < s.voices.length) : t.voice k = f k (s.voice k) := by
  simp [State.voice, h, hk]

/-! ## Note events -/

/-- A running channel of dialect B with a release point goes there and uses it up (43_sequencer.md R257). -/
theorem noteOff_released (h : d = .B ∧ x.releaseOk = true ∧ x.active = true) :
    noteOff d x = { setGate d false x with cursor := x.release, wait := 0, releaseOk := false } :=
  if_pos (by simp [h])

/-- Any other channel ends its program (43_sequencer.md R257). -/
theorem noteOff_ended (h : ¬(d = .B ∧ x.releaseOk = true ∧ x.active = true)) :
    noteOff d x = endProgram (setGate d false x) :=
  if_neg (by simpa [and_assoc] using h)

/-- Where the program goes is no part of the gate. -/
theorem gateOf_noteOff (d : Dialect) (x : Channel) : gateOf d (noteOff d x) = false := by
  by_cases released : d = .B ∧ x.releaseOk = true ∧ x.active = true
  · rw [noteOff_released released]
    exact gateOf_setGate x d false
  · rw [noteOff_ended released]
    exact gateOf_setGate x d false

/-- The note-on sets the gate in dialect A; in dialect B it clears it with CTRL (43_sequencer.md R255). -/
theorem gateOf_trigger (c : Config) (n i : Byte) (x : Channel) :
    gateOf c.dialect (trigger c n i x) = true ↔ c.dialect = .A := by
  cases dialect : c.dialect with
  | A => simp [gateOf, trigger, dialect]
  | B => simp [gateOf, trigger, channelPowerOn]

/-- Settles O27: every field but the gate is the literal of its column. -/
theorem triggerWritesTheTriggerColumn : Obligations.TriggerWritesTheTriggerColumn := by
  intro c n i x
  exact ⟨rfl, rfl, rfl, rfl, rfl, rfl, rfl, rfl, rfl, rfl, rfl, rfl, rfl, rfl, rfl, rfl, rfl, rfl, rfl, rfl, rfl, rfl,
    rfl, rfl, rfl, rfl, rfl, rfl, rfl, rfl, rfl, gateOf_trigger c n i x, rfl, rfl, rfl⟩

theorem exec_bNoff (s : State) :
    exec .bNoff s = s.stopWith fun x => { x with release := x.cursor + 1, releaseOk := true } := rfl

/-- Settles O23: the marker is one write that stops the run, and a note-off is one of its two cases on the muted
channel. -/
theorem sustainMarkerAndNoteOff : Obligations.SustainMarkerAndNoteOff := by
  refine ⟨?marker, ?off⟩
  case marker =>
    intro s present
    exact ⟨_, exec_bNoff s, stopWith_stops _ present⟩
  case off =>
    intro d x released muted
    have silenced : setGate d false x = muted := by cases d <;> rfl
    refine ⟨gateOf_noteOff d x, fun h => ?_, fun h => ?_⟩
    · rw [← silenced]; exact noteOff_released h
    · rw [← silenced]; exact noteOff_ended h

/-! ## Pattern effects -/

@[simp] theorem setKindReg_cursor (k : Kind) (b : Byte) (x : Channel) : (setKindReg k b x).cursor = x.cursor := by
  cases k <;> rfl

@[simp] theorem setBinding_cursor (k : Kind) (b : TableBinding) (x : Channel) :
    (setBinding k b x).cursor = x.cursor := by
  cases k <;> rfl

theorem bindTable_cursor (k : Kind) (n : BitVec 3) (st : BitVec 4) (x : Channel) :
    (bindTable c m k n st x).cursor = x.cursor := by
  obtain ⟨-, nothing⟩ | ⟨-, -, bound⟩ := bindTable_cases c m k n st x
  · rw [nothing]
  · rw [bound]; split <;> simp

theorem writeLitOrTable_cursor (k : Kind) (p : LitOrTable) (x : Channel) :
    (writeLitOrTable c m k p x).cursor = x.cursor := by
  cases p with
  | lit l => exact (setBinding_cursor ..).trans (setKindReg_cursor ..)
  | table n st => exact bindTable_cursor k n st x

theorem writeWave_cursor (p : WaveSelect) (x : Channel) : (writeWave c p x).cursor = x.cursor := by
  unfold writeWave
  split <;> rfl

/-- A pattern row does not own the cursor: no effect but END writes it (43_sequencer.md R259, R260). -/
theorem effectOf_cursor {i : Instr} (h : i ≠ .aEnd) (x : Channel) : (effectOf c m i x).cursor = x.cursor := by
  cases i with
  | aEnd => exact absurd rfl h
  | aDuty p | aPan p | aVol p => exact writeLitOrTable_cursor _ p x
  | aWave p => exact writeWave_cursor p x
  | _ => rfl

/-- In a program, an instruction of dialect A that is no flow instruction is its effect and the cursor's advance. -/
theorem exec_eq_advance_effectOf {i : Instr} (hA : i.dialect = .A) (hEnd : i ≠ .aEnd)
    (hFlow : ∀ p, i ≠ .aJump p ∧ i ≠ .aWait p ∧ i ≠ .aLoop p) (s : State) :
    exec i s = s.continueWith fun x => advance (effectOf s.cfg s.store i x) := by
  cases i with
  | aEnd => exact absurd rfl hEnd
  | aJump p => exact absurd rfl (hFlow p).1
  | aWait p => exact absurd rfl (hFlow p).2.1
  | aLoop p => exact absurd rfl (hFlow p).2.2
  | bCtrl | bIncp | bIncw | bSetp | bSetw | bArp | bVib | bWait | bLoop | bRsvd | bSync | bRing | bExt | bNoff =>
    cases hA
  | _ => rfl

/-- Putting the cursor back undoes its advance. -/
theorem advance_with_cursor {x : Channel} {k : Byte} (h : x.cursor = k) : { advance x with cursor := k } = x := by
  rw [← h, advance]

/-- Command 0 is no effect; any other is read as a tag of dialect A, in both dialects (30_encoding.md R122). -/
theorem execEffect_of_ne_zero {cmd : Byte} (h : cmd ≠ 0) (p : Byte) (x : Channel) :
    execEffect c m cmd p x = effectOf c m (decodeA cmd p) x := if_neg h

theorem execEffect_end (p : Byte) (x : Channel) : execEffect c m 0x45#8 p x = writeEnd c.dialect x :=
  execEffect_of_ne_zero (by decide) p x

theorem execEffect_wait (p : Byte) (x : Channel) : execEffect c m 0x57#8 p x = x :=
  execEffect_of_ne_zero (by decide) p x

theorem execEffect_loop (p : Byte) (x : Channel) : execEffect c m 0x47#8 p x = x :=
  execEffect_of_ne_zero (by decide) p x

theorem execEffect_jump (p : Byte) (x : Channel) : execEffect c m 0x4A#8 p x = x :=
  execEffect_of_ne_zero (by decide) p x

/-- A command that is no tag does nothing, command 0 among them (43_sequencer.md R260). -/
theorem execEffect_of_not_mem_assignedTags {cmd : Byte} (h : cmd ∉ assignedTags) (p : Byte) (x : Channel) :
    execEffect c m cmd p x = x := by
  by_cases zero : cmd = 0
  · exact if_pos zero
  · rw [execEffect_of_ne_zero zero, decodeA_of_not_mem_assignedTags h, effectOf]

/-- Settles O25: an instruction is its effect and the cursor's advance, and the tags of the flow instructions select
effects that leave the channel as it is, END apart. -/
theorem effectsAreInstructionsWithoutTheCursor : Obligations.EffectsAreInstructionsWithoutTheCursor := by
  refine ⟨?program, ?pattern, ?flow⟩
  case program =>
    intro i s present hA hEnd hFlow
    have kept := effectOf_cursor (c := s.cfg) (m := s.store) hEnd (s.ch s.cur)
    refine ⟨_, exec_eq_advance_effectOf hA hEnd hFlow s, ?_⟩
    rw [State.mapCh_ch_same s s.cur _ present]
    exact ⟨advance_with_cursor kept, congrArg (· + 1) kept⟩
  case pattern =>
    intro c m cmd p x effect
    exact execEffect_of_ne_zero effect p x
  case flow =>
    intro c m cmd p x
    exact ⟨execEffect_end p x, execEffect_wait p x, execEffect_loop p x, execEffect_jump p x,
      fun h => execEffect_of_not_mem_assignedTags h p x⟩

/-! ## Rows -/

theorem rowInstr_given {n : Byte} (h : 1 ≤ n.toNat ∧ n.toNat ≤ c.nins) : rowInstr c n = n := if_pos h

theorem rowInstr_none {n : Byte} (h : ¬(1 ≤ n.toNat ∧ n.toNat ≤ c.nins)) : rowInstr c n = 0 := if_neg h

/-- The channel with the instrument number a row gives, if it gives one, carried over to later rows
(43_sequencer.md R252). -/
def carryInstr (c : Config) (n : Byte) (x : Channel) : Channel :=
  if rowInstr c n = 0 then x else { x with lastInstr := rowInstr c n }

theorem carryInstr_given {n : Byte} (h : 1 ≤ n.toNat ∧ n.toNat ≤ c.nins) :
    carryInstr c n x = { x with lastInstr := n } := by
  have nonzero : n ≠ 0 := by rintro rfl; exact absurd h.1 (by decide)
  rw [carryInstr, rowInstr_given h, if_neg nonzero]

theorem carryInstr_none {n : Byte} (h : ¬(1 ≤ n.toNat ∧ n.toNat ≤ c.nins)) : carryInstr c n x = x :=
  if_pos (rowInstr_none h)

variable {r : PatternRow} {tr : Int}

theorem processNote_off (h : r.note = 0xFF#8) : processNote c r tr x = noteOff c.dialect x := if_pos h

/-- A row other than a note-off carries its instrument over, and its note sounds if there is an instrument to play it. -/
theorem processNote_of_ne_off (h : r.note ≠ 0xFF#8) :
    processNote c r tr x =
      if r.note = 0 ∨ (carryInstr c r.instr x).lastInstr = 0 then carryInstr c r.instr x
      else trigger c (clampNote c (r.note.toNat + tr)) (carryInstr c r.instr x).lastInstr (carryInstr c r.instr x) :=
  if_neg h

theorem processNote_silent (h : r.note ≠ 0xFF#8) (silent : r.note = 0 ∨ (carryInstr c r.instr x).lastInstr = 0) :
    processNote c r tr x = carryInstr c r.instr x := by
  rw [processNote_of_ne_off h, if_pos silent]

theorem processNote_sounds (h : r.note ≠ 0xFF#8) (note : r.note ≠ 0) (instr : (carryInstr c r.instr x).lastInstr ≠ 0) :
    processNote c r tr x =
      trigger c (clampNote c (r.note.toNat + tr)) (carryInstr c r.instr x).lastInstr (carryInstr c r.instr x) := by
  rw [processNote_of_ne_off h, if_neg (not_or.mpr ⟨note, instr⟩)]

/-- A note above NOTE_MAX is no note, unless it is the note-off (43_sequencer.md R243). -/
theorem readNote_eq (c : Config) (n : Byte) :
    readNote c n = if c.noteMax < n.toNat ∧ n.toNat < 0xFF then 0 else n := by
  have below : n ≠ 0xFF ↔ n.toNat < 0xFF := by bv_omega
  simp only [readNote, below]

/-- The row of a pattern that does not exist is empty (43_sequencer.md R249). -/
theorem readRow_absent {p : Nat} (h : c.npat ≤ p) (k : Nat) : readRow c m p k = emptyRow := if_neg (by omega)

theorem readRow_of_lt {p : Nat} (h : p < c.npat) (k : Nat) :
    readRow c m p k =
      let a := rowAddr c p k
      { note := readNote c (m.read a), instr := m.read (a + 1), cmd1 := m.read (a + 2), par1 := m.read (a + 3),
        cmd2 := m.read (a + 4), par2 := m.read (a + 5) } := if_pos h

/-- Settles O28: each case says what the note part leaves, and the two effects follow it. -/
theorem rowNoteThenEffects : Obligations.RowNoteThenEffects := by
  intro c m r tr x effects note given
  have row_of : ∀ {y}, processNote c r tr x = y → processRow c m r tr x = effects y := congrArg effects
  refine ⟨?off, ?instrAlone, ?empty, ?noteAndInstr, ?noteCarried, ?noteAlone, fun p k => ⟨?absent, ?read⟩⟩
  case off => exact fun off => row_of (processNote_off off)
  case instrAlone =>
    intro rest given
    have notOff : r.note ≠ 0xFF#8 := rest ▸ by decide
    exact row_of ((processNote_silent notOff (.inl rest)).trans (carryInstr_given given))
  case empty =>
    intro rest noInstr
    have notOff : r.note ≠ 0xFF#8 := rest ▸ by decide
    exact row_of ((processNote_silent notOff (.inl rest)).trans (carryInstr_none noInstr))
  case noteAndInstr =>
    intro notOff sounds given
    have carried := carryInstr_given (x := x) given
    have nonzero : r.instr ≠ 0 := fun zero => absurd given.1 (by rw [zero]; decide)
    have triggered := processNote_sounds (tr := tr) notOff sounds (by rw [carried]; exact nonzero)
    rw [carried] at triggered
    exact row_of triggered
  case noteCarried =>
    intro notOff sounds noInstr carries
    have kept := carryInstr_none (x := x) noInstr
    have triggered := processNote_sounds (tr := tr) notOff sounds (by rwa [kept])
    rw [kept] at triggered
    exact row_of triggered
  case noteAlone =>
    intro notOff _ noInstr carries
    have kept := carryInstr_none (x := x) noInstr
    exact row_of ((processNote_silent notOff (.inr (by rwa [kept]))).trans kept)
  case absent => exact fun absent => readRow_absent absent k
  case read =>
    intro present
    rw [readRow_of_lt present]
    exact ⟨readNote_eq c _, rfl, rfl, rfl, rfl, rfl⟩

/-! ## The song's advance -/

theorem songLen_le (c : Config) (m : Memory) : songLen c m ≤ 255 :=
  (Nat.min_le_left _ _).trans (by omega)

variable {row : Nat}

theorem loadSongRow_songPos (h : row < 256) : (s.loadSongRow row).eng.songPos.toNat = row := by
  simpa [State.loadSongRow] using h

theorem loadSongRow_songNext (h : row < 256) : (s.loadSongRow row).eng.songNext.toNat = row + 1 := by
  simp only [State.loadSongRow, BitVec.toNat_ofNat]
  omega

theorem loadSongRow_voice {k : Nat} (h : k < s.voices.length) :
    (s.loadSongRow row).voice k = { s.voice k with ch := loadSongCell s.cfg s.store row k (s.ch k) } :=
  voice_of_mapIdx (f := fun k v => { v with ch := loadSongCell s.cfg s.store row k v.ch }) rfl h

theorem advanceSong_next (h : s.eng.songNext.toNat < songLen s.cfg s.store) :
    s.advanceSong = (s.loadSongRow s.eng.songNext.toNat, false) := if_pos h

theorem advanceSong_wraps (past : songLen s.cfg s.store ≤ s.eng.songNext.toNat) (loop : s.readByte 2 ≠ 0)
    (rows : 0 < songLen s.cfg s.store) : s.advanceSong = (s.loadSongRow 0, false) :=
  (if_neg past.not_gt).trans (if_pos ⟨loop, rows⟩)

theorem advanceSong_ends (past : songLen s.cfg s.store ≤ s.eng.songNext.toNat)
    (ended : s.readByte 2 = 0 ∨ songLen s.cfg s.store = 0) : s.advanceSong = (s.stopAll, true) := by
  refine (if_neg past.not_gt).trans (if_neg ?_)
  rintro ⟨loop, rows⟩
  exact ended.elim loop rows.ne'

/-! ## The row step -/

/-- The row wait starts again from TEMPO (43_sequencer.md R245). -/
def State.reloadWait (s : State) : State := { s with eng := { s.eng with rowWait := s.readByte 1 } }

/-- One channel's row `row` of the pattern it plays (43_sequencer.md R245). -/
def playVoice (c : Config) (m : Memory) (row : Nat) (v : Voice) : Voice :=
  { v with ch := processRow c m (readRow c m v.ch.seqPat.toNat row) v.ch.seqTr.toInt v.ch }

theorem playRows_song (h : s.eng.mode = .song) :
    s.playRows = { s with voices := s.voices.map (playVoice s.cfg s.store s.eng.row.toNat) } :=
  if_neg (by rw [h]; nofun)

theorem nextRow_start (h : s.eng.row = 0) :
    s.nextRow = { s with eng := { s.eng with row := BitVec.ofNat 8 (1 % s.cfg.patLen) } } := by
  rw [State.nextRow, h]
  rfl

/-- Row 0 in SONG mode: every channel plays it, and the row advances (43_sequencer.md R245). -/
theorem playRows_nextRow_start (mode : s.eng.mode = .song) (start : s.eng.row = 0) :
    s.playRows.nextRow =
      { s with
        eng := { s.eng with row := BitVec.ofNat 8 (1 % s.cfg.patLen) }
        voices := s.voices.map (playVoice s.cfg s.store 0) } := by
  rw [playRows_song mode, start]
  exact nextRow_start start

/-- A row that is due at a pattern's start in SONG mode first advances the song; a song that ended plays nothing
(43_sequencer.md R245). -/
theorem rowStep_patternStart (wait : s.eng.rowWait = 0) (mode : s.eng.mode = .song) (start : s.eng.row = 0) :
    s.rowStep = if s.reloadWait.advanceSong.2 then s.reloadWait.advanceSong.1
      else s.reloadWait.advanceSong.1.playRows.nextRow := by
  unfold State.rowStep State.reloadWait
  rw [if_neg (not_not.mpr wait)]
  dsimp only
  rw [if_pos ⟨mode, start⟩]
  split
  next u ended => rw [ended]; rfl
  next u goesOn => rw [goesOn]; rfl

theorem rowStep_songEnd (wait : s.eng.rowWait = 0) (mode : s.eng.mode = .song) (start : s.eng.row = 0)
    (advanced : s.reloadWait.advanceSong = (t, true)) : s.rowStep = t := by
  rw [rowStep_patternStart wait mode start, advanced]
  rfl

/-- Row 0 of the song row just loaded is played. -/
theorem rowStep_songRow (wait : s.eng.rowWait = 0) (mode : s.eng.mode = .song) (start : s.eng.row = 0)
    (advanced : s.reloadWait.advanceSong = (s.reloadWait.loadSongRow row, false)) :
    s.rowStep =
      let u := s.reloadWait.loadSongRow row
      { u with
        eng := { u.eng with row := BitVec.ofNat 8 (1 % s.cfg.patLen) }
        voices := u.voices.map (playVoice s.cfg s.store 0) } := by
  rw [rowStep_patternStart wait mode start, advanced]
  exact playRows_nextRow_start mode start

theorem step_row (hp : s.phase = .row) : step s = rowPhase s := by rw [step, hp]

/-- Tick step 3 while the sequencer runs and its row is a row of the pattern. -/
theorem rowPhase_of_running (mode : s.eng.mode ≠ .idle) (inside : s.eng.row.toNat < s.cfg.patLen) :
    rowPhase s = .next { s.rowStep with cur := 0, phase := .run } := by
  simp [rowPhase, mode, inside]

/-- Settles O30: `AdvanceSong` by its three cases, and tick step 3 as the same three cases after the wait is reloaded,
which the song's advance does not read. -/
theorem advanceSongLoadsWrapsOrEnds : Obligations.AdvanceSongLoadsWrapsOrEnds := by
  intro s len next loaded loads plays
  have short : len ≤ 255 := songLen_le s.cfg s.store
  have loads_of : ∀ {r}, r < 256 → s.advanceSong = (s.loadSongRow r, false) → loads r := by
    intro r inside advanced
    exact ⟨_, advanced, loadSongRow_songPos inside, loadSongRow_songNext inside, rfl, State.loadSongRow_length s r,
      fun c hc => loadSongRow_voice hc⟩
  refine ⟨fun h => loads_of (by omega) (advanceSong_next h),
    fun past loop rows => loads_of (by decide) (advanceSong_wraps past loop rows),
    fun past ended => advanceSong_ends past ended, ?_⟩
  intro hp mode wait start patLen
  have stepped : step s = .next { s.rowStep with cur := 0, phase := .run } := by
    rw [step_row hp]
    exact rowPhase_of_running (by rw [mode]; nofun) (by rw [start]; exact patLen)
  have plays_of : ∀ {r}, r < 256 → s.reloadWait.advanceSong = (s.reloadWait.loadSongRow r, false) → plays r := by
    intro r inside advanced
    rw [rowStep_songRow wait mode start advanced] at stepped
    refine ⟨_, stepped, loadSongRow_songPos (s := s) inside, loadSongRow_songNext (s := s) inside, rfl,
      (List.length_map ..).trans (State.loadSongRow_length ..), fun c hc => ?_⟩
    have there : c < (s.reloadWait.loadSongRow r).voices.length := hc.trans_eq (State.loadSongRow_length ..).symm
    exact (voice_of_map rfl there).trans (congrArg (playVoice s.cfg s.store 0) (loadSongRow_voice hc))
  refine ⟨fun h => plays_of (by omega) (advanceSong_next h),
    fun past loop rows => plays_of (by decide) (advanceSong_wraps past loop rows), fun past ended => ?_⟩
  rw [rowStep_songEnd wait mode start (advanceSong_ends past ended)] at stepped
  exact stepped

/-! ## The live preview -/

/-- What a latched event does to its channel (43_sequencer.md R265). -/
def previewed (c : Config) : Plonk → Channel → Channel
  | .none, x => x
  | .off, x => noteOff c.dialect x
  | .on note instr, x =>
    if 1 ≤ note.toNat ∧ note.toNat ≤ c.noteMax ∧ 1 ≤ instr.toNat ∧ instr.toNat ≤ c.nins then trigger c note instr x
    else x

/-- The latched event is applied to the channel and the latch is cleared. -/
theorem applyPlonk_eq (c : Config) (v : Voice) :
    applyPlonk c v = { v with ch := previewed c v.plonk v.ch, plonk := .none } := by
  obtain ⟨ch, osc, latch, left, right⟩ := v
  cases latch with
  | none => rfl
  | off => rfl
  | on note instr =>
    simp only [applyPlonk, previewed]
    split <;> rfl

theorem applyPlonk_none {v : Voice} (h : v.plonk = .none) : applyPlonk c v = v := by
  rw [applyPlonk, h]

theorem latchPlonk_voice_other {k j : Nat} (h : j ≠ k) (e : Plonk) : (s.latchPlonk k e).voice j = s.voice j := by
  simp [State.voice, State.latchPlonk, List.getD_eq_getElem?_getD, h.symm]

theorem latchPlonk_voice_same {k : Nat} (h : k < s.voices.length) (e : Plonk) :
    (s.latchPlonk k e).voice k = { s.voice k with plonk := e } := by
  simp [State.voice, State.latchPlonk, List.getD_eq_getElem?_getD, h]

/-- Between commands, in an allowed configuration and before `Shutdown`, the next command runs. -/
theorem step_command {cmd : Command} {rest : List Command} (hp : s.phase = .command) (hopen : s.closed = false)
    (hcfg : configOk s.cfg = true) (issued : s.cmds = cmd :: rest) :
    step s = .next (runCommand cmd { s with cmds := rest }) := by
  simp [step, hp, commandStep, issued, hcfg, hopen]

theorem runCommand_plonk {k : Nat} (h : k < s.cfg.nch) (note instr : BitVec 8) (down : Bool) :
    runCommand (.plonk note k instr down) s =
      (s.latchPlonk k (if down then .on note instr else .off)).answer .ok := if_pos h

theorem step_plonks (hp : s.phase = .plonks) : step s = .next (plonksStep s) := by rw [step, hp]

theorem plonksStep_voice {k : Nat} (h : k < s.voices.length) :
    (plonksStep s).voice k = { s.voice k with ch := previewed s.cfg (s.voice k).plonk (s.ch k), plonk := .none } :=
  (voice_of_map rfl h).trans (applyPlonk_eq s.cfg _)

/-- Settles O31: the command writes the latch and nothing else, and tick step 2 applies and clears every latch. -/
theorem plonksAreLatchedThenAppliedAtTheTick : Obligations.PlonksAreLatchedThenAppliedAtTheTick := by
  refine ⟨?latched, ?applied⟩
  case latched =>
    intro s note instr c down rest hp hopen hcfg issued hc present
    have latches := runCommand_plonk (s := { s with cmds := rest }) hc note instr down
    exact ⟨_, (step_command hp hopen hcfg issued).trans (congrArg _ latches), rfl,
      fun k hk => latchPlonk_voice_other (s := s) hk _, latchPlonk_voice_same (s := s) present _⟩
  case applied =>
    intro s hp
    refine ⟨plonksStep s, step_plonks hp, rfl, List.length_map .., fun c hc => ?_⟩
    have voice := plonksStep_voice hc
    have ch : (plonksStep s).ch c = previewed s.cfg (s.voice c).plonk (s.ch c) := congrArg Voice.ch voice
    refine ⟨by rw [voice], by rw [voice], ?none, ?off, ?on⟩
    case none =>
      intro empty
      exact (voice_of_map rfl hc).trans (applyPlonk_none empty)
    case off => intro off; rw [ch, off, previewed]
    case on =>
      intro note instr on
      rw [ch, on]
      exact ⟨fun valid => if_pos valid, fun invalid => if_neg invalid⟩

end Sys2Proof.Machine
end

section
/-! PROOFS. The per-tick modulation (44_oscillator.md R280, R281, R288, R289, R292, R295, R296): what each stage leaves
in the register it writes, read back as an integer, and the step at `modulate`. -/

namespace Sys2Proof.Machine

variable {s t : State} {c : Config} {v : Voice}

/-! ## Clamped registers -/

/-- A register as wide as its clamp holds the clamped value exactly. -/
theorem ofInt_clamp_toNat {w : Nat} (n : Int) {hi : Int} (h0 : 0 ≤ hi) (h1 : hi < 2 ^ w) :
    ((BitVec.ofInt w (clamp n 0 hi)).toNat : Int) = clamp n 0 hi :=
  have range := clamp_range n 0 hi h0
  ofInt_toNat _ range.1 (range.2.trans_lt h1)

/-- A signed register as wide as its clamp holds the clamped value exactly. -/
theorem ofInt_clamp_toInt {w : Nat} (n : Int) {lo hi : Int} (h : lo ≤ hi) (h0 : -2 ^ w ≤ lo) (h1 : hi < 2 ^ w) :
    (BitVec.ofInt (w + 1) (clamp n lo hi)).toInt = clamp n lo hi :=
  have range := clamp_range n lo hi h
  BitVec.toInt_ofInt_eq_self (Nat.succ_pos w) (h0.trans range.1) (range.2.trans_lt h1)

/-! ## The stages of a tick's modulation -/

/-- The volume stops at 0 and 255 (44_oscillator.md R288). -/
theorem fadeVolume_vol (x : Channel) :
    ((fadeVolume x).vol.toNat : Int) = min (max (x.vol.toNat + x.fade.toInt) 0) 255 :=
  ofInt_clamp_toNat _ (by decide) (by decide)

/-- The bend accumulator saturates at 32 bits (44_oscillator.md R289). -/
theorem bendPitch_bendAcc (x : Channel) :
    (bendPitch x).bendAcc.toInt = min (max (x.bendAcc.toInt + 256 * x.bendRate.toInt) (-2 ^ 31)) (2 ^ 31 - 1) :=
  ofInt_clamp_toInt _ (by decide) (by decide) (by decide)

/-- The vibrato phase wraps (44_oscillator.md R292). -/
theorem advanceVibrato_vibPhase (x : Channel) :
    (advanceVibrato x).vibPhase.toNat = (x.vibPhase.toNat + x.vibRate.toNat) % 256 :=
  BitVec.toNat_add ..

/-- The pitch envelope saturates at 16 bits (44_oscillator.md R295). -/
theorem stepEnvelopes_pitchEnv (x : Channel) :
    (stepEnvelopes x).pitchEnv.toInt = min (max (x.pitchEnv.toInt + 16 * x.pitchRate.toInt) (-32768)) 32767 :=
  ofInt_clamp_toInt _ (by decide) (by decide) (by decide)

/-- The pulse width stops at 0 and 4095 (44_oscillator.md R295). -/
theorem stepEnvelopes_pw (x : Channel) :
    ((stepEnvelopes x).pw.toNat : Int) = min (max (x.pw.toNat + 16 * x.pwRate.toInt) 0) 4095 :=
  ofInt_clamp_toNat _ (by decide) (by decide)

/-- The frequency saturates at 16 bits (44_oscillator.md R281). -/
theorem frequencyB_toNat (c : Config) (x : Channel) :
    ((frequencyB c x).toNat : Int) =
      min (max (freqBAt c x.progNote + x.pitchEnv.toInt +
        sineAt c x.vibPhase * x.vibDepth.toNat * freqBAt c x.progNote / 2 ^ 18) 0) 65535 :=
  ofInt_clamp_toNat _ (by decide) (by decide)

/-! ## The latch of dialect B -/

/-- The two bytes of a word, the low one first, give the word back (20_memory.md R83). -/
theorem packLE_toNat (p : BitVec 16) : (packLE p).1.toNat + 256 * (packLE p).2.toNat = p.toNat := by
  have fits := p.isLt
  simp only [packLE, BitVec.extractLsb'_toNat, Nat.shiftRight_eq_div_pow]
  omega

theorem latchB_frequency (f : BitVec 16) (pw : BitVec 12) (o : Osc) :
    ((latchB f pw o).reg0.toNat : Int) + 256 * (latchB f pw o).reg1.toNat = f.toNat := by
  exact_mod_cast packLE_toNat f

theorem latchB_pulseWidth (f : BitVec 16) (pw : BitVec 12) (o : Osc) :
    (latchB f pw o).reg2.toNat + 256 * (latchB f pw o).reg3.toNat = pw.toNat :=
  (packLE_toNat _).trans (BitVec.toNat_setWidth_of_le (by decide))

/-- The high byte of the pulse width is its upper 4 bits (44_oscillator.md R296). -/
theorem latchB_reg3_lt (f : BitVec 16) (pw : BitVec 12) (o : Osc) : (latchB f pw o).reg3.toNat < 16 := by
  have bytes := latchB_pulseWidth f pw o
  have fits := pw.isLt
  omega

/-- The oscillator's step is 256 times the frequency (44_oscillator.md R296). -/
theorem latchB_step (f : BitVec 16) (pw : BitVec 12) (o : Osc) : (latchB f pw o).step.toNat = 256 * f.toNat := by
  have fits := f.isLt
  rw [latchB, BitVec.toNat_shiftLeft, BitVec.toNat_setWidth, Nat.shiftLeft_eq]
  omega

/-- Settles O37: each register that `modulateB` writes is one stage's, and every other field is kept. -/
theorem dialectBEnvelopesAndLatch : Obligations.DialectBEnvelopesAndLatch := by
  intro c v w base sine f
  have latched : f = (frequencyB c (stepEnvelopes (fadeVolume v.ch))).toNat := latchB_frequency _ _ v.osc
  refine ⟨⟨rfl, rfl, rfl⟩, ⟨fadeVolume_vol v.ch, rfl⟩, stepEnvelopes_pitchEnv _, stepEnvelopes_pw _,
    latched.trans (frequencyB_toNat c _), latchB_pulseWidth _ _ _, latchB_reg3_lt _ _ _, ?step⟩
  case step =>
    rw [latched]
    exact_mod_cast latchB_step _ _ v.osc

/-! ## The step at `modulate` -/

theorem modulateVoice_A (h : c.dialect = .A) (v : Voice) : modulateVoice c v = modulateA c v := by
  rw [modulateVoice, h]

theorem modulateVoice_B (h : c.dialect = .B) (v : Voice) : modulateVoice c v = modulateB c v := by
  rw [modulateVoice, h]

theorem modulateA_ch (c : Config) (v : Voice) :
    (modulateA c v).ch = advanceVibrato (bendPitch (fadeVolume v.ch)) := rfl

theorem modulateB_ch (c : Config) (v : Voice) :
    (modulateB c v).ch = advanceVibrato (stepEnvelopes (fadeVolume v.ch)) := rfl

/-- In either dialect the volume moves by the fade. -/
theorem modulateVoice_vol (c : Config) (v : Voice) :
    ((modulateVoice c v).ch.vol.toNat : Int) = min (max (v.ch.vol.toNat + v.ch.fade.toInt) 0) 255 := by
  cases dialect : c.dialect with
  | A => rw [modulateVoice_A dialect, modulateA_ch]; exact fadeVolume_vol v.ch
  | B => rw [modulateVoice_B dialect, modulateB_ch]; exact fadeVolume_vol v.ch

/-- In either dialect the vibrato phase moves by its rate. -/
theorem modulateVoice_vibPhase (c : Config) (v : Voice) :
    (modulateVoice c v).ch.vibPhase.toNat = (v.ch.vibPhase.toNat + v.ch.vibRate.toNat) % 256 := by
  cases dialect : c.dialect with
  | A => rw [modulateVoice_A dialect, modulateA_ch]; exact advanceVibrato_vibPhase _
  | B => rw [modulateVoice_B dialect, modulateB_ch]; exact advanceVibrato_vibPhase _

theorem voice_of_modify_same {f : Voice → Voice} {k : Nat} (h : t.voices = s.voices.modify k f)
    (hk : k < s.voices.length) : t.voice k = f (s.voice k) := by
  simp [State.voice, h, hk]

theorem voice_of_modify_other {f : Voice → Voice} {k j : Nat} (h : t.voices = s.voices.modify k f)
    (cfg : t.cfg = s.cfg) (hj : j ≠ k) : t.voice j = s.voice j := by
  simp [State.voice, h, cfg, List.getD_eq_getElem?_getD, Ne.symm hj]

/-- Settles O35: the step is the modulation of the current channel, whose registers the stages above give. -/
theorem fadeBendAndVibratoPhaseEachTick : Obligations.FadeBendAndVibratoPhaseEachTick := by
  intro s hp present note x
  obtain ⟨above, -⟩ | ⟨-, t, next, frame, -⟩ := modulateStep_cases s
  case inl => omega
  case inr =>
    have cfg : t.cfg = s.cfg := by rw [frame]
    have voices : t.voices = s.voices.modify s.cur (modulateVoice s.cfg) := by rw [frame]
    have voice : t.voice s.cur = modulateVoice s.cfg (s.voice s.cur) := voice_of_modify_same voices present
    have ch : t.ch s.cur = (modulateVoice s.cfg (s.voice s.cur)).ch := congrArg Voice.ch voice
    refine ⟨t, by rw [step, hp, next], fun j hj => voice_of_modify_other voices cfg hj, by rw [voices]; exact frame,
      by rw [voices, List.length_modify], fun A => voice.trans (modulateVoice_A A _),
      fun B => voice.trans (modulateVoice_B B _), ch ▸ modulateVoice_vol _ _, fun A => ?bendA, fun B => ?bendB,
      ch ▸ modulateVoice_vibPhase _ _⟩
    case bendA =>
      rw [ch, modulateVoice_A A, modulateA_ch]
      exact bendPitch_bendAcc _
    case bendB =>
      rw [ch, modulateVoice_B B, modulateB_ch]
      rfl

end Sys2Proof.Machine
end

section
/-! PROOFS. The one fault, RUNAWAY (60_exceptions.md R390): when a run's program is not over, and what taking the fault
leaves in `FAULTS`. -/

namespace Sys2Proof.Machine

variable {s : State}

/-- A program goes on just when the channel has an instrument and its cursor is before the program's end
(40_interpreter.md R151). -/
theorem programOver_eq_false_iff :
    programOver s = false ↔
      (s.ch s.cur).instr ≠ 0 ∧ (s.ch s.cur).instr.toNat ≤ s.cfg.nins ∧
        (s.ch s.cur).cursor.toNat < progLen s.cfg s.store (s.ch s.cur).instr.toNat := by
  simp [programOver, and_assoc]

/-- A run at the step limit whose program goes on takes RUNAWAY. -/
theorem runTurn_of_stepLimit (goesOn : programOver s = false) (limit : s.runCount = s.cfg.stepLimit) :
    runTurn s = .next s.raiseRunaway := by
  obtain ⟨ended, -⟩ | ⟨-, -, runaway⟩ | ⟨-, below, -⟩ := runTurn_cases s
  · rw [goesOn] at ended; contradiction
  · exact runaway
  · contradiction

/-- RUNAWAY sets the current channel's bit of `FAULTS` and keeps the other bits. -/
theorem raiseRunaway_faults_getLsbD (present : s.cur < 16) (c : Nat) :
    s.raiseRunaway.faults.getLsbD c = (s.faults.getLsbD c || decide (c = s.cur)) := by
  have bit : (1#16 <<< s.cur).getLsbD c = decide (c = s.cur) := by
    rw [← BitVec.twoPow_eq, BitVec.getLsbD_twoPow, decide_eq_true present, Bool.true_and, decide_eq_decide]
    exact eq_comm
  rw [State.raiseRunaway_faults, BitVec.getLsbD_or, bit]

/-- Settles O10: the program is not over and the run stands at its limit, so the turn takes RUNAWAY, which writes only
`FAULTS` and where the command stands. -/
theorem runawayIsRecordedAndEndsTheRun : Obligations.RunawayIsRecordedAndEndsTheRun := by
  intro s fetch _ present x instrument inRange inProgram limit
  have goesOn : programOver s = false := programOver_eq_false_iff.mpr ⟨instrument, inRange, inProgram⟩
  refine ⟨s.raiseRunaway, ?_, rfl, raiseRunaway_faults_getLsbD present⟩
  rw [step, fetch]
  exact runTurn_of_stepLimit goesOn limit

end Sys2Proof.Machine
end

section
/-! PROOFS. Power-on reset (70_reset_and_hazards.md R410, R411): what each register file and memory holds at power-on, and
`Init` as that reset. -/

namespace Sys2Proof.Machine

/-! ## Power-on -/

/-- Every channel is at power-on, one that does not exist too (log entry 21). -/
@[simp] theorem State.powerOn_voice (c : Config) (k : Nat) : (State.powerOn c).voice k = voicePowerOn c := by
  rw [State.voice, List.getD_eq_getElem?_getD]
  by_cases present : k < c.nch
  · simp [State.powerOn, present]
  · simp [State.powerOn, Nat.le_of_not_lt present]

/-- The store at power-on is the new-song image (70_reset_and_hazards.md R411). -/
theorem State.powerOn_readByte (c : Config) (a : Nat) : (State.powerOn c).readByte a = newSongByte a := rfl

/-- Nothing is listed in a delay line at power-on, so every cell reads 0 (10_state.md R62). -/
theorem delayPowerOn_blank (a : Nat) :
    sparseGet delayBlank delayPowerOn.left a = 0 ∧ sparseGet delayBlank delayPowerOn.right a = 0 := ⟨rfl, rfl⟩

/-- A buffer that is there only under a condition, and then blank, holds nothing but its blank value. -/
theorem eq_of_mem_ite_replicate {α : Type} {p : Prop} [Decidable p] {n : Nat} {blank b : α}
    (h : b ∈ if p then List.replicate n blank else []) : b = blank := by
  split at h
  next there => exact List.eq_of_mem_replicate h
  next absent => cases h

/-- The accumulators and both filter histories of a side at power-on hold only 0, in either synthesis mode and with or
without the filter bank (10_state.md R60, R61). -/
theorem sidePowerOn_cells_zero (c : Config) :
    (∀ b ∈ (sidePowerOn c).blep, b = 0) ∧ (∀ b ∈ (sidePowerOn c).firh, b = 0) ∧ ∀ b ∈ (sidePowerOn c).firl, b = 0 :=
  ⟨fun _ => eq_of_mem_ite_replicate, fun _ => eq_of_mem_ite_replicate, fun _ => eq_of_mem_ite_replicate⟩

/-! ## `Init` -/

/-- `Init` is power-on reset under the same configuration; the host's later commands stay, and it answers OK. -/
theorem step_init {s : State} {rest : List Command} (hp : s.phase = .command) (hopen : s.closed = false)
    (hcfg : configOk s.cfg = true) (issued : s.cmds = .init :: rest) :
    step s = .next { State.powerOn s.cfg with cmds := rest, reply := some .ok } := by
  rw [step_command hp hopen hcfg issued, runCommand, State.init, State.answer, hopen]
  rfl

/-- Settles O52: `Init` is power-on reset (`step_init`), whose registers and memories are read off one file at a time. -/
theorem initIsPowerOnReset : Obligations.InitIsPowerOnReset := by
  intro s rest hp issued hopen hcfg
  refine ⟨_, step_init hp hopen hcfg issued, rfl, rfl, rfl, rfl, rfl, List.length_replicate, rfl, delayPowerOn_blank,
    State.powerOn_readByte s.cfg, fun k _ => ?channel⟩
  case channel =>
    have voice : State.voice { State.powerOn s.cfg with cmds := rest, reply := some .ok } k = voicePowerOn s.cfg :=
      State.powerOn_voice s.cfg k
    rw [State.ch, voice]
    refine ⟨by simp [voicePowerOn, channelPowerOn], rfl, rfl, fun side either => ?side⟩
    case side =>
      obtain rfl : side = sidePowerOn s.cfg := either.elim id id
      exact ⟨rfl, rfl, sidePowerOn_cells_zero s.cfg⟩

end Sys2Proof.Machine
end

section
/-! PROOFS. Decoding and encoding (30_encoding.md R111 to R118): the parameter forms of dialect A, the opcode table of
dialect B line by line, and that the encoder's bytes decode to the instruction they were written from. -/

namespace Sys2Proof

/-! ## Dialect A: the parameter forms -/

variable {p : Byte}

theorem readLT_lit (h : p.getLsbD 7 = false) : readLT p = .lit (p.extractLsb' 0 7) :=
  if_neg (by rw [h]; exact Bool.false_ne_true)

theorem readLT_table (h : p.getLsbD 7 = true) : readLT p = .table (p.extractLsb' 4 3) (p.extractLsb' 0 4) := if_pos h

/-- The LT form reads back what it wrote (30_encoding.md R113). -/
theorem readLT_writeLT (p : LitOrTable) : readLT (writeLT p) = p := by
  cases p with
  | lit l =>
    have bit7 : (0#1 ++ l).getLsbD 7 = false := BitVec.getLsbD_append
    exact (readLT_lit bit7).trans (congrArg _ BitVec.extractLsb'_append_eq_right)
  | table t st =>
    have bit7 : (1#1 ++ t ++ st).getLsbD 7 = true :=
      BitVec.getLsbD_append.trans BitVec.getLsbD_append
    have table : (1#1 ++ t ++ st).extractLsb' 4 3 = t :=
      (BitVec.extractLsb'_append_eq_of_le (Nat.le_refl 4)).trans BitVec.extractLsb'_append_eq_right
    have stretch : (1#1 ++ t ++ st).extractLsb' 0 4 = st := BitVec.extractLsb'_append_eq_right
    exact (readLT_table bit7).trans (congrArg₂ _ table stretch)

/-- A byte with bit 7 set is none of the four shapes, so it is a wavetable's number (30_encoding.md R113). -/
theorem readWS_table (h : p.getLsbD 7 = true) : readWS p = .table (p.extractLsb' 0 7) := by
  have notShape : p ≠ 0#8 ∧ p ≠ 1#8 ∧ p ≠ 2#8 ∧ p ≠ 3#8 := by
    refine ⟨?_, ?_, ?_, ?_⟩ <;> (rintro rfl; exact absurd h (by decide))
  obtain ⟨h0, h1, h2, h3⟩ := notShape
  rw [readWS, if_neg h0, if_neg h1, if_neg h2, if_neg h3, if_pos h]

/-- A byte that is neither a shape nor a wavetable's number is the no-op form (30_encoding.md R113). -/
theorem readWS_other (above : 4 ≤ p.toNat) (below : p.toNat < 0x80) : readWS p = .other p := by
  have bit7 : p.getLsbD 7 = false := Nat.testBit_lt_two_pow below
  have notShape : ∀ n : Byte, n.toNat < 4 → p ≠ n := by rintro n small rfl; omega
  rw [readWS, if_neg (notShape _ (by decide)), if_neg (notShape _ (by decide)), if_neg (notShape _ (by decide)),
    if_neg (notShape _ (by decide)), if_neg (by rw [bit7]; exact Bool.false_ne_true)]

/-- A well-formed WS form reads back what it wrote; the one form left out is a byte that names something else. -/
theorem readWS_writeWS {w : WaveSelect} (h : w.wf = true) : readWS (writeWS w) = w := by
  cases w with
  | pulse | saw | tri | noise => rfl
  | table n =>
    have bit7 : (1#1 ++ n).getLsbD 7 = true := BitVec.getLsbD_append
    exact (readWS_table bit7).trans (congrArg _ BitVec.extractLsb'_append_eq_right)
  | other p =>
    simp only [WaveSelect.wf, Bool.and_eq_true, decide_eq_true_eq] at h
    exact readWS_other h.1 h.2

/-- A.VDEP's parameter is the mode in bit 7 and the depth below it (30_encoding.md R112). -/
theorem vibDepthByte_fields (mode : Bool) (depth : BitVec 7) :
    (BitVec.ofBool mode ++ depth).extractLsb' 0 7 = depth ∧ (BitVec.ofBool mode ++ depth).getLsbD 7 = mode :=
  ⟨BitVec.extractLsb'_append_eq_right, BitVec.getLsbD_append.trans (by simp)⟩

/-- Settles O6: the tag selects the instruction's row, and the parameter's form reads back what it wrote. -/
theorem decodeEncodeDialectA : Obligations.DecodeEncodeDialectA := by
  intro i hA wf
  cases i with
  | aDuty p => exact congrArg (Except.ok ∘ Instr.aDuty) (readLT_writeLT p)
  | aPan p => exact congrArg (Except.ok ∘ Instr.aPan) (readLT_writeLT p)
  | aVol p => exact congrArg (Except.ok ∘ Instr.aVol) (readLT_writeLT p)
  | aWave w => exact congrArg (Except.ok ∘ Instr.aWave) (readWS_writeWS wf)
  | aVdep depth mode =>
    obtain ⟨hdepth, hmode⟩ := vibDepthByte_fields mode depth
    exact congrArg Except.ok (congrArg₂ Instr.aVdep hdepth hmode)
  | aEnd | aFade | aInert | aJump | aFlo | aFhi | aVrate | aBend | aWait | aLoop | aNote | aNrel | aNop => rfl
  | bCtrl | bIncp | bIncw | bSetp | bSetw | bArp | bVib | bWait | bLoop | bRsvd | bSync | bRing | bExt | bNoff =>
    cases hA

/-- Settles O2: each tag passes its own test of the decoder, and each parameter form reads by its ranges. -/
theorem opcodeMapOfDialectA : Obligations.OpcodeMapOfDialectA := by
  intro c tag p
  refine ⟨rfl, rfl, rfl, rfl, rfl, rfl, rfl, rfl, rfl, rfl, rfl, rfl, rfl, rfl, rfl, rfl, rfl,
    fun outside => decodeA_of_not_mem_assignedTags outside p, readLT_lit, readLT_table,
    fun h => h ▸ rfl, fun h => h ▸ rfl, fun h => h ▸ rfl, fun h => h ▸ rfl, ?table, ?absent, ?other⟩
  case table =>
    intro bit7 present
    rw [readWS_table bit7]
    exact if_pos present
  case absent =>
    intro bit7 absent
    rw [readWS_table bit7]
    exact if_neg absent.not_gt
  case other =>
    intro above below
    rw [readWS_other above below]
    rfl

/-! ## Dialect B: the opcode table -/

variable {x : Byte}

/-- Outside the group 1111 the tests on six bits fail, and the decoder goes on with those on four. -/
theorem decodeB_of_tag4 (h : x.extractLsb' 4 4 ≠ 0b1111#4) :
    decodeB x =
      if x.extractLsb' 4 4 = 0b1100#4 then .bWait (x.extractLsb' 0 4)
      else if x.extractLsb' 4 4 = 0b1101#4 then .bLoop (x.extractLsb' 0 4)
      else if x.extractLsb' 4 4 = 0b1110#4 then .bRsvd
      else if x.extractLsb' 5 3 = 0b010#3 then
        (if x.getLsbD 4 then .bIncw (x.extractLsb' 0 4) else .bIncp (x.extractLsb' 0 4))
      else if x.extractLsb' 5 3 = 0b011#3 then
        (if x.getLsbD 4 then .bSetw (x.extractLsb' 0 4) else .bSetp (x.extractLsb' 0 4))
      else if x.extractLsb' 5 3 = 0b100#3 then .bArp (x.extractLsb' 0 5)
      else if x.extractLsb' 5 3 = 0b101#3 then .bVib (x.extractLsb' 2 3) (x.extractLsb' 0 2)
      else .bCtrl (x.extractLsb' 0 6) := by
  have outside : ∀ t : BitVec 6, t.extractLsb' 2 4 ≠ 0b1111#4 →
      t ≠ 0b111100#6 ∧ t ≠ 0b111101#6 ∧ t ≠ 0b111110#6 ∧ t ≠ 0b111111#6 := by decide
  obtain ⟨notSync, notRing, notExt, notNoff⟩ := outside _ (tag4_eq_of_tag6 x ▸ h)
  rw [decodeB, if_neg notSync, if_neg notRing, if_neg notExt, if_neg notNoff]

/-- The tag of three bits is the upper part of the tag of four, and bit 4 is its lowest. -/
theorem tag3_eq_of_tag4 (x : Byte) :
    x.extractLsb' 5 3 = (x.extractLsb' 4 4).extractLsb' 1 3 ∧ x.getLsbD 4 = (x.extractLsb' 4 4).getLsbD 0 := by
  constructor
  · ext i hi
    have inside : 1 + i < 4 := by omega
    simp [inside, ← Nat.add_assoc]
  · simp

theorem tag2_eq_of_tag4 (x : Byte) : x.extractLsb' 6 2 = (x.extractLsb' 4 4).extractLsb' 2 2 := by
  ext i hi
  have inside : 2 + i < 4 := by omega
  simp [inside, ← Nat.add_assoc]

theorem decodeB_wait (h : x.extractLsb' 4 4 = 0b1100#4) : decodeB x = .bWait (x.extractLsb' 0 4) := by
  rw [decodeB_of_tag4 (by rw [h]; decide), if_pos h]

theorem decodeB_loop (h : x.extractLsb' 4 4 = 0b1101#4) : decodeB x = .bLoop (x.extractLsb' 0 4) := by
  rw [decodeB_of_tag4 (by rw [h]; decide), if_neg (by rw [h]; decide), if_pos h]

/-- A tag of four bits decides the tests on three bits and on bit 4 too. -/
theorem decodeB_incp (h : x.extractLsb' 4 4 = 0b0100#4) : decodeB x = .bIncp (x.extractLsb' 0 4) := by
  rw [decodeB_of_tag4 (by rw [h]; decide), (tag3_eq_of_tag4 x).1, (tag3_eq_of_tag4 x).2, h]
  rfl

theorem decodeB_incw (h : x.extractLsb' 4 4 = 0b0101#4) : decodeB x = .bIncw (x.extractLsb' 0 4) := by
  rw [decodeB_of_tag4 (by rw [h]; decide), (tag3_eq_of_tag4 x).1, (tag3_eq_of_tag4 x).2, h]
  rfl

theorem decodeB_setp (h : x.extractLsb' 4 4 = 0b0110#4) : decodeB x = .bSetp (x.extractLsb' 0 4) := by
  rw [decodeB_of_tag4 (by rw [h]; decide), (tag3_eq_of_tag4 x).1, (tag3_eq_of_tag4 x).2, h]
  rfl

theorem decodeB_setw (h : x.extractLsb' 4 4 = 0b0111#4) : decodeB x = .bSetw (x.extractLsb' 0 4) := by
  rw [decodeB_of_tag4 (by rw [h]; decide), (tag3_eq_of_tag4 x).1, (tag3_eq_of_tag4 x).2, h]
  rfl

/-- The tags of four bits that begin with 11 (30_encoding.md R117). -/
def tagsOfGroup11 : List (BitVec 4) := [0b1100#4, 0b1101#4, 0b1110#4, 0b1111#4]

/-- Below the group 11 no test on four bits passes, and the tag of three bits decides. -/
theorem decodeB_of_tag3 (h : ∀ t ∈ tagsOfGroup11, x.extractLsb' 4 4 ≠ t)
    (notInc : x.extractLsb' 5 3 ≠ 0b010#3) (notSet : x.extractLsb' 5 3 ≠ 0b011#3) :
    decodeB x =
      if x.extractLsb' 5 3 = 0b100#3 then .bArp (x.extractLsb' 0 5)
      else if x.extractLsb' 5 3 = 0b101#3 then .bVib (x.extractLsb' 2 3) (x.extractLsb' 0 2)
      else .bCtrl (x.extractLsb' 0 6) := by
  rw [decodeB_of_tag4 (h _ (by decide)), if_neg (h _ (by decide)), if_neg (h _ (by decide)), if_neg (h _ (by decide)),
    if_neg notInc, if_neg notSet]

theorem decodeB_arp (h : x.extractLsb' 5 3 = 0b100#3) : decodeB x = .bArp (x.extractLsb' 0 5) := by
  have below : ∀ t : BitVec 4, t.extractLsb' 1 3 = 0b100#3 → ∀ u ∈ tagsOfGroup11, t ≠ u := by
    decide
  rw [decodeB_of_tag3 (below _ ((tag3_eq_of_tag4 x).1 ▸ h)) (by rw [h]; decide) (by rw [h]; decide), if_pos h]

theorem decodeB_vib (h : x.extractLsb' 5 3 = 0b101#3) :
    decodeB x = .bVib (x.extractLsb' 2 3) (x.extractLsb' 0 2) := by
  have below : ∀ t : BitVec 4, t.extractLsb' 1 3 = 0b101#3 → ∀ u ∈ tagsOfGroup11, t ≠ u := by
    decide
  rw [decodeB_of_tag3 (below _ ((tag3_eq_of_tag4 x).1 ▸ h)) (by rw [h]; decide) (by rw [h]; decide),
    if_neg (by rw [h]; decide), if_pos h]

/-- The group 00 meets no other line of the table. -/
theorem decodeB_ctrl (h : x.extractLsb' 6 2 = 0b00#2) : decodeB x = .bCtrl (x.extractLsb' 0 6) := by
  have below : ∀ t : BitVec 4, t.extractLsb' 2 2 = 0b00#2 →
      (∀ u ∈ tagsOfGroup11, t ≠ u) ∧ t.extractLsb' 1 3 ≠ 0b010#3 ∧
        t.extractLsb' 1 3 ≠ 0b011#3 ∧ t.extractLsb' 1 3 ≠ 0b100#3 ∧ t.extractLsb' 1 3 ≠ 0b101#3 := by decide
  obtain ⟨not4, notInc, notSet, notArp, notVib⟩ := below _ (tag2_eq_of_tag4 x ▸ h)
  rw [← (tag3_eq_of_tag4 x).1] at notInc notSet notArp notVib
  rw [decodeB_of_tag3 not4 notInc notSet, if_neg notArp, if_neg notVib]

/-- Settles O3: each line of the table is one of the lemmas above. -/
theorem prefixTableOfDialectB : Obligations.PrefixTableOfDialectB := fun _ =>
  ⟨decodeB_ctrl, decodeB_incp, decodeB_incw, decodeB_setp, decodeB_setw, decodeB_arp, decodeB_vib, decodeB_wait,
    decodeB_loop, decodeB_rsvd, decodeB_sync, decodeB_ring, decodeB_ext, decodeB_noff⟩

/-- The one-bit operand of the group 1111 is bit 0 of a byte whose tag is the upper six of seven bits. -/
theorem flagByte_fields (tag : BitVec 7) (v : Bool) :
    (tag ++ BitVec.ofBool v).extractLsb' 2 6 = tag.extractLsb' 1 6 ∧ (tag ++ BitVec.ofBool v).getLsbD 0 = v :=
  ⟨BitVec.extractLsb'_append_eq_of_le (by decide), BitVec.getLsbD_append.trans (by simp)⟩

/-- B.VIB's byte is the tag, the depth and the rate (30_encoding.md R116). -/
theorem vibByte_fields (tag : BitVec 3) (d : BitVec 3) (r : BitVec 2) :
    (tag ++ d ++ r).extractLsb' 5 3 = tag ∧ (tag ++ d ++ r).extractLsb' 2 3 = d ∧
      (tag ++ d ++ r).extractLsb' 0 2 = r :=
  ⟨(BitVec.extractLsb'_append_eq_of_le (by decide)).trans BitVec.extractLsb'_append_eq_left,
    (BitVec.extractLsb'_append_eq_of_le (by decide)).trans BitVec.extractLsb'_append_eq_right,
    BitVec.extractLsb'_append_eq_right⟩

/-- Settles O7: the byte written starts with its line's tag, and the bits after it are the operand. -/
theorem decodeEncodeDialectB : Obligations.DecodeEncodeDialectB := by
  intro i hB _
  have tagged : ∀ {n k : Nat} (tag : BitVec n) (d : BitVec k), (tag ++ d).extractLsb' k n = tag :=
    fun _ _ => BitVec.extractLsb'_append_eq_left
  have operand : ∀ {n k : Nat} (tag : BitVec n) (d : BitVec k), (tag ++ d).extractLsb' 0 k = d :=
    fun _ _ => BitVec.extractLsb'_append_eq_right
  cases i with
  | bCtrl p => exact congrArg Except.ok ((decodeB_ctrl (tagged _ p)).trans (congrArg _ (operand _ p)))
  | bIncp d => exact congrArg Except.ok ((decodeB_incp (tagged _ d)).trans (congrArg _ (operand _ d)))
  | bIncw d => exact congrArg Except.ok ((decodeB_incw (tagged _ d)).trans (congrArg _ (operand _ d)))
  | bSetp v => exact congrArg Except.ok ((decodeB_setp (tagged _ v)).trans (congrArg _ (operand _ v)))
  | bSetw v => exact congrArg Except.ok ((decodeB_setw (tagged _ v)).trans (congrArg _ (operand _ v)))
  | bArp n => exact congrArg Except.ok ((decodeB_arp (tagged _ n)).trans (congrArg _ (operand _ n)))
  | bWait n => exact congrArg Except.ok ((decodeB_wait (tagged _ n)).trans (congrArg _ (operand _ n)))
  | bLoop o => exact congrArg Except.ok ((decodeB_loop (tagged _ o)).trans (congrArg _ (operand _ o)))
  | bVib d r =>
    obtain ⟨htag, hdepth, hrate⟩ := vibByte_fields 0b101#3 d r
    exact congrArg Except.ok ((decodeB_vib htag).trans (congrArg₂ _ hdepth hrate))
  | bSync v =>
    obtain ⟨htag, hflag⟩ := flagByte_fields 0b1111000#7 v
    exact congrArg Except.ok ((decodeB_sync htag).trans (congrArg _ hflag))
  | bRing v =>
    obtain ⟨htag, hflag⟩ := flagByte_fields 0b1111010#7 v
    exact congrArg Except.ok ((decodeB_ring htag).trans (congrArg _ hflag))
  | bExt v =>
    obtain ⟨htag, hflag⟩ := flagByte_fields 0b1111100#7 v
    exact congrArg Except.ok ((decodeB_ext htag).trans (congrArg _ hflag))
  | bRsvd | bNoff => rfl
  | aEnd | aDuty | aFade | aInert | aJump | aFlo | aFhi | aVdep | aVrate | aPan | aBend | aWait | aVol | aLoop | aWave
  | aNote | aNrel | aNop => cases hB

/-- Settles O5: the words are closed, and the decoder evaluates on them. -/
theorem writtenWordsDecode : Obligations.WrittenWordsDecode :=
  ⟨rfl, rfl, rfl, rfl, rfl, rfl, rfl, rfl, rfl, rfl, rfl, rfl, rfl, rfl⟩

end Sys2Proof
end

section
/-! PROOFS. What a step can do, one inversion lemma for each place where a command in progress may stand, and the
invariant of every reachable state along it (10_state.md, 20_memory.md R94). -/

namespace Sys2Proof.Machine

variable {s t : State} {c : Config} {x : Channel}

/-! ## The steps, inverted -/

/-- Every binding that is on names a table that exists, kind by kind (20_memory.md R94). -/
theorem bindingsInStore_iff :
    bindingsInStore c x = true ↔ ∀ k, (binding k x).on = true → (binding k x).t.toNat < c.ntab := by
  have one : ∀ b : TableBinding, bindingInStore c b = true ↔ (b.on = true → b.t.toNat < c.ntab) := by
    intro b
    cases on : b.on <;> simp [bindingInStore, on]
  simp only [bindingsInStore, Bool.and_eq_true, one]
  exact ⟨fun ⟨⟨vol, duty⟩, pan⟩ k => by cases k <;> assumption, fun h => ⟨⟨h .vol, h .duty⟩, h .pan⟩⟩

/-- Tick step 1 on every channel (43_sequencer.md R240). -/
def State.tablesDone (s : State) : State :=
  { s with voices := s.voices.map fun v => { v with ch := tableSteps s.cfg s.store v.ch }, phase := .plonks }

theorem tablesStep_of_bound
    (h : ∀ v ∈ s.voices, ∀ k, (binding k v.ch).on = true → (binding k v.ch).t.toNat < s.cfg.ntab) :
    tablesStep s = .next s.tablesDone :=
  if_pos (List.all_eq_true.mpr fun v hv => bindingsInStore_iff.mpr (h v hv))

theorem tablesStep_next (h : tablesStep s = .next t) : t = s.tablesDone := by
  unfold tablesStep at h
  split_ifs at h
  cases h
  rfl

/-- A row that is due away from a song pattern's start: the wait is reloaded and the rows are played. -/
theorem rowStep_rows (wait : s.eng.rowWait = 0) (rows : ¬(s.eng.mode = .song ∧ s.eng.row = 0)) :
    s.rowStep = s.reloadWait.playRows.nextRow := by
  unfold State.rowStep
  rw [if_neg (not_not.mpr wait)]
  exact if_neg rows

theorem rowStep_waits (wait : s.eng.rowWait ≠ 0) :
    s.rowStep = { s with eng := { s.eng with rowWait := s.eng.rowWait - 1 } } := if_pos wait

/-- The row step of a running sequencer waits, or plays the rows, of the song row just loaded if there is one, or ends
the song (43_sequencer.md R245, R247). -/
theorem rowStep_cases (s : State) :
    (s.eng.rowWait ≠ 0 ∧ s.rowStep = { s with eng := { s.eng with rowWait := s.eng.rowWait - 1 } }) ∨
    s.rowStep = s.reloadWait.playRows.nextRow ∨
    (∃ r, r ≤ 255 ∧ s.rowStep = (s.reloadWait.loadSongRow r).playRows.nextRow) ∨
    (s.eng.mode = .song ∧ s.eng.row = 0 ∧ songLen s.cfg s.store ≤ s.eng.songNext.toNat ∧
      (s.readByte 2 = 0 ∨ songLen s.cfg s.store = 0) ∧ s.rowStep = s.stopAll) := by
  by_cases wait : s.eng.rowWait = 0
  case neg => exact .inl ⟨wait, rowStep_waits wait⟩
  case pos =>
    by_cases start : s.eng.mode = .song ∧ s.eng.row = 0
    case neg => exact .inr (.inl (rowStep_rows wait start))
    case pos =>
      have stepped := rowStep_patternStart wait start.1 start.2
      have short := songLen_le s.cfg s.store
      obtain ⟨below, loads⟩ | ⟨-, -, -, wraps⟩ | ⟨past, spent, ends⟩ := advanceSong_cases s.reloadWait
      · rw [loads] at stepped
        exact .inr (.inr (.inl ⟨_, below.le.trans short, stepped⟩))
      · rw [wraps] at stepped
        exact .inr (.inr (.inl ⟨0, by decide, stepped⟩))
      · rw [ends] at stepped
        exact .inr (.inr (.inr ⟨start.1, start.2, past, spent, stepped⟩))

/-- Tick step 3 ends before channel 0's run, with the row step made if the sequencer runs. -/
theorem rowPhase_next (h : rowPhase s = .next t) :
    (s.eng.mode = .idle ∧ t = { s with cur := 0, phase := .run }) ∨
    (s.eng.mode ≠ .idle ∧ t = { s.rowStep with cur := 0, phase := .run }) := by
  unfold rowPhase at h
  split_ifs at h with _ idle
  · cases h; exact .inl ⟨idle, rfl⟩
  · cases h; exact .inr ⟨idle, rfl⟩

/-- A waiting channel's entry of `RunProgram` (40_interpreter.md R151). -/
def countDown (x : Channel) : Channel := { x with wait := x.wait - 1 }

/-- The entry of a run leaves the channel, starts its loop, or counts its wait down (40_interpreter.md R151). -/
theorem runEntry_cases (s : State) :
    ((s.ch s.cur).active = false ∧ runEntry s = { s with phase := .modulate }) ∨
    ((s.ch s.cur).active = true ∧ (s.ch s.cur).wait = 0 ∧ runEntry s = { s with runCount := 0, phase := .fetch }) ∨
    ((s.ch s.cur).active = true ∧ (s.ch s.cur).wait ≠ 0 ∧
      runEntry s = { s.mapCh s.cur countDown with phase := .modulate }) := by
  unfold runEntry
  cases active : (s.ch s.cur).active with
  | false => exact .inl ⟨rfl, if_pos (by rw [active]; rfl)⟩
  | true =>
    by_cases wait : (s.ch s.cur).wait = 0
    · exact .inr (.inl ⟨rfl, wait, (if_neg (by rw [active]; decide)).trans (if_pos wait)⟩)
    · exact .inr (.inr ⟨rfl, wait, (if_neg (by rw [active]; decide)).trans (if_neg wait)⟩)

/-- A wavetable that the selector names exists, so a channel plays one that exists or none (20_memory.md R94). -/
theorem waveInStore_of_waveOk (h : WaveOk c x.wave) : waveInStore c x = true := by
  unfold waveInStore playedTable
  split
  next w played =>
    split at played
    next v _ hv => cases played; exact decide_eq_true (h v hv)
    next v _ hv =>
      split_ifs at played
      cases played
      exact decide_eq_true (h v hv)
    next => cases played
  next => rfl

/-- One frame made (45_synth.md R320). -/
def State.rendered (s : State) : State :=
  { s.renderFrame.2 with
    out := s.out ++ [s.renderFrame.1]
    framesLeft := s.framesLeft - 1
    eng := { s.eng with sptCnt := s.eng.sptCnt - 1 }
    phase := .frame }

theorem renderStep_of_waves (h : ∀ v ∈ s.voices, WaveOk s.cfg v.ch.wave) : renderStep s = .next s.rendered :=
  if_pos (List.all_eq_true.mpr fun v hv => waveInStore_of_waveOk (h v hv))

theorem renderStep_next (h : renderStep s = .next t) : t = s.rendered := by
  unfold renderStep at h
  split_ifs at h
  cases h
  rfl

/-- The head of the frame loop ends the request, enters a tick, or makes a frame (45_synth.md R320). -/
theorem frameStep_cases (s : State) :
    (s.framesLeft = 0 ∧ frameStep s = { s with phase := .command, out := [], reply := some (.frames s.out) }) ∨
    (s.framesLeft ≠ 0 ∧ s.eng.sptCnt = 0 ∧ frameStep s = { s with phase := .tables }) ∨
    (s.framesLeft ≠ 0 ∧ s.eng.sptCnt ≠ 0 ∧ frameStep s = { s with phase := .render }) := by
  unfold frameStep
  by_cases done : s.framesLeft = 0
  · exact .inl ⟨done, if_pos done⟩
  · by_cases due : s.eng.sptCnt = 0
    · exact .inr (.inl ⟨done, due, (if_neg done).trans (if_pos due)⟩)
    · exact .inr (.inr ⟨done, due, (if_neg done).trans (if_neg due)⟩)

/-- An instruction writes registers of its channel, and the run goes on or ends. -/
theorem exec_next {i : Instr} (h : exec i s = .next t) :
    ∃ f p, t = { s.mapCh s.cur f with phase := p } ∧ (p = s.phase ∨ p = .modulate) := by
  obtain ⟨f, goesOn | stops⟩ := exec_shape i s
  · rw [goesOn] at h; cases h; exact ⟨f, s.phase, rfl, .inl rfl⟩
  · rw [stops] at h; cases h; exact ⟨f, .modulate, rfl, .inr rfl⟩

/-- One turn of the run loop writes registers of its channel and counts, or takes RUNAWAY at the step limit. -/
theorem runTurn_next (h : runTurn s = .next t) :
    (∃ f n p, t = { s.mapCh s.cur f with runCount := n, phase := p } ∧ (p = s.phase ∨ p = .modulate)) ∨
    (s.runCount = s.cfg.stepLimit ∧ t = s.raiseRunaway) := by
  obtain ⟨-, ended⟩ | ⟨-, limit, runaway⟩ | ⟨-, -, i, -, runs⟩ := runTurn_cases s
  · rw [ended] at h; cases h; exact .inl ⟨endProgram, s.runCount, .modulate, rfl, .inr rfl⟩
  · rw [runaway] at h; cases h; exact .inr ⟨limit, rfl⟩
  · obtain ⟨f, p, rfl, phase⟩ := exec_next (runs ▸ h)
    exact .inl ⟨f, s.runCount + 1, p, rfl, phase⟩

/-! ## The invariant: power-on and the parts of a state -/

theorem PhaseOk.between (h : s.phase = .command ∨ s.phase = .frame) : PhaseOk s := by
  obtain hp | hp := h
  · exact ⟨by simp [hp, inTick], by simp [hp, atChannel], by simp [hp], by simp [hp]⟩
  · exact ⟨by simp [hp, inTick], by simp [hp, atChannel], by simp [hp], by simp [hp]⟩

/-- A step that keeps the configuration, the memories and `FAULTS` keeps the invariant if what it writes is in range. -/
theorem Inv.next (h : Inv s) (cfg : t.cfg = s.cfg) (count : t.voices.length = s.voices.length)
    (voices : ∀ v ∈ t.voices, VoiceOk s.cfg v) (engine : EngineOk s.cfg t.eng) (store : t.store = s.store)
    (delay : t.delay = s.delay) (faults : t.faults = s.faults) (phase : PhaseOk t) : Inv t where
  config := cfg ▸ h.config
  count := by rw [cfg, count, h.count]
  voices := cfg ▸ voices
  engine := cfg ▸ engine
  store := by rw [cfg, store]; exact h.store
  delay := by rw [cfg, delay]; exact h.delay
  faults := by rw [cfg, faults]; exact h.faults
  phase := phase

/-- The host's side and where the command stands are no part of the ranges. -/
theorem Inv.sameEngine (h : Inv s) (cfg : t.cfg = s.cfg) (voices : t.voices = s.voices) (eng : t.eng = s.eng)
    (store : t.store = s.store) (delay : t.delay = s.delay) (faults : t.faults = s.faults)
    (phase : PhaseOk t) : Inv t :=
  h.next cfg (by rw [voices]) (voices ▸ h.voices) (eng ▸ h.engine) store delay faults phase

theorem EngineOk.powerOn (h : configOk c = true) : EngineOk c enginePowerOn := by
  have counts := configOk_counts h
  exact
    { row := show 0 < c.patLen by omega, songNext := show 0 ≤ 256 by omega, patCh := show 0 < c.nch by omega
      tickRem := show 0 < c.tickHz by omega }

/-- Power-on meets the invariant in every configuration that meets the constraints. -/
theorem Inv.powerOn (h : configOk c = true) : Inv (State.powerOn c) where
  config := h
  count := List.length_replicate
  voices v hv := List.eq_of_mem_replicate hv ▸ VoiceOk.powerOn
  engine := EngineOk.powerOn h
  store := StoreOk.newSong c
  delay := DelayOk.powerOn (by have := configOk_counts h; show 0 < c.dlen; omega)
  faults _ _ := BitVec.getLsbD_zero
  phase := .between (.inl rfl)

/-- Settles O55: profile P-SIMPLE meets the constraints, and power-on meets the invariant under any that do. -/
theorem powerOnMeetsTheInvariant : Obligations.PowerOnMeetsTheInvariant :=
  ⟨Inv.powerOn (show configOk pSimple = true by decide +kernel), fun _ h => Inv.powerOn h⟩

/-- A channel that exists is one of the channels. -/
theorem State.voice_mem {k : Nat} (h : k < s.voices.length) : s.voice k ∈ s.voices := by
  simp [State.voice, h]

theorem Inv.currentCh (h : Inv s) (hp : atChannel s.phase = true) : ChannelOk s.cfg (s.ch s.cur) :=
  (h.voices _ (State.voice_mem (by rw [h.count]; exact h.phase.channel hp))).ch

/-- A write to one channel that keeps its ranges keeps every channel's. -/
theorem mapCh_voicesOk {f : Channel → Channel} (h : ∀ v ∈ s.voices, VoiceOk c v)
    (hf : ∀ x, ChannelOk c x → ChannelOk c (f x)) (k : Nat) : ∀ v ∈ (s.mapCh k f).voices, VoiceOk c v := by
  intro v hv
  obtain ⟨i, hi, rfl⟩ := List.getElem_of_mem hv
  have hi' : i < s.voices.length := by simpa using hi
  have old := h _ (List.getElem_mem hi')
  simp only [State.mapCh, List.getElem_modify]
  split
  · exact ⟨hf _ old.ch, old.osc, old.left, old.right⟩
  · exact old

theorem map_ch_voicesOk {vs : List Voice} {f : Voice → Channel} (h : ∀ v ∈ vs, VoiceOk c v)
    (hf : ∀ v, ChannelOk c v.ch → ChannelOk c (f v)) :
    ∀ v ∈ vs.map fun v => { v with ch := f v }, VoiceOk c v := by
  intro v hv
  obtain ⟨u, hu, rfl⟩ := List.mem_map.mp hv
  have old := h u hu
  exact ⟨hf u old.ch, old.osc, old.left, old.right⟩

/-! ## The invariant: the sequencer -/

/-- The parts of the invariant that the sequencer may write: every channel's registers and the engine's. -/
structure SequencerOk (c : Config) (s : State) : Prop where
  voices : ∀ v ∈ s.voices, VoiceOk c v
  engine : EngineOk c s.eng

theorem SequencerOk.stopAll (h : SequencerOk c s) (hc : configOk c = true) : SequencerOk c s.stopAll where
  voices := by
    intro v hv
    obtain ⟨u, hu, rfl⟩ := List.mem_map.mp hv
    have old := h.voices u hu
    exact ⟨old.ch.stop, old.osc, old.left, old.right⟩
  engine :=
    { row := by have := configOk_counts hc; show (0 : Nat) < _; omega
      songNext := h.engine.songNext, patCh := h.engine.patCh, tickRem := h.engine.tickRem }

theorem SequencerOk.reloadWait (h : SequencerOk c s) : SequencerOk c s.reloadWait :=
  ⟨h.voices, h.engine.row, h.engine.songNext, h.engine.patCh, h.engine.tickRem⟩

theorem SequencerOk.loadSongRow (h : SequencerOk c s) {r : Nat} (hr : r ≤ 255) : SequencerOk c (s.loadSongRow r) where
  voices := by
    intro v hv
    obtain ⟨i, hi, rfl⟩ := List.mem_mapIdx.mp hv
    obtain ⟨ch, osc, left, right⟩ := h.voices _ (List.getElem_mem hi)
    exact ⟨⟨ch.1, ch.2, ch.3, ch.4, ch.5, ch.6, ch.7, ch.8⟩, osc, left, right⟩
  engine :=
    { row := h.engine.row, patCh := h.engine.patCh, tickRem := h.engine.tickRem
      songNext := by rw [loadSongRow_songNext (by omega)]; omega }

theorem SequencerOk.playRows (h : SequencerOk s.cfg s) (hc : configOk s.cfg = true) : SequencerOk s.cfg s.playRows := by
  have counts := configOk_counts hc
  have row : ∀ r tr x, ChannelOk s.cfg x → ChannelOk s.cfg (processRow s.cfg s.store r tr x) :=
    fun r tr x hx => hx.processRow r tr (by omega) (by omega)
  unfold State.playRows
  dsimp only
  split
  · exact ⟨mapCh_voicesOk h.voices (row _ _) _, h.engine⟩
  · exact ⟨map_ch_voicesOk h.voices fun v => row _ _ v.ch, h.engine⟩

theorem SequencerOk.nextRow (h : SequencerOk s.cfg s) (hc : configOk s.cfg = true) : SequencerOk s.cfg s.nextRow where
  voices := h.voices
  engine :=
    { songNext := h.engine.songNext, patCh := h.engine.patCh, tickRem := h.engine.tickRem
      row := by
        have counts := configOk_counts hc
        have inside : (s.eng.row.toNat + 1) % s.cfg.patLen < s.cfg.patLen := Nat.mod_lt _ (by omega)
        simp only [State.nextRow, BitVec.toNat_ofNat]
        omega }

/-- Playing the rows and moving on to the next row. -/
theorem SequencerOk.playRow (h : SequencerOk c s) (cfg : s.cfg = c) (hc : configOk c = true) :
    SequencerOk c s.playRows.nextRow := by
  subst cfg
  have played := h.playRows hc
  have kept := (playRows_keeps_memory s).cfg
  rw [← kept] at played hc ⊢
  exact played.nextRow hc

theorem SequencerOk.rowStep (h : SequencerOk s.cfg s) (hc : configOk s.cfg = true) : SequencerOk s.cfg s.rowStep := by
  obtain ⟨-, waits⟩ | rows | ⟨r, hr, loaded⟩ | ⟨-, -, -, -, ended⟩ := rowStep_cases s
  · rw [waits]
    exact ⟨h.voices, h.engine.row, h.engine.songNext, h.engine.patCh, h.engine.tickRem⟩
  · rw [rows]
    exact h.reloadWait.playRow rfl hc
  · rw [loaded]
    exact (h.reloadWait.loadSongRow hr).playRow rfl hc
  · rw [ended]
    exact h.stopAll hc

/-- What the row step leaves alone: everything but the channels and the engine registers, and of these the tick
timer. -/
structure RowFrame (s t : State) : Prop where
  delay : t.delay = s.delay
  faults : t.faults = s.faults
  count : t.voices.length = s.voices.length
  framesLeft : t.framesLeft = s.framesLeft
  sptCnt : t.eng.sptCnt = s.eng.sptCnt

theorem RowFrame.trans {u : State} (h : RowFrame s t) (g : RowFrame t u) : RowFrame s u :=
  ⟨g.1.trans h.1, g.2.trans h.2, g.3.trans h.3, g.4.trans h.4, g.5.trans h.5⟩

theorem playRow_frame (s : State) : RowFrame s s.playRows.nextRow := by
  unfold State.nextRow State.playRows
  dsimp only
  split
  · exact ⟨rfl, rfl, State.mapCh_length _ _ _, rfl, rfl⟩
  · exact ⟨rfl, rfl, List.length_map _, rfl, rfl⟩

theorem rowStep_frame (s : State) : RowFrame s s.rowStep := by
  have reloaded : RowFrame s s.reloadWait := ⟨rfl, rfl, rfl, rfl, rfl⟩
  obtain ⟨-, waits⟩ | rows | ⟨r, -, loaded⟩ | ⟨-, -, -, -, ended⟩ := rowStep_cases s
  · rw [waits]; exact ⟨rfl, rfl, rfl, rfl, rfl⟩
  · rw [rows]; exact reloaded.trans (playRow_frame s.reloadWait)
  · rw [loaded]
    have loads : RowFrame s.reloadWait (s.reloadWait.loadSongRow r) :=
      ⟨rfl, rfl, State.loadSongRow_length s.reloadWait r, rfl, rfl⟩
    exact (reloaded.trans loads).trans (playRow_frame _)
  · rw [ended]; exact ⟨rfl, rfl, State.stopAll_length s, rfl, rfl⟩

/-! ## The invariant: the steps inside `GetSamples` -/

theorem Inv.frameStep (h : Inv s) : Inv (frameStep s) := by
  obtain ⟨-, ended⟩ | ⟨owed, due, tick⟩ | ⟨owed, due, frame⟩ := frameStep_cases s
  · rw [ended]; exact h.sameEngine rfl rfl rfl rfl rfl rfl (.between (.inl rfl))
  · rw [tick]; exact h.sameEngine rfl rfl rfl rfl rfl rfl ⟨fun _ => ⟨owed, due⟩, nofun, nofun, nofun⟩
  · rw [frame]; exact h.sameEngine rfl rfl rfl rfl rfl rfl ⟨nofun, nofun, nofun, fun _ => ⟨owed, due⟩⟩

theorem Inv.tables (h : Inv s) (hp : s.phase = .tables) : Inv s.tablesDone :=
  h.next rfl (List.length_map _) (map_ch_voicesOk h.voices fun _ hv => hv.tableSteps) h.engine rfl rfl rfl
    ⟨fun _ => h.phase.tick (hp ▸ rfl), nofun, nofun, nofun⟩

theorem Inv.plonks (h : Inv s) (hp : s.phase = .plonks) : Inv (plonksStep s) :=
  h.next rfl (List.length_map _)
    (fun _ hv => by obtain ⟨u, hu, rfl⟩ := List.mem_map.mp hv; exact (h.voices u hu).plonk) h.engine rfl rfl rfl
    ⟨fun _ => h.phase.tick (hp ▸ rfl), nofun, nofun, nofun⟩

theorem Inv.rowPhase (h : Inv s) (hp : s.phase = .row) (hs : rowPhase s = .next t) : Inv t := by
  have tick := h.phase.tick (hp ▸ rfl)
  have channels : 0 < s.cfg.nch := by have := configOk_counts h.config; omega
  obtain ⟨-, rfl⟩ | ⟨-, rfl⟩ := rowPhase_next hs
  · exact h.sameEngine rfl rfl rfl rfl rfl rfl ⟨fun _ => tick, fun _ => channels, nofun, nofun⟩
  · have kept := rowStep_keeps_memory s
    have frame := rowStep_frame s
    have seq : SequencerOk s.cfg s.rowStep := SequencerOk.rowStep ⟨h.voices, h.engine⟩ h.config
    exact h.next kept.cfg frame.count seq.voices seq.engine kept.store frame.delay frame.faults
      ⟨fun _ => ⟨frame.framesLeft ▸ tick.1, frame.sptCnt ▸ tick.2⟩, fun _ => kept.cfg ▸ channels, nofun, nofun⟩

theorem Inv.runEntry (h : Inv s) (hp : s.phase = .run) : Inv (runEntry s) := by
  have tick := h.phase.tick (hp ▸ rfl)
  have channel := h.phase.channel (hp ▸ rfl)
  obtain ⟨-, left⟩ | ⟨-, -, starts⟩ | ⟨-, -, waits⟩ := runEntry_cases s
  · rw [left]; exact h.sameEngine rfl rfl rfl rfl rfl rfl ⟨fun _ => tick, fun _ => channel, nofun, nofun⟩
  · rw [starts]
    exact h.sameEngine rfl rfl rfl rfl rfl rfl ⟨fun _ => tick, fun _ => channel, fun _ => Nat.zero_le _, nofun⟩
  · rw [waits]
    have keeps : ∀ x, ChannelOk s.cfg x → ChannelOk s.cfg (countDown x) :=
      fun x hx => ⟨hx.1, hx.2, hx.3, hx.4, hx.5, hx.6, hx.7, hx.8⟩
    exact h.next rfl (State.mapCh_length s s.cur _) (mapCh_voicesOk h.voices keeps _) h.engine rfl rfl rfl
      ⟨fun _ => tick, fun _ => channel, nofun, nofun⟩

/-- Writes on the current channel that keep its ranges, as an instruction or the end of a program makes them. -/
theorem Inv.runWrites (h : Inv s) (hp : s.phase = .fetch) {f : Channel → Channel}
    (hf : ∀ x, ChannelOk s.cfg x → ChannelOk s.cfg (f x)) {n : Nat} {p : Phase}
    (count : p = .fetch ∧ n ≤ s.cfg.stepLimit ∨ p = .modulate) :
    Inv { s.mapCh s.cur f with runCount := n, phase := p } := by
  have tick := h.phase.tick (hp ▸ rfl)
  have channel := h.phase.channel (hp ▸ rfl)
  refine h.next rfl (State.mapCh_length _ _ _) (mapCh_voicesOk h.voices hf _) h.engine rfl rfl rfl ?_
  obtain ⟨rfl, below⟩ | rfl := count
  · exact ⟨fun _ => tick, fun _ => channel, fun _ => below, nofun⟩
  · exact ⟨fun _ => tick, fun _ => channel, nofun, nofun⟩

/-- RUNAWAY sets a bit of a channel that exists. -/
theorem Inv.raiseRunaway (h : Inv s) (hp : s.phase = .fetch) : Inv s.raiseRunaway := by
  have tick := h.phase.tick (hp ▸ rfl)
  have channel := h.phase.channel (hp ▸ rfl)
  have counts := configOk_counts h.config
  refine
    { config := h.config, count := h.count, voices := h.voices, engine := h.engine, store := h.store, delay := h.delay
      faults := fun c hc => ?_, phase := ⟨fun _ => tick, fun _ => channel, nofun, nofun⟩ }
  have past : s.cfg.nch ≤ c := hc
  have other : c ≠ s.cur := by omega
  rw [raiseRunaway_faults_getLsbD (by omega), h.faults c past, decide_eq_false other]
  rfl

theorem Inv.runTurn (h : Inv s) (hp : s.phase = .fetch) (hs : runTurn s = .next t) : Inv t := by
  obtain ⟨-, -, notes, noteMax, -⟩ := configOk_counts h.config
  obtain ⟨-, ended⟩ | ⟨-, -, runaway⟩ | ⟨-, below, i, -, runs⟩ := runTurn_cases s
  · rw [ended] at hs
    cases hs
    exact h.runWrites hp (fun _ hx => hx.endProgram) (.inr rfl)
  · rw [runaway] at hs
    cases hs
    exact h.raiseRunaway hp
  · have next : s.runCount + 1 ≤ s.cfg.stepLimit := lt_of_le_of_ne (h.phase.count hp) below
    rw [runs] at hs
    obtain ⟨f, goesOn | stops, keeps⟩ := exec_keeps_ranges i { s with runCount := s.runCount + 1 } notes noteMax
    · rw [goesOn] at hs
      cases hs
      exact h.runWrites hp keeps (.inl ⟨hp, next⟩)
    · rw [stops] at hs
      cases hs
      exact h.runWrites hp keeps (.inr rfl)

theorem Inv.modulateStep (h : Inv s) (hp : s.phase = .modulate) (hs : modulateStep s = .next t) : Inv t := by
  have tick := h.phase.tick (hp ▸ rfl)
  obtain ⟨-, faults⟩ | ⟨-, u, next, frame, place⟩ := modulateStep_cases s
  · rw [faults] at hs; cases hs
  · rw [next] at hs
    cases hs
    have voices : ∀ v ∈ s.voices.modify s.cur (modulateVoice s.cfg), VoiceOk s.cfg v := by
      intro v hv
      obtain ⟨i, hi, rfl⟩ := List.getElem_of_mem hv
      have old := h.voices _ (List.getElem_mem (by simpa using hi))
      rw [List.getElem_modify]
      split
      · exact old.modulate
      · exact old
    rw [frame]
    refine h.next rfl (List.length_modify _ _ _) voices h.engine rfl rfl rfl ?_
    obtain ⟨inside, cur, run⟩ | ⟨-, -, last⟩ := place
    · rw [cur, run]; exact ⟨fun _ => tick, fun _ => inside, nofun, nofun⟩
    · rw [last]; exact ⟨fun _ => tick, nofun, nofun, nofun⟩

/-- The next period and the remainder as numbers: neither is cut off by its register (43_sequencer.md R241). -/
theorem tickTimer_toNat (hc : configOk c = true) {e : Engine} (rem : e.tickRem.toNat < c.tickHz) :
    (tickTimer c e).sptCnt.toNat = (e.tickRem.toNat + c.fs) / c.tickHz ∧
    (tickTimer c e).tickRem.toNat = (e.tickRem.toNat + c.fs) % c.tickHz := by
  have counts := configOk_counts hc
  have period : (e.tickRem.toNat + c.fs) / c.tickHz ≤ e.tickRem.toNat + c.fs := Nat.div_le_self _ _
  have below : (e.tickRem.toNat + c.fs) % c.tickHz < c.tickHz := Nat.mod_lt _ (by omega)
  constructor
  · exact BitVec.toNat_ofNat .. |>.trans (Nat.mod_eq_of_lt (by omega))
  · exact BitVec.toNat_ofNat .. |>.trans (Nat.mod_eq_of_lt (by omega))

/-- A period is at least one frame (43_sequencer.md R242). -/
theorem tickTimer_sptCnt_pos (hc : configOk c = true) {e : Engine} (rem : e.tickRem.toNat < c.tickHz) :
    1 ≤ (tickTimer c e).sptCnt.toNat := by
  have counts := configOk_counts hc
  rw [(tickTimer_toNat hc rem).1]
  exact Nat.div_pos (by omega) (by omega)

theorem tickTimer_tickRem_lt (hc : configOk c = true) {e : Engine} (rem : e.tickRem.toNat < c.tickHz) :
    (tickTimer c e).tickRem.toNat < c.tickHz := by
  have counts := configOk_counts hc
  rw [(tickTimer_toNat hc rem).2]
  exact Nat.mod_lt _ (by omega)

theorem Inv.snapshotStep (h : Inv s) (hp : s.phase = .snapshot) : Inv (snapshotStep s) := by
  have period := tickTimer_sptCnt_pos h.config h.engine.tickRem
  refine h.next rfl rfl h.voices
    ⟨h.engine.row, h.engine.songNext, h.engine.patCh, tickTimer_tickRem_lt h.config h.engine.tickRem⟩ rfl rfl rfl
    ⟨nofun, nofun, nofun, fun _ => ⟨(h.phase.tick (hp ▸ rfl)).1, fun zero => ?_⟩⟩
  have : (tickTimer s.cfg s.eng).sptCnt = 0 := zero
  rw [this] at period
  exact absurd period (by decide)

theorem Inv.rendered (h : Inv s) : Inv s.rendered := by
  have counts := configOk_counts h.config
  obtain ⟨voices, count⟩ := renderFrame_keeps h.config h.voices
  exact
    { config := h.config, count := count.trans h.count, voices := voices
      engine := ⟨h.engine.row, h.engine.songNext, h.engine.patCh, h.engine.tickRem⟩
      store := h.store, delay := h.delay.turn _ _ (by omega), faults := h.faults, phase := .between (.inr rfl) }

/-! ## The invariant: the host's commands -/

theorem Inv.stopAll (h : Inv s) (hp : s.phase = .command) : Inv s.stopAll := by
  have seq : SequencerOk s.cfg s.stopAll := SequencerOk.stopAll ⟨h.voices, h.engine⟩ h.config
  exact h.next rfl (State.stopAll_length s) seq.voices seq.engine rfl rfl rfl (.between (.inl hp))

theorem Inv.startSong (h : Inv s) (hp : s.phase = .command) (r : BitVec 8) : Inv (s.startSong r) := by
  have stopped := h.stopAll hp
  have counts := configOk_counts h.config
  have next : (r.setWidth 9).toNat ≤ 256 := by
    have := r.isLt
    rw [BitVec.toNat_setWidth]
    omega
  exact stopped.next rfl rfl stopped.voices
    ⟨stopped.engine.row, next, stopped.engine.patCh, show (0 : Nat) < s.cfg.tickHz by omega⟩ rfl rfl rfl
    (.between (.inl hp))

theorem Inv.startPattern (h : Inv s) (hp : s.phase = .command) (p r : BitVec 8) {k : Nat} (hk : k < s.cfg.nch) :
    Inv (s.startPattern p r k) := by
  have stopped := h.stopAll hp
  have counts := configOk_counts h.config
  have inside : r.toNat % s.cfg.patLen < s.cfg.patLen := Nat.mod_lt _ (by omega)
  have row : (BitVec.ofNat 8 (r.toNat % s.cfg.patLen)).toNat < s.cfg.patLen := by
    rw [BitVec.toNat_ofNat]
    omega
  have patCh : (BitVec.ofNat 4 k).toNat < s.cfg.nch := by
    rw [BitVec.toNat_ofNat]
    omega
  exact stopped.next rfl rfl stopped.voices
    ⟨row, stopped.engine.songNext, patCh, show (0 : Nat) < s.cfg.tickHz by omega⟩ rfl rfl rfl (.between (.inl hp))

theorem Inv.silence (h : Inv s) (hp : s.phase = .command) : Inv s.silence := by
  have stopped := h.stopAll hp
  have counts := configOk_counts h.config
  refine
    { config := h.config, count := (List.length_map _).trans stopped.count, voices := fun v hv => ?_
      engine := stopped.engine, store := stopped.store, delay := DelayOk.powerOn (show 0 < s.cfg.dlen by omega)
      faults := stopped.faults, phase := .between (.inl hp) }
  obtain ⟨u, hu, rfl⟩ := List.mem_map.mp hv
  exact ⟨(stopped.voices u hu).ch, (stopped.voices u hu).osc, SideOk.powerOn, SideOk.powerOn⟩

theorem Inv.newSong (h : Inv s) (hp : s.phase = .command) : Inv s.newSong := by
  have stopped := h.stopAll hp
  exact
    { config := h.config, count := stopped.count, voices := stopped.voices, engine := stopped.engine
      store := StoreOk.newSong _, delay := stopped.delay, faults := stopped.faults, phase := .between (.inl hp) }

theorem Inv.init (h : Inv s) : Inv s.init :=
  (Inv.powerOn h.config).sameEngine rfl rfl rfl rfl rfl rfl (.between (.inl rfl))

theorem Inv.latchPlonk (h : Inv s) (hp : s.phase = .command) (k : Nat) (e : Plonk) : Inv (s.latchPlonk k e) := by
  refine h.next rfl (List.length_modify _ _ _) (fun v hv => ?_) h.engine rfl rfl rfl (.between (.inl hp))
  obtain ⟨i, hi, rfl⟩ := List.getElem_of_mem hv
  have old := h.voices _ (List.getElem_mem (show i < s.voices.length by simpa [State.latchPlonk] using hi))
  simp only [State.latchPlonk, List.getElem_modify]
  split
  · exact ⟨old.ch, old.osc, old.left, old.right⟩
  · exact old

theorem Inv.answer (h : Inv s) (hp : s.phase = .command) (r : Reply) : Inv (s.answer r) :=
  h.sameEngine rfl rfl rfl rfl rfl rfl (.between (.inl hp))

/-- A command whose argument may be out of range does its work or answers `ERR_RANGE`. -/
theorem Inv.inRangeOr {p : Prop} [Decidable p] (h : Inv s) (hp : s.phase = .command) (work : p → Inv t) :
    Inv (if p then t else s.answer .errRange) := by
  split
  next inRange => exact work inRange
  next => exact h.answer hp _

theorem Inv.runCommand (h : Inv s) (hp : s.phase = .command) (cmd : Command) : Inv (runCommand cmd s) := by
  cases cmd with
  | init => exact h.init.answer rfl _
  | shutdown => exact h.sameEngine rfl rfl rfl rfl rfl rfl (.between (.inl hp))
  | playSongFrom r => exact (h.startSong hp r).answer hp _
  | playPatternFrom p r k => exact h.inRangeOr hp fun hk => (h.startPattern hp p r hk).answer hp _
  | plonk note k instr isDown => exact h.inRangeOr hp fun _ => (h.latchPlonk hp k _).answer hp _
  | stop => exact (h.stopAll hp).answer hp _
  | silence => exact (h.silence hp).answer hp _
  | getSamples n => exact h.sameEngine rfl rfl rfl rfl rfl rfl (.between (.inr rfl))
  | newSong => exact (h.newSong hp).answer hp _
  | writeStore addr b =>
    refine h.inRangeOr hp fun inside => ?_
    exact
      { config := h.config, count := h.count, voices := h.voices, engine := h.engine
        store := h.store.write b inside, delay := h.delay, faults := h.faults, phase := .between (.inl hp) }
  | readStore addr => exact h.inRangeOr hp fun _ => h.answer hp _
  | isPlaying | capabilities | readStatus | readGates | readFaults => exact h.answer hp _

theorem Inv.commandStep (h : Inv s) (hp : s.phase = .command) (hs : commandStep s = .next t) : Inv t := by
  obtain ⟨-, rfl⟩ | ⟨cmd, rest, -, -, -, rfl⟩ := commandStep_cases hs
  · exact h
  · have issued : Inv { s with cmds := rest } := h.sameEngine rfl rfl rfl rfl rfl rfl (.between (.inl hp))
    exact issued.runCommand hp cmd

/-- Settles O56: each step, by where the command in progress stands, keeps each part of the invariant. -/
theorem everyStepKeepsTheInvariant : Obligations.EveryStepKeepsTheInvariant := by
  intro s t h hs
  unfold step at hs
  split at hs
  next hp => exact h.commandStep hp hs
  next => cases hs; exact h.frameStep
  next hp => exact tablesStep_next hs ▸ h.tables hp
  next hp => cases hs; exact h.plonks hp
  next hp => exact h.rowPhase hp hs
  next hp => cases hs; exact h.runEntry hp
  next hp => exact h.runTurn hp hs
  next hp => exact h.modulateStep hp hs
  next hp => cases hs; exact h.snapshotStep hp
  next => exact renderStep_next hs ▸ h.rendered

end Sys2Proof.Machine
end

section
/-! PROOFS. The machine's steps as a whole: none stops under the invariant (60_exceptions.md R392), their order in a
tick (43_sequencer.md R240), and what may change `FAULTS` and the mode. -/

namespace Sys2Proof.Machine

variable {s t : State} {c : Config}

/-! ## No step stops -/

theorem step_tables (hp : s.phase = .tables) : step s = tablesStep s := by rw [step, hp]

theorem step_fetch (hp : s.phase = .fetch) : step s = runTurn s := by rw [step, hp]

theorem step_run (hp : s.phase = .run) : step s = .next (runEntry s) := by rw [step, hp]

theorem step_frame (hp : s.phase = .frame) : step s = .next (frameStep s) := by rw [step, hp]

theorem step_modulate (hp : s.phase = .modulate) : step s = modulateStep s := by rw [step, hp]

theorem step_snapshot (hp : s.phase = .snapshot) : step s = .next (snapshotStep s) := by rw [step, hp]

theorem step_render (hp : s.phase = .render) : step s = renderStep s := by rw [step, hp]

theorem ChannelOk.bound {x : Channel} (h : ChannelOk c x) (k : Kind) (on : (Machine.binding k x).on = true) :
    (Machine.binding k x).t.toNat < c.ntab := (h.binding k).table on

theorem Inv.step_tables (h : Inv s) (hp : s.phase = .tables) : step s = .next s.tablesDone := by
  rw [Machine.step_tables hp]
  exact tablesStep_of_bound fun v hv => (h.voices v hv).ch.bound

/-- A row inside the pattern can be read. -/
theorem rowPhase_of_inside (inside : s.eng.row.toNat < s.cfg.patLen) : ∃ t, rowPhase s = .next t :=
  ⟨_, if_neg (by simp [inside])⟩

/-- Every turn of the run loop has a next state: no instruction stops the machine. -/
theorem runTurn_total (s : State) : ∃ t, runTurn s = .next t := by
  obtain ⟨-, ended⟩ | ⟨-, -, runaway⟩ | ⟨-, -, i, -, runs⟩ := runTurn_cases s
  · exact ⟨_, ended⟩
  · exact ⟨_, runaway⟩
  · obtain ⟨f, goesOn | stops⟩ := exec_shape i { s with runCount := s.runCount + 1 }
    · exact ⟨_, runs.trans goesOn⟩
    · exact ⟨_, runs.trans stops⟩

/-- Under the invariant the modulation of the current channel has its note in the table. -/
theorem Inv.modulateStep_cases (h : Inv s) (hp : s.phase = .modulate) :
    ∃ t, Machine.modulateStep s = .next t ∧
      ((s.cur + 1 < s.cfg.nch ∧ t.cur = s.cur + 1 ∧ t.phase = .run) ∨
        (s.cfg.nch ≤ s.cur + 1 ∧ t.cur = s.cur ∧ t.phase = .snapshot)) := by
  obtain ⟨above, -⟩ | ⟨-, t, next, -, place⟩ := Machine.modulateStep_cases s
  · exact absurd (h.currentCh (hp ▸ rfl)).progNote above.not_ge
  · exact ⟨t, next, place⟩

theorem Inv.step_render (h : Inv s) (hp : s.phase = .render) : step s = .next s.rendered := by
  rw [Machine.step_render hp]
  exact renderStep_of_waves fun v hv => (h.voices v hv).ch.wave

/-- Between commands the engine waits or runs the next command, unless the host has called `Shutdown`. -/
theorem Inv.commandStep_next (h : Inv s) (opened : s.cmds = [] ∨ s.closed = false) :
    ∃ t, Machine.commandStep s = .next t := by
  unfold Machine.commandStep
  split
  next => exact ⟨s, rfl⟩
  next cmd rest issued =>
    have hopen : s.closed = false := opened.resolve_left (by rw [issued]; nofun)
    exact ⟨_, (if_neg (by simp [h.config])).trans (if_neg (by simp [hopen]))⟩

/-- Settles O57: by where the command in progress stands; each step that can stop reads an index that the invariant
keeps in range. -/
theorem nothingStopsTheEngine : Obligations.NothingStopsTheEngine := by
  intro s h
  refine ⟨fun notShut => ?goesOn, fun hp issued shut => ?refused⟩
  case goesOn =>
    cases hp : s.phase with
    | command =>
      obtain ⟨t, ht⟩ := h.commandStep_next (by
        by_contra stuck
        rw [not_or, Bool.not_eq_false] at stuck
        exact notShut ⟨hp, stuck⟩)
      exact ⟨t, by rw [step, hp]; exact ht⟩
    | frame => exact ⟨_, step_frame hp⟩
    | tables => exact ⟨_, h.step_tables hp⟩
    | plonks => exact ⟨_, step_plonks hp⟩
    | row =>
      obtain ⟨t, ht⟩ := rowPhase_of_inside h.engine.row
      exact ⟨t, (step_row hp).trans ht⟩
    | run => exact ⟨_, step_run hp⟩
    | fetch =>
      obtain ⟨t, ht⟩ := runTurn_total s
      exact ⟨t, (step_fetch hp).trans ht⟩
    | modulate =>
      obtain ⟨t, ht, -⟩ := h.modulateStep_cases hp
      exact ⟨t, (step_modulate hp).trans ht⟩
    | snapshot => exact ⟨_, step_snapshot hp⟩
    | render => exact ⟨_, h.step_render hp⟩
  case refused =>
    obtain ⟨cmd, rest, cmds⟩ := List.exists_cons_of_ne_nil issued
    simp [step, hp, commandStep, cmds, h.config, shut]

/-! ## The order of a tick -/

/-- A turn of the run loop stays at its channel, in the loop or before the channel's modulation. -/
theorem runTurn_place (hp : s.phase = .fetch) (h : runTurn s = .next t) :
    t.cur = s.cur ∧ (t.phase = .fetch ∨ t.phase = .modulate) := by
  obtain ⟨f, n, p, rfl, rfl | rfl⟩ | ⟨-, rfl⟩ := runTurn_next h
  · exact ⟨rfl, .inl hp⟩
  · exact ⟨rfl, .inr rfl⟩
  · exact ⟨rfl, .inr rfl⟩

theorem runEntry_place (s : State) :
    (runEntry s).cur = s.cur ∧ ((runEntry s).phase = .fetch ∨ (runEntry s).phase = .modulate) := by
  obtain ⟨-, left⟩ | ⟨-, -, starts⟩ | ⟨-, -, waits⟩ := runEntry_cases s
  · rw [left]; exact ⟨rfl, .inr rfl⟩
  · rw [starts]; exact ⟨rfl, .inl rfl⟩
  · rw [waits]; exact ⟨rfl, .inr rfl⟩

theorem rowPhase_place (h : rowPhase s = .next t) : t.phase = .run ∧ t.cur = 0 := by
  obtain ⟨-, rfl⟩ | ⟨-, rfl⟩ := rowPhase_next h
  · exact ⟨rfl, rfl⟩
  · exact ⟨rfl, rfl⟩

/-- Channel `k` of the snapshot is the view of channel `k` (43_sequencer.md R266). -/
theorem snapshotOf_channel {k : Nat} (h : k < s.voices.length) :
    (snapshotOf s).channels[k]? = some (viewOf s.cfg.dialect (s.voice k)) := by
  simp [snapshotOf, State.voice, h]

/-- Settles O32: each place of a tick has its step, which says what place is next. -/
theorem tickStepsFollowInOrder : Obligations.TickStepsFollowInOrder := by
  intro s h
  refine ⟨fun hp => ⟨_, h.step_tables hp, rfl⟩, fun hp => ⟨_, step_plonks hp, rfl⟩, ?row,
    fun hp => ⟨_, step_run hp, runEntry_place s⟩, ?fetch, ?nextChannel, ?lastChannel,
    fun hp => ⟨_, step_snapshot hp, rfl, rfl, _, rfl, rfl, rfl, rfl, rfl, ?count, ?channels⟩⟩
  case row =>
    intro hp
    obtain ⟨t, ht⟩ := rowPhase_of_inside h.engine.row
    exact ⟨t, (step_row hp).trans ht, rowPhase_place ht⟩
  case fetch =>
    intro hp
    obtain ⟨t, ht⟩ := runTurn_total s
    exact ⟨t, (step_fetch hp).trans ht, runTurn_place hp ht⟩
  case nextChannel =>
    intro hp inside
    obtain ⟨t, ht, ⟨-, cur, run⟩ | ⟨last, -⟩⟩ := h.modulateStep_cases hp
    · exact ⟨t, (step_modulate hp).trans ht, run, cur⟩
    · omega
  case lastChannel =>
    intro hp last
    obtain ⟨t, ht, ⟨inside, -⟩ | ⟨-, -, snapshot⟩⟩ := h.modulateStep_cases hp
    · omega
    · exact ⟨t, (step_modulate hp).trans ht, snapshot⟩
  case count => exact (List.length_map _).trans h.count
  case channels => exact fun k hk => snapshotOf_channel (by rw [h.count]; exact hk)

/-! ## `FAULTS` -/

/-- Only `Init` clears `FAULTS`. -/
theorem runCommand_faults {cmd : Command} (h : cmd ≠ .init) (s : State) : (runCommand cmd s).faults = s.faults := by
  cases cmd with
  | init => exact absurd rfl h
  | playPatternFrom | plonk | writeStore | readStore => exact (apply_ite State.faults _ _ _).trans (ite_self _)
  | _ => rfl

/-- A step keeps `FAULTS`, or takes RUNAWAY, or is `Init` (10_state.md R33; 60_exceptions.md R391). -/
theorem step_faults (h : step s = .next t) :
    t.faults = s.faults ∨
    (s.phase = .fetch ∧ s.runCount = s.cfg.stepLimit ∧ t.faults = s.faults ||| (1#16 <<< s.cur)) ∨
    (s.phase = .command ∧ s.cmds.head? = some .init ∧ t.faults = 0) := by
  unfold step at h
  split at h
  next hp =>
    obtain ⟨-, rfl⟩ | ⟨cmd, rest, issued, -, -, rfl⟩ := commandStep_cases h
    · exact .inl rfl
    · by_cases init : cmd = .init
      · subst init
        exact .inr (.inr ⟨hp, by rw [issued]; rfl, rfl⟩)
      · exact .inl (runCommand_faults init _)
  next =>
    cases h
    obtain ⟨-, e⟩ | ⟨-, -, e⟩ | ⟨-, -, e⟩ := frameStep_cases s <;>
      exact .inl ((congrArg State.faults e).trans rfl)
  next => rw [tablesStep_next h]; exact .inl rfl
  next => cases h; exact .inl rfl
  next =>
    obtain ⟨-, rfl⟩ | ⟨-, rfl⟩ := rowPhase_next h
    · exact .inl rfl
    · exact .inl (rowStep_frame s).faults
  next =>
    cases h
    obtain ⟨-, e⟩ | ⟨-, -, e⟩ | ⟨-, -, e⟩ := runEntry_cases s <;>
      exact .inl ((congrArg State.faults e).trans rfl)
  next hp =>
    obtain ⟨f, n, p, rfl, -⟩ | ⟨limit, rfl⟩ := runTurn_next h
    · exact .inl rfl
    · exact .inr (.inl ⟨hp, limit, rfl⟩)
  next =>
    obtain ⟨-, stops⟩ | ⟨-, u, next, frame, -⟩ := modulateStep_cases s
    · rw [stops] at h; cases h
    · rw [next] at h
      cases h
      rw [frame]
      exact .inl rfl
  next => cases h; exact .inl rfl
  next => rw [renderStep_next h]; exact .inl rfl

/-- The bit that RUNAWAY sets is the current channel's. -/
theorem runawayBit_iff {k : Nat} (h : (1#16 <<< s.cur).getLsbD k = true) : k = s.cur := by
  rw [← BitVec.twoPow_eq, BitVec.getLsbD_twoPow, Bool.and_eq_true, decide_eq_true_eq, decide_eq_true_eq] at h
  exact h.2.symm

/-- Settles O54: the three things a step may do to `FAULTS`, bit by bit. -/
theorem faultsAreSticky : Obligations.FaultsAreSticky := by
  intro s t h
  obtain same | ⟨hp, limit, runaway⟩ | ⟨hp, init, cleared⟩ := step_faults h
  · rw [same]
    exact ⟨fun k set => .inl set, fun k clear set => absurd set (by rw [clear]; decide)⟩
  · rw [runaway]
    refine ⟨fun k set => .inl ?_, fun k clear set => ⟨hp, ?_, limit⟩⟩
    · rw [BitVec.getLsbD_or, set, Bool.true_or]
    · rw [BitVec.getLsbD_or, clear, Bool.false_or] at set
      exact runawayBit_iff set
  · rw [cleared]
    exact ⟨fun k _ => .inr ⟨hp, init⟩, fun k _ set => absurd set (by simp)⟩

/-! ## The mode -/

/-- The commands that change the mode: the two play commands and those that stop (43_sequencer.md R244). -/
def Command.ChangesMode (cmd : Command) : Prop :=
  cmd = .init ∨ cmd = .stop ∨ cmd = .silence ∨ cmd = .newSong ∨ (∃ r, cmd = .playSongFrom r) ∨
    ∃ p r c, cmd = .playPatternFrom p r c

theorem runCommand_mode {cmd : Command} (h : ¬cmd.ChangesMode) (s : State) :
    (runCommand cmd s).eng.mode = s.eng.mode := by
  unfold Command.ChangesMode at h
  cases cmd with
  | init | stop | silence | newSong | playSongFrom | playPatternFrom => simp at h
  | plonk | writeStore | readStore => exact (apply_ite (fun u : State => u.eng.mode) _ _ _).trans (ite_self _)
  | _ => rfl

theorem playRow_mode (s : State) : s.playRows.nextRow.eng.mode = s.eng.mode :=
  (apply_ite (fun u : State => u.eng.mode) _ _ _).trans (ite_self _)

/-- The row step keeps the mode unless the song ends (43_sequencer.md R244, R247). -/
theorem rowStep_mode (s : State) :
    s.rowStep.eng.mode = s.eng.mode ∨
    (s.eng.mode = .song ∧ s.rowStep.eng.mode = .idle ∧ s.eng.row = 0 ∧ songLen s.cfg s.store ≤ s.eng.songNext.toNat ∧
      (s.readByte 2 = 0 ∨ songLen s.cfg s.store = 0)) := by
  obtain ⟨-, waits⟩ | rows | ⟨r, -, loaded⟩ | ⟨mode, row, past, spent, ended⟩ := rowStep_cases s
  · rw [waits]; exact .inl rfl
  · rw [rows]; exact .inl (playRow_mode s.reloadWait)
  · rw [loaded]; exact .inl (playRow_mode (s.reloadWait.loadSongRow r))
  · rw [ended]; exact .inr ⟨mode, rfl, row, past, spent⟩

/-- Inside a command, no step but the row step touches the mode. -/
theorem step_keeps_mode (command : s.phase ≠ .command) (row : s.phase ≠ .row) (h : step s = .next t) :
    t.eng.mode = s.eng.mode := by
  unfold step at h
  split at h
  next hp => exact absurd hp command
  next =>
    cases h
    obtain ⟨-, e⟩ | ⟨-, -, e⟩ | ⟨-, -, e⟩ := frameStep_cases s <;>
      exact (congrArg (fun u => u.eng.mode) e).trans rfl
  next => rw [tablesStep_next h]; rfl
  next => cases h; rfl
  next hp => exact absurd hp row
  next =>
    cases h
    obtain ⟨-, e⟩ | ⟨-, -, e⟩ | ⟨-, -, e⟩ := runEntry_cases s <;>
      exact (congrArg (fun u => u.eng.mode) e).trans rfl
  next => obtain ⟨f, n, p, rfl, -⟩ | ⟨-, rfl⟩ := runTurn_next h <;> rfl
  next =>
    obtain ⟨-, stops⟩ | ⟨-, u, next, frame, -⟩ := modulateStep_cases s
    · rw [stops] at h; cases h
    · rw [next] at h
      cases h
      rw [frame]
  next => cases h; rfl
  next => rw [renderStep_next h]; rfl

/-- Settles O34: a changed mode comes from one of the six commands or from the row step that ended the song. -/
theorem modeChangesOnlyByPlayStopOrEnd : Obligations.ModeChangesOnlyByPlayStopOrEnd := by
  intro s t h changed
  by_cases command : s.phase = .command
  case pos =>
    rw [step, command] at h
    obtain ⟨-, rfl⟩ | ⟨cmd, rest, issued, -, -, rfl⟩ := commandStep_cases h
    · exact absurd rfl changed
    · have changes : cmd.ChangesMode := by
        by_contra keeps
        exact changed (runCommand_mode keeps _)
      exact .inl ⟨command, cmd, rest, issued, changes⟩
  case neg =>
    by_cases row : s.phase = .row
    case neg => exact absurd (step_keeps_mode command row h) changed
    case pos =>
      rw [step_row row] at h
      obtain ⟨-, rfl⟩ | ⟨-, rfl⟩ := rowPhase_next h
      · exact absurd rfl changed
      · obtain same | ⟨mode, idle, start, past, spent⟩ := rowStep_mode s
        · exact absurd same changed
        · exact .inr ⟨row, mode, idle, start, past, spent⟩

end Sys2Proof.Machine
end

section
/-! PROOFS. The address map (20_memory.md R81 to R92) and the run loop (40_interpreter.md R151 to R156): where the reads
lie, what a turn of the loop runs, and how runs start, wait and end. -/

namespace Sys2Proof.Machine

variable {s t : State} {c : Config}

/-! ## Where the reads lie -/

/-- A song cell's two bytes lie in the song (20_memory.md R84). -/
theorem songAddr_inside {r n b : Nat} (hr : r < c.songCap) (hn : n < c.nch) (hb : b < 2) :
    songBase ≤ songAddr c r n + b ∧ songAddr c r n + b < patBase c := by
  have cell := record_inside (record_inside hr hn) hb
  unfold songAddr patBase
  omega

/-- A row's six bytes lie in the patterns (20_memory.md R85). -/
theorem rowAddr_inside {p k b : Nat} (hp : p < c.npat) (hk : k < c.patLen) (hb : b < 6) :
    patBase c ≤ rowAddr c p k + b ∧ rowAddr c p k + b < insBase c := by
  have field := record_inside (record_inside hp hk) hb
  unfold rowAddr insBase
  omega

/-- An offset inside an instrument's record lies in the instruments (20_memory.md R86). -/
theorem instrAddr_inside {i b : Nat} (h1 : 1 ≤ i) (hi : i ≤ c.nins) (hb : b < insSize c) :
    insBase c ≤ instrAddr c i + b ∧ instrAddr c i + b < tabBase c := by
  have field := record_inside (show i - 1 < c.nins by omega) hb
  unfold instrAddr tabBase
  omega

/-- The bytes of an instruction inside the program lie in the instrument's slots (40_interpreter.md R152). -/
theorem codeAddr_inside {m : Memory} {i j k : Nat} (hj : j < progLen c m i) (hk : k < instrWidth c.dialect) :
    instrAddr c i + 1 ≤ codeAddr c i j + k ∧ codeAddr c i j + k < instrAddr c i + insSize c := by
  have slot := record_inside (hj.trans_le (Nat.min_le_right _ _)) hk
  unfold codeAddr insSize
  omega

/-- The length byte and the values of a table lie in the tables (20_memory.md R87). -/
theorem tableAddr_inside {k : Kind} {n j : Nat} (hn : n < c.ntab) (hj : j ≤ c.tabCap) :
    tabBase c ≤ tableAddr c k n + j ∧ tableAddr c k n + j < waveBase c := by
  have kind : kindNumber k < 3 := by cases k <;> decide
  have value := record_inside (record_inside kind hn) (show j < 1 + c.tabCap by omega)
  unfold tableAddr waveBase
  omega

/-- The length byte and the samples of a wavetable lie in the wavetables (20_memory.md R88). -/
theorem waveAddr_inside {w j : Nat} (hw : w < c.nwave) (hj : j ≤ c.waveCap) :
    waveBase c ≤ waveAddr c w + j ∧ waveAddr c w + j < storeSize c := by
  have sample := record_inside hw (show j < 1 + c.waveCap by omega)
  unfold waveAddr storeSize
  omega

/-- Settles O9: the map is the definitions written out, and each read is a field of a record of its region. -/
theorem addressMapAndReadsStayInRegion : Obligations.AddressMapAndReadsStayInRegion := by
  intro c iw pat ins size tab wave all
  have width : instrWidth c.dialect = iw := by
    unfold iw
    cases c.dialect <;> rfl
  have insSize_eq : insSize c = size := by rw [insSize, width]
  have tab_eq : tabBase c = tab := by rw [tabBase, insSize_eq]; rfl
  have wave_eq : waveBase c = wave := by rw [waveBase, tab_eq]
  have all_eq : storeSize c = all := by rw [storeSize, wave_eq]
  have instr_eq : ∀ i, instrAddr c i = ins + (i - 1) * size := fun i => by rw [instrAddr, insSize_eq]; rfl
  have waveAddr_eq : ∀ w, waveAddr c w = wave + w * (1 + c.waveCap) := fun w => by rw [waveAddr, wave_eq]
  refine ⟨⟨width, rfl, rfl, rfl, insSize_eq, tab_eq, wave_eq, all_eq⟩, ⟨fun _ _ => rfl, fun _ _ => rfl, instr_eq,
    fun i j => ?code, fun n => ?vol, fun n => ?duty, fun n => ?pan, waveAddr_eq⟩, fun m => ⟨rfl, fun i => ?progLen,
    fun _ _ => rfl, fun w => ?waveLen, fun _ _ _ => rfl⟩, fun r n b hr hn hb => songAddr_inside hr hn hb,
    fun p k b hp hk hb => rowAddr_inside hp hk hb, fun i h1 hi => ?instr, fun m i j k h1 hi hj hk => ?fetch,
    fun k n j hn hj => ?table, fun w j hw hj => ?sample, by omega, by omega, by omega, by omega, by omega⟩
  case code => rw [codeAddr, instr_eq, width]
  case vol => rw [tableAddr, tab_eq, kindNumber, Nat.zero_mul, Nat.zero_add]
  case duty => rw [tableAddr, tab_eq, kindNumber, Nat.one_mul]
  case pan => rw [tableAddr, tab_eq, kindNumber]
  case progLen => rw [progLen, instr_eq]
  case waveLen => rw [waveLen, waveAddr_eq]
  case instr =>
    rw [← tab_eq]
    exact instrAddr_inside h1 hi (show 0 < insSize c by unfold insSize; omega)
  case fetch =>
    have slot := codeAddr_inside hj (width ▸ hk)
    have record := instrAddr_inside (b := codeAddr c i j + k - instrAddr c i) h1 hi (by omega)
    rw [← insSize_eq, ← tab_eq]
    exact ⟨slot.1, slot.2, show insBase c ≤ _ by omega, by omega⟩
  case table =>
    rw [← tab_eq, ← wave_eq]
    exact tableAddr_inside hn hj
  case sample =>
    rw [← wave_eq, ← all_eq]
    exact waveAddr_inside hw hj

/-! ## What a turn of the loop runs -/

/-- Before the program's end and the step limit, a turn runs the fetched instruction. -/
theorem runTurn_of_instr {i : Instr} (goesOn : programOver s = false) (below : s.runCount ≠ s.cfg.stepLimit)
    (fetched : fetchInstr s = .ok i) : runTurn s = exec i { s with runCount := s.runCount + 1 } := by
  obtain ⟨ended, -⟩ | ⟨-, limit, -⟩ | ⟨-, -, j, decoded, runs⟩ := runTurn_cases s
  · rw [goesOn] at ended; contradiction
  · contradiction
  · rw [fetched] at decoded
    cases decoded
    exact runs

/-- Dialect A fetches the two bytes at the cursor (40_interpreter.md R152). -/
theorem fetchBytes_A (hA : s.cfg.dialect = .A) :
    fetchBytes s =
      let base := instrAddr s.cfg (s.ch s.cur).instr.toNat
      let cursor := (s.ch s.cur).cursor.toNat
      [s.readByte (base + 1 + 2 * cursor), s.readByte (base + 2 + 2 * cursor)] := by
  have second : ∀ a k : Nat, a + 1 + k * 2 + 1 = a + 2 + 2 * k := by omega
  have first : ∀ a k : Nat, a + 1 + k * 2 + 0 = a + 1 + 2 * k := by omega
  simp only [fetchBytes, codeAddr, hA, instrWidth, List.range_succ, List.range_zero, List.nil_append,
    List.map_cons, List.map_nil, List.cons_append, first, second]

/-- Dialect B fetches the byte at the cursor. -/
theorem fetchBytes_B (hB : s.cfg.dialect = .B) :
    fetchBytes s =
      [s.readByte (instrAddr s.cfg (s.ch s.cur).instr.toNat + 1 + (s.ch s.cur).cursor.toNat)] := by
  simp [fetchBytes, codeAddr, hB, instrWidth]

/-- Settles O8: the program goes on below the limit, and the bytes at the cursor are the bytes fetched. -/
theorem stepRunsDecodedInstruction : Obligations.StepRunsDecodedInstruction := by
  intro s i hp x base instrument inRange inProgram below _
  have goesOn : programOver s = false := programOver_eq_false_iff.mpr ⟨instrument, inRange, inProgram⟩
  refine ⟨fun hA decoded => ?_, fun hB decoded => ?_⟩
  · refine (step_fetch hp).trans (runTurn_of_instr goesOn below ?_)
    rw [fetchInstr, fetchBytes_A hA, hA]
    exact decoded
  · refine (step_fetch hp).trans (runTurn_of_instr goesOn below ?_)
    rw [fetchInstr, fetchBytes_B hB, hB]
    exact decoded

/-! ## Where a run starts, waits and ends -/

theorem runTurn_of_over (ended : programOver s = true) : runTurn s = s.stopWith endProgram := if_pos ended

theorem runEntry_inactive (h : (s.ch s.cur).active = false) : runEntry s = { s with phase := .modulate } := by
  obtain ⟨-, left⟩ | ⟨active, -⟩ | ⟨active, -⟩ := runEntry_cases s
  · exact left
  · rw [h] at active; contradiction
  · rw [h] at active; contradiction

theorem runEntry_starts (active : (s.ch s.cur).active = true) (wait : (s.ch s.cur).wait = 0) :
    runEntry s = { s with runCount := 0, phase := .fetch } := by
  obtain ⟨inactive, -⟩ | ⟨-, -, starts⟩ | ⟨-, waits, -⟩ := runEntry_cases s
  · rw [active] at inactive; contradiction
  · exact starts
  · contradiction

theorem runEntry_waits (active : (s.ch s.cur).active = true) (wait : (s.ch s.cur).wait ≠ 0) :
    runEntry s = { s.mapCh s.cur countDown with phase := .modulate } := by
  obtain ⟨inactive, -⟩ | ⟨-, zero, -⟩ | ⟨-, -, waits⟩ := runEntry_cases s
  · rw [active] at inactive; contradiction
  · contradiction
  · exact waits

/-- A wait that is not 0 counts down without wrapping. -/
theorem countDown_eq {x : Channel} (h : x.wait ≠ 0) :
    countDown x = { x with wait := BitVec.ofNat 8 (x.wait.toNat - 1) } := by
  have lower : x.wait - 1 = BitVec.ofNat 8 (x.wait.toNat - 1) := by
    have : x.wait.toNat ≠ 0 := fun zero => h (BitVec.eq_of_toNat_eq zero)
    bv_omega
  rw [countDown, lower]

theorem programOver_of (h : (s.ch s.cur).instr = 0 ∨ s.cfg.nins < (s.ch s.cur).instr.toNat ∨
    progLen s.cfg s.store (s.ch s.cur).instr.toNat ≤ (s.ch s.cur).cursor.toNat) : programOver s = true := by
  by_contra goesOn
  obtain ⟨instrument, inRange, inProgram⟩ := programOver_eq_false_iff.mp (Bool.eq_false_iff.mpr goesOn)
  obtain none | past | ended := h
  · exact instrument none
  · omega
  · omega

/-- Settles O11: the three entries of a run, and the end of a program. -/
theorem runStartsWaitsAndEnds : Obligations.RunStartsWaitsAndEnds := by
  intro s present x
  refine ⟨fun hp inactive => ?_, fun hp active wait => ?_, fun hp active wait => ?_, fun hp ended => ?_⟩
  · rw [step_run hp, runEntry_inactive inactive]
  · have stops := stopWith_stops countDown present
    rw [countDown_eq wait] at stops
    exact ⟨_, by rw [step_run hp, runEntry_waits active wait], stops⟩
  · rw [step_run hp, runEntry_starts active wait]
  · exact ⟨_, (step_fetch hp).trans (runTurn_of_over (programOver_of ended)), stopWith_stops endProgram present⟩

/-! ## Waits -/

/-- One entry of `RunProgram`, the rest of the tick left out. -/
def enterRun (u : State) : State := { runEntry u with phase := .run }

/-- A waiting channel's entry counts its wait down and keeps the channel current. -/
theorem enterRun_waits (present : s.cur < s.voices.length) (active : (s.ch s.cur).active = true)
    (wait : (s.ch s.cur).wait ≠ 0) :
    (enterRun s).cur = s.cur ∧ (enterRun s).voices.length = s.voices.length ∧
      (enterRun s).ch s.cur = { s.ch s.cur with wait := BitVec.ofNat 8 ((s.ch s.cur).wait.toNat - 1) } := by
  rw [enterRun, runEntry_waits active wait, ← countDown_eq wait]
  exact ⟨rfl, State.mapCh_length s s.cur _, State.mapCh_ch_same s s.cur countDown present⟩

/-- After `k` entries, no more than the wait, the wait has gone down by `k` (40_interpreter.md R156). -/
theorem iterate_enterRun {k : Nat} (present : s.cur < s.voices.length) (active : (s.ch s.cur).active = true)
    (hk : k ≤ (s.ch s.cur).wait.toNat) :
    (enterRun^[k] s).cur = s.cur ∧ (enterRun^[k] s).voices.length = s.voices.length ∧
      (enterRun^[k] s).ch s.cur = { s.ch s.cur with wait := BitVec.ofNat 8 ((s.ch s.cur).wait.toNat - k) } := by
  induction k with
  | zero => exact ⟨rfl, rfl, by simp⟩
  | succ k ih =>
    obtain ⟨cur, count, ch⟩ := ih (by omega)
    rw [Function.iterate_succ_apply']
    generalize enterRun^[k] s = u at *
    have bound := (s.ch s.cur).wait.isLt
    have wait : (u.ch u.cur).wait.toNat = (s.ch s.cur).wait.toNat - k := by
      rw [cur, ch]
      exact (BitVec.toNat_ofNat ..).trans (Nat.mod_eq_of_lt (by omega))
    have waits : (u.ch u.cur).wait ≠ 0 := by
      intro zero
      rw [zero] at wait
      have : (0 : Nat) = (s.ch s.cur).wait.toNat - k := wait
      omega
    obtain ⟨cur', count', ch'⟩ :=
      enterRun_waits (by rw [cur, count]; exact present) (by rw [cur, ch]; exact active) waits
    rw [wait, cur, ch] at ch'
    exact ⟨cur'.trans cur, count'.trans count, by rw [ch', Nat.sub_sub]⟩

/-- Settles O12: after `k` entries the wait is `n - k`, so the next entry waits if `k` is below `n` and runs at `n`. -/
theorem waitOfNDelaysByNPlusOneTicks : Obligations.WaitOfNDelaysByNPlusOneTicks := by
  intro s n k present active hn hk enter u
  subst hn
  obtain ⟨cur, -, ch⟩ : u.cur = s.cur ∧ u.voices.length = s.voices.length ∧
      u.ch s.cur = { s.ch s.cur with wait := BitVec.ofNat 8 ((s.ch s.cur).wait.toNat - k) } :=
    iterate_enterRun present active hk
  have bound := (s.ch s.cur).wait.isLt
  have stillActive : (u.ch u.cur).active = true := by rw [cur, ch]; exact active
  have wait : (u.ch u.cur).wait = BitVec.ofNat 8 ((s.ch s.cur).wait.toNat - k) := by rw [cur, ch]
  refine ⟨ch, fun below => ?_, fun last => ?_⟩
  · have waits : (u.ch u.cur).wait ≠ 0 := by rw [wait]; bv_omega
    rw [runEntry_waits stillActive waits]
  · have spent : (u.ch u.cur).wait = 0 := by rw [wait, last, Nat.sub_self]; rfl
    rw [runEntry_starts stillActive spent]

/-! ## The step limit -/

/-- What a run leaves alone, and what it may do to `FAULTS` (40_interpreter.md R155). -/
structure RunFrame (s t : State) : Prop where
  cur : t.cur = s.cur
  store : t.store = s.store
  eng : t.eng = s.eng
  cfg : t.cfg = s.cfg
  others : ∀ k, k ≠ s.cur → t.voice k = s.voice k

theorem RunFrame.trans {u : State} (h : RunFrame s t) (g : RunFrame t u) : RunFrame s u :=
  ⟨g.1.trans h.1, g.2.trans h.2, g.3.trans h.3, g.4.trans h.4,
    fun k hk => (g.others k (by rw [h.cur]; exact hk)).trans (h.others k hk)⟩

/-- Writes on the current channel, with the count and the place of the run. -/
theorem mapCh_runFrame (s : State) (f : Channel → Channel) (n : Nat) (p : Phase) :
    RunFrame s { s.mapCh s.cur f with runCount := n, phase := p } :=
  ⟨rfl, rfl, rfl, rfl, fun k hk => State.mapCh_voice_other s s.cur k f hk⟩

theorem runSteps_one (h : step s = .next t) : runSteps 1 s = .next t := (runSteps_succ h).trans rfl

/-- A run that has executed `n` instructions ends within the turns its limit leaves, the last one ending it. -/
theorem run_ends (d : Nat) (hp : s.phase = .fetch) (left : s.runCount + d = s.cfg.stepLimit) :
    ∃ k t, k ≤ d + 1 ∧ runSteps k s = .next t ∧ t.phase = .modulate ∧ RunFrame s t ∧
      (t.faults = s.faults ∨ (t.faults = s.faults ||| (1#16 <<< s.cur) ∧ t.runCount = s.cfg.stepLimit)) := by
  induction d generalizing s with
  | zero =>
    obtain ⟨-, ended⟩ | ⟨-, limit, runaway⟩ | ⟨-, below, -⟩ := runTurn_cases s
    · exact ⟨1, _, le_refl _, runSteps_one ((step_fetch hp).trans ended), rfl,
        mapCh_runFrame s endProgram s.runCount .modulate, .inl rfl⟩
    · exact ⟨1, _, le_refl _, runSteps_one ((step_fetch hp).trans runaway), rfl,
        ⟨rfl, rfl, rfl, rfl, fun _ _ => rfl⟩, .inr ⟨rfl, limit⟩⟩
    · exact absurd left below
  | succ d ih =>
    obtain ⟨-, ended⟩ | ⟨-, limit, -⟩ | ⟨-, below, i, -, runs⟩ := runTurn_cases s
    · exact ⟨1, _, by omega, runSteps_one ((step_fetch hp).trans ended), rfl,
        mapCh_runFrame s endProgram s.runCount .modulate, .inl rfl⟩
    · omega
    · have turn := (step_fetch hp).trans runs
      obtain ⟨f, goesOn | stops⟩ := exec_shape i { s with runCount := s.runCount + 1 }
      · rw [goesOn] at turn
        have frame := mapCh_runFrame s f (s.runCount + 1) s.phase
        obtain ⟨k, t, hk, run, place, rest, faults⟩ :=
          ih (s := { s.mapCh s.cur f with runCount := s.runCount + 1 }) hp
            (show s.runCount + 1 + d = s.cfg.stepLimit by omega)
        exact ⟨k + 1, t, by omega, (runSteps_succ turn).trans run, place, frame.trans rest, faults⟩
      · exact ⟨1, _, by omega, runSteps_one (turn.trans stops), rfl,
          mapCh_runFrame s f (s.runCount + 1) .modulate, .inl rfl⟩

/-- Settles O13: the turns that the step limit leaves. -/
theorem runEndsWithinTheStepLimit : Obligations.RunEndsWithinTheStepLimit := by
  intro s hp within
  obtain ⟨k, t, hk, run, place, ⟨cur, store, eng, cfg, others⟩, faults⟩ :=
    run_ends (s.cfg.stepLimit - s.runCount) hp (by omega)
  exact ⟨k, t, hk, run, place, cur, store, eng, cfg, others, faults⟩

end Sys2Proof.Machine
end

section
/-! PROOFS. The instructions of both dialects (41_dialect_a.md, 42_dialect_b.md): each is its rule's register writes on
the current channel, and what no instruction writes. -/

namespace Sys2Proof.Machine

variable {s : State} {c : Config} {m : Memory} {x : Channel}

/-! ## An instruction as its register writes -/

theorem exec_continues {i : Instr} {f : Channel → Channel} (h : exec i s = s.continueWith f)
    (present : s.cur < s.voices.length) : ∃ t, exec i s = .next t ∧ Continues s t (f (s.ch s.cur)) :=
  ⟨_, h, continueWith_continues f present⟩

theorem exec_stops {i : Instr} {f : Channel → Channel} (h : exec i s = s.stopWith f)
    (present : s.cur < s.voices.length) : ∃ t, exec i s = .next t ∧ Stops s t (f (s.ch s.cur)) :=
  ⟨_, h, stopWith_stops f present⟩

/-! ## Dialect A: setters -/

theorem exec_setterOf (k : Kind) (p : LitOrTable) (s : State) :
    exec (setterOf k p) s = s.continueWith fun x => advance (writeLitOrTable s.cfg s.store k p x) := by
  cases k <;> rfl

/-- Settles O14: the three literal forms are one write each. -/
theorem literalsAreScaledAndUnbind : Obligations.LiteralsAreScaledAndUnbind := by
  intro s l present x
  have set : ∀ k, ∃ t, exec (setterOf k (.lit l)) s = .next t ∧
      Continues s t (advance (setBinding k bindingOff (setKindReg k (literalValue k l) x))) :=
    fun k => exec_continues (exec_setterOf k (.lit l) s) present
  exact ⟨set .duty, set .pan, set .vol⟩

/-- Settles O16: each setter is its rule's write and the cursor's advance. -/
theorem plainSettersWriteOneRegister : Obligations.PlainSettersWriteOneRegister := by
  intro s p present x
  have inertia : inertiaOf p = BitVec.ofNat 32 (4096 * p.toNat) := by rw [inertiaOf, Nat.mul_comm]
  rw [← inertia]
  exact ⟨exec_continues (f := fun x => advance (writeFade p x)) rfl present,
    exec_continues (f := fun x => advance (writeInertia p x)) rfl present,
    exec_continues (f := fun x => advance (writeCutLo p x)) rfl present,
    exec_continues (f := fun x => advance (writeCutHi p x)) rfl present,
    exec_continues (f := fun x => advance (writeVibRate p x)) rfl present,
    exec_continues (f := fun x => advance (writeBendRate p x)) rfl present⟩

/-- A stretch of 0 behaves as 1 (40_interpreter.md R160). -/
theorem stretchOf_eq (st : BitVec 4) : stretchOf st = BitVec.ofNat 4 (max st.toNat 1) := by
  unfold stretchOf
  split
  next zero => subst zero; rfl
  next nonzero =>
    have : st.toNat ≠ 0 := fun zero => nonzero (BitVec.eq_of_toNat_eq zero)
    rw [Nat.max_eq_left (by omega), BitVec.ofNat_toNat, BitVec.setWidth_eq]

/-- Binding a table that exists writes the binding, and the register too: with the table's first value, or, if the table
is empty, with the value it has. -/
theorem bindTable_present (tables : c.hasTables = true) {n : BitVec 3} (hn : n.toNat < c.ntab) (k : Kind)
    (st : BitVec 4) (x : Channel) :
    bindTable c m k n st x =
      setKindReg k (if 0 < tableLen c m k n.toNat then tableValue c m k n.toNat 0 else kindReg k x)
        (setBinding k { on := true, t := n, idx := 0, cnt := stretchOf st, s := stretchOf st } x) := by
  obtain ⟨none | past, -⟩ | ⟨-, -, bound⟩ := bindTable_cases c m k n st x
  · rw [tables] at none; contradiction
  · omega
  · rw [bound]
    split
    · rfl
    · cases k <;> rfl

theorem bindTable_absent {n : BitVec 3} (h : c.hasTables = false ∨ c.ntab ≤ n.toNat) (k : Kind) (st : BitVec 4)
    (x : Channel) : bindTable c m k n st x = x := by
  obtain ⟨-, nothing⟩ | ⟨tables, inside, -⟩ := bindTable_cases c m k n st x
  · exact nothing
  · obtain none | past := h
    · rw [tables] at none; contradiction
    · omega

/-- The cursor and the bound registers are written apart. -/
theorem advance_setKindReg_setBinding (k : Kind) (b : Byte) (r : TableBinding) (x : Channel) :
    advance (setKindReg k b (setBinding k r x)) = setKindReg k b (setBinding k r (advance x)) := by
  cases k <;> rfl

theorem kindReg_advance (k : Kind) (x : Channel) : kindReg k (advance x) = kindReg k x := by cases k <;> rfl

/-- Settles O15: the table form binds, or, without such a table, moves the cursor only. -/
theorem tableFormsBind : Obligations.TableFormsBind := by
  intro s k n st present x a s1
  have bind := exec_continues (exec_setterOf k (.table n st) s) present
  refine ⟨fun absent => ?_, fun tables inside => ?_⟩
  · rw [writeLitOrTable, bindTable_absent absent] at bind
    exact bind
  · rw [writeLitOrTable, bindTable_present tables inside, advance_setKindReg_setBinding, stretchOf_eq,
      ← kindReg_advance] at bind
    exact bind

theorem vibDepthB_toNat (d : BitVec 3) : (vibDepthB d).toNat = 16 * d.toNat := by
  have := d.isLt
  rw [vibDepthB, BitVec.toNat_ofNat]
  omega

theorem vibRateB_toNat (r : BitVec 2) : (vibRateB r).toNat = 4 * 2 ^ r.toNat := by
  have rates : ∀ r : BitVec 2, (vibRateB r).toNat = 4 * 2 ^ r.toNat := by decide
  exact rates r

/-- The test of the vibrato instructions, on the depths read as numbers. -/
theorem restart_eq (a b : BitVec 7) (phase : BitVec 8) :
    (if a = b then phase else 0) = if a.toNat = b.toNat then phase else 0 :=
  if_congr BitVec.toNat_inj.symm rfl rfl

/-- The register writes of B.VIB (42_dialect_b.md R216). -/
def writeVibB (d : BitVec 3) (r : BitVec 2) (x : Channel) : Channel :=
  { writeVibDepth (vibDepthB d) false x with vibRate := vibRateB r }

theorem exec_bVib (d : BitVec 3) (r : BitVec 2) (s : State) :
    exec (.bVib d r) s = s.continueWith fun x => advance (writeVibB d r x) := rfl

/-- Settles O17: both write the depth, and keep the phase just when the depth read as a number is the same. -/
theorem vibratoRestartsOnlyOnChange : Obligations.VibratoRestartsOnlyOnChange := by
  intro s depth mode d r present x
  refine ⟨?vdep, ?vib⟩
  case vdep =>
    rw [← restart_eq]
    exact exec_continues (f := fun x => advance (writeVibDepth depth mode x)) rfl present
  case vib =>
    obtain ⟨t, next, continues⟩ := exec_continues (exec_bVib d r s) present
    refine ⟨t, vibDepthB d, vibRateB r, next, ?_, vibDepthB_toNat d, vibRateB_toNat r⟩
    rw [← vibDepthB_toNat, ← restart_eq]
    exact continues

/-- Settles O18: a selector names a waveform, or nothing. -/
theorem waveSelectsOrIsNoOp : Obligations.WaveSelectsOrIsNoOp := by
  intro s w p present x
  have wave : ∀ sel, ∃ t, exec (.aWave sel) s = .next t ∧ Continues s t (advance (writeWave s.cfg sel (s.ch s.cur))) :=
    fun sel => exec_continues (f := fun x => advance (writeWave s.cfg sel x)) rfl present
  refine ⟨wave .pulse, wave .saw, wave .tri, wave .noise, fun inside => ?table, fun past => ?absent, wave (.other p)⟩
  case table =>
    have selects : waveOf s.cfg (.table w) = some (.table w) := if_pos inside
    have table := wave (.table w)
    rw [writeWave, selects] at table
    exact table
  case absent =>
    have selectsNone : waveOf s.cfg (.table w) = none := if_neg past.not_gt
    have table := wave (.table w)
    rw [writeWave, selectsNone] at table
    exact table

/-- A note brought into 1..NOTE_MAX is kept by its register. -/
theorem clampNote_toNat (n : Int) (h1 : 1 ≤ c.noteMax) (h2 : c.noteMax ≤ 254) :
    ((clampNote c n).toNat : Int) = min (max n 1) c.noteMax :=
  have range := clamp_range n 1 c.noteMax (by omega)
  ofInt_toNat _ (by omega) (by omega)

/-- Settles O19: the three setters clamp the note they compute. -/
theorem noteSettersClamp : Obligations.NoteSettersClamp := by
  intro s p semis present h1 h2 x
  obtain ⟨t, note, continues⟩ :=
      exec_continues (i := .aNote p) (f := fun x => advance (writeNote s.cfg p x)) rfl present
  obtain ⟨u, noteRel, continuesRel⟩ :=
    exec_continues (i := .aNrel p) (f := fun x => advance (writeNoteRel s.cfg p x)) rfl present
  obtain ⟨v, arp, continuesArp⟩ := exec_continues (i := .bArp semis)
    (f := fun x => advance { x with progNote := clampNote s.cfg (x.trigNote.toNat + semis.toInt) }) rfl present
  exact ⟨⟨t, _, note, continues, clampNote_toNat _ h1 h2⟩, ⟨u, _, noteRel, continuesRel, clampNote_toNat _ h1 h2⟩,
    ⟨v, _, arp, continuesArp, clampNote_toNat _ h1 h2⟩⟩

/-! ## Flow -/

theorem exec_aLoop_back {p : Byte} (h : p ≠ 0) :
    exec (.aLoop p) s = s.continueWith fun x => { x with cursor := loopTarget x.cursor p.toNat } := if_neg h

theorem exec_aLoop_end {p : Byte} (h : p = 0) : exec (.aLoop p) s = s.stopWith endProgram := if_pos h

theorem exec_bLoop_back {o : BitVec 4} (h : o ≠ 0) :
    exec (.bLoop o) s = s.continueWith fun x => { x with cursor := loopTarget x.cursor o.toNat } := if_neg h

theorem exec_bLoop_end {o : BitVec 4} (h : o = 0) : exec (.bLoop o) s = s.stopWith endProgram := if_pos h

theorem writeEnd_A (x : Channel) : writeEnd .A x = { x with active := false, gateBit := false, cursor := 0 } := rfl

/-- Settles O20: each flow instruction is one write, and a loop of offset 0 is the end of the program. -/
theorem flowInstructions : Obligations.FlowInstructions := by
  intro s p o present x
  refine ⟨fun hA => ?finish, exec_continues (f := fun x => { x with cursor := p }) rfl present,
    exec_stops (f := fun x => advance { x with wait := p }) rfl present,
    ?waitB,
    fun back => exec_continues (exec_aLoop_back back) present, fun zero => exec_stops (exec_aLoop_end zero) present,
    fun back => exec_continues (exec_bLoop_back back) present, fun zero => exec_stops (exec_bLoop_end zero) present⟩
  case waitB =>
    rw [BitVec.ofNat_toNat]
    exact exec_stops (f := fun x => advance { x with wait := o.setWidth 8 }) rfl present
  case finish =>
    have stops := exec_stops (i := .aEnd) (f := writeEnd s.cfg.dialect) rfl present
    rw [hA, writeEnd_A] at stops
    exact stops

/-! ## Dialect B -/

/-- The bits B.CTRL writes and the two it keeps (42_dialect_b.md R210). -/
theorem controlByte_bits (ctrl : Byte) (p : BitVec 6) :
    (∀ j, j < 5 → (controlByte ctrl p).getLsbD (3 + j) = p.getLsbD (1 + j)) ∧
    (∀ j, j < 2 → (controlByte ctrl p).getLsbD (1 + j) = ctrl.getLsbD (1 + j)) ∧
    (controlByte ctrl p).getLsbD 0 = p.getLsbD 0 := by
  unfold controlByte
  refine ⟨fun j hj => ?_, fun j hj => ?_, ?_⟩
  · rw [BitVec.getLsbD_append, if_neg (by omega), BitVec.getLsbD_append, if_neg (by omega)]
    simp [hj]
  · rw [BitVec.getLsbD_append, if_neg (by omega), BitVec.getLsbD_append, if_pos (by omega)]
    simp [hj]
  · rw [BitVec.getLsbD_append, if_pos (by decide)]
    simp

/-- A bit write writes its bit and keeps the others. -/
theorem setBit_getLsbD (r : Byte) {i j : Nat} (v : Bool) (hi : i < 8) (hj : j < 8) :
    (setBit r i v).getLsbD j = if j = i then v else r.getLsbD j := by
  have bit : (1#8 <<< i).getLsbD j = decide (j = i) := by
    rw [← BitVec.twoPow_eq, BitVec.getLsbD_twoPow, decide_eq_true hi, Bool.true_and, decide_eq_decide]
    exact eq_comm
  unfold setBit
  cases v with
  | true =>
    rw [if_pos rfl, BitVec.getLsbD_or, bit]
    by_cases same : j = i <;> simp [same]
  | false =>
    rw [if_neg Bool.false_ne_true, BitVec.getLsbD_and, BitVec.getLsbD_not, bit, decide_eq_true hj]
    by_cases same : j = i <;> simp [same]

/-- Settles O21: B.CTRL by its bits, which give the gate too, and the flags by the one bit each writes. -/
theorem controlRegisterInstructions : Obligations.ControlRegisterInstructions := by
  intro s p v present x
  refine ⟨?ctrl, ?sync, ?ring, exec_continues (f := fun x => advance { x with ext := v }) rfl present⟩
  case ctrl =>
    obtain ⟨upper, middle, gate⟩ := controlByte_bits x.ctrl p
    obtain ⟨t, next, continues⟩ := exec_continues (i := .bCtrl p)
      (f := fun x => advance { x with ctrl := controlByte x.ctrl p }) rfl present
    refine ⟨t, controlByte x.ctrl p, next, continues, upper 4 (by decide), upper 3 (by decide), upper 2 (by decide),
      upper 1 (by decide), upper 0 (by decide), middle 1 (by decide), middle 0 (by decide), gate, fun hB => ?_⟩
    rw [continues.2.2, hB]
    exact gate
  case sync =>
    obtain ⟨t, next, continues⟩ := exec_continues (i := .bSync v)
      (f := fun x => advance { x with ctrl := setBit x.ctrl 1 v }) rfl present
    exact ⟨t, _, next, continues, fun j hj => setBit_getLsbD _ v (by decide) hj⟩
  case ring =>
    obtain ⟨t, next, continues⟩ := exec_continues (i := .bRing v)
      (f := fun x => advance { x with ctrl := setBit x.ctrl 2 v }) rfl present
    exact ⟨t, _, next, continues, fun j hj => setBit_getLsbD _ v (by decide) hj⟩

theorem pitchSet_toInt (v : BitVec 4) : (pitchSet v).toInt = 16 * v.toInt := by
  have low := BitVec.le_toInt v
  have high := BitVec.toInt_lt (x := v)
  exact BitVec.toInt_ofInt_eq_self (by decide) (by omega) (by omega)

theorem widthSet_toNat (v : BitVec 4) : (widthSet v).toNat = 256 * v.toNat := by
  have := v.isLt
  rw [widthSet, BitVec.toNat_ofNat]
  omega

/-- Settles O22: the increments keep the operand, and the scaled values fit their registers. -/
theorem envelopeIncrementsAndSets : Obligations.EnvelopeIncrementsAndSets := by
  intro s v present x
  obtain ⟨t, setp, continuesPitch⟩ := exec_continues (i := .bSetp v)
    (f := fun x => advance { x with pitchEnv := pitchSet v }) rfl present
  obtain ⟨u, setw, continuesWidth⟩ := exec_continues (i := .bSetw v)
    (f := fun x => advance { x with pw := widthSet v }) rfl present
  exact ⟨exec_continues (f := fun x => advance { x with pitchRate := v }) rfl present,
    exec_continues (f := fun x => advance { x with pwRate := v }) rfl present,
    ⟨t, _, setp, continuesPitch, pitchSet_toInt v⟩, ⟨u, _, setw, continuesWidth, widthSet_toNat v⟩⟩

/-! ## What no instruction writes -/

/-- The registers of a channel that the sequencer owns: no instruction writes them (43_sequencer.md R254). -/
structure NoteKept (x y : Channel) : Prop where
  instr : y.instr = x.instr
  trigNote : y.trigNote = x.trigNote
  seqPat : y.seqPat = x.seqPat
  seqTr : y.seqTr = x.seqTr
  lastInstr : y.lastInstr = x.lastInstr

theorem setKindReg_setBinding_noteKept (k : Kind) (b : Byte) (r : TableBinding) (x : Channel) :
    NoteKept x (setKindReg k b (setBinding k r x)) := by
  cases k <;> exact ⟨rfl, rfl, rfl, rfl, rfl⟩

theorem writeLitOrTable_noteKept (k : Kind) (p : LitOrTable) (x : Channel) :
    NoteKept x (writeLitOrTable c m k p x) := by
  cases p with
  | lit l => cases k <;> exact ⟨rfl, rfl, rfl, rfl, rfl⟩
  | table n st =>
    rw [writeLitOrTable]
    by_cases absent : c.hasTables = false ∨ c.ntab ≤ n.toNat
    · rw [bindTable_absent absent]
      exact ⟨rfl, rfl, rfl, rfl, rfl⟩
    · rw [not_or, Bool.not_eq_false, not_le] at absent
      rw [bindTable_present absent.1 absent.2]
      exact setKindReg_setBinding_noteKept ..

theorem writeWave_noteKept (p : WaveSelect) (x : Channel) : NoteKept x (writeWave c p x) := by
  unfold writeWave
  split <;> exact ⟨rfl, rfl, rfl, rfl, rfl⟩

theorem writeEnd_noteKept (d : Dialect) (x : Channel) : NoteKept x (writeEnd d x) := by
  cases d <;> exact ⟨rfl, rfl, rfl, rfl, rfl⟩

/-- The cursor is not the sequencer's. -/
theorem NoteKept.advance {y : Channel} (h : NoteKept x y) : NoteKept x (advance y) := ⟨h.1, h.2, h.3, h.4, h.5⟩

/-- Each instruction's writes leave the sequencer's registers alone. -/
theorem exec_keeps_note (i : Instr) (s : State) :
    ∃ f : Channel → Channel, (exec i s = s.continueWith f ∨ exec i s = s.stopWith f) ∧ ∀ x, NoteKept x (f x) := by
  have kept : ∀ x y : Channel, y.instr = x.instr → y.trigNote = x.trigNote → y.seqPat = x.seqPat →
      y.seqTr = x.seqTr → y.lastInstr = x.lastInstr → NoteKept x y := fun _ _ => .mk
  cases i with
  | aLoop p =>
    by_cases zero : p = 0
    · exact ⟨_, .inr (exec_aLoop_end zero), fun _ => kept _ _ rfl rfl rfl rfl rfl⟩
    · exact ⟨_, .inl (exec_aLoop_back zero), fun _ => kept _ _ rfl rfl rfl rfl rfl⟩
  | bLoop o =>
    by_cases zero : o = 0
    · exact ⟨_, .inr (exec_bLoop_end zero), fun _ => kept _ _ rfl rfl rfl rfl rfl⟩
    · exact ⟨_, .inl (exec_bLoop_back zero), fun _ => kept _ _ rfl rfl rfl rfl rfl⟩
  | aEnd => exact ⟨_, .inr rfl, writeEnd_noteKept s.cfg.dialect⟩
  | aDuty p | aPan p | aVol p => exact ⟨_, .inl rfl, fun x => (writeLitOrTable_noteKept _ p x).advance⟩
  | aWave p => exact ⟨_, .inl rfl, fun x => (writeWave_noteKept p x).advance⟩
  | aWait | bWait | bNoff => exact ⟨_, .inr rfl, fun _ => kept _ _ rfl rfl rfl rfl rfl⟩
  | _ => exact ⟨_, .inl rfl, fun _ => kept _ _ rfl rfl rfl rfl rfl⟩

/-- A write to the current channel, or to none if it does not exist, keeps what the write keeps. -/
theorem mapCh_noteKept {f : Channel → Channel} (h : ∀ x, NoteKept x (f x)) :
    NoteKept (s.ch s.cur) ((s.mapCh s.cur f).ch s.cur) := by
  by_cases present : s.cur < s.voices.length
  · rw [State.mapCh_ch_same s s.cur f present]
    exact h _
  · rw [State.mapCh_absent s s.cur f (Nat.le_of_not_lt present)]
    exact ⟨rfl, rfl, rfl, rfl, rfl⟩

/-- Settles O24: an instruction is a write to the current channel that keeps the sequencer's registers. -/
theorem everyInstructionRunsOnItsChannelOnly : Obligations.EveryInstructionRunsOnItsChannelOnly := by
  intro i s
  obtain ⟨f, goesOn | stops, keeps⟩ := exec_keeps_note i s
  · obtain ⟨instr, trigNote, seqPat, seqTr, lastInstr⟩ := mapCh_noteKept (s := s) keeps
    exact ⟨_, goesOn, mapCh_onlyCurrent s f, .inl rfl, instr, trigNote, seqPat, seqTr, lastInstr⟩
  · obtain ⟨instr, trigNote, seqPat, seqTr, lastInstr⟩ := mapCh_noteKept (s := s) keeps
    exact ⟨_, stops, (mapCh_onlyCurrent s f).withPhase _, .inr rfl, instr, trigNote, seqPat, seqTr, lastInstr⟩

end Sys2Proof.Machine
end

section
/-! PROOFS. Modulation tables (40_interpreter.md R161, R162): the cases of a table step, the closed form of a bound
table's position, and tick step 1. And tick step 3 away from a song pattern's start (43_sequencer.md R245). -/

namespace Sys2Proof.Machine

variable {s t : State} {c : Config} {m : Memory} {k : Kind} {x : Channel}

/-! ## The cases of a table step -/

theorem stepIfBound_on (on : (binding k x).on = true) : stepIfBound c m k x = tableStep c m k x := if_pos on

theorem stepIfBound_off (off : (binding k x).on = false) : stepIfBound c m k x = x :=
  if_neg (by rw [off]; exact Bool.false_ne_true)

theorem tableStep_empty (h : tableLen c m k (binding k x).t.toNat = 0) : tableStep c m k x = x := if_pos h

/-- A position at or past a shortened table's length goes to the last value (40_interpreter.md R162). -/
theorem tableStep_past (h : 0 < tableLen c m k (binding k x).t.toNat)
    (past : tableLen c m k (binding k x).t.toNat ≤ (binding k x).idx.toNat) :
    tableStep c m k x =
      setKindReg k (tableValue c m k (binding k x).t.toNat (tableLen c m k (binding k x).t.toNat - 1))
        (setBinding k
          { binding k x with idx := BitVec.ofNat 8 (tableLen c m k (binding k x).t.toNat - 1) } x) :=
  (if_neg h.ne').trans (if_pos past)

theorem tableStep_moves (inside : (binding k x).idx.toNat + 1 < tableLen c m k (binding k x).t.toNat)
    (due : (binding k x).cnt - 1 = 0) :
    tableStep c m k x =
      setKindReg k (tableValue c m k (binding k x).t.toNat ((binding k x).idx.toNat + 1))
        (setBinding k { binding k x with idx := (binding k x).idx + 1, cnt := (binding k x).s } x) :=
  ((if_neg (by omega)).trans (if_neg (by omega))).trans ((if_pos inside).trans (if_pos due))

theorem tableStep_waits (inside : (binding k x).idx.toNat + 1 < tableLen c m k (binding k x).t.toNat)
    (early : (binding k x).cnt - 1 ≠ 0) :
    tableStep c m k x = setBinding k { binding k x with cnt := (binding k x).cnt - 1 } x :=
  ((if_neg (by omega)).trans (if_neg (by omega))).trans ((if_pos inside).trans (if_neg early))

/-- The last value is held, without wrapping. -/
theorem tableStep_holds (last : (binding k x).idx.toNat + 1 = tableLen c m k (binding k x).t.toNat) :
    tableStep c m k x = x :=
  ((if_neg (by omega)).trans (if_neg (by omega))).trans (if_neg (by omega))

/-! ## The closed form -/

theorem tableLen_le (h : c.tabCap ≤ 255) (n : Nat) : tableLen c m k n ≤ 255 := (Nat.min_le_right _ _).trans h

/-- What table `n` bound with stretch `st` has reached after `j` ticks: the position of the closed form with its value
in the register, and, before the last position, the ticks left there (40_interpreter.md R161). -/
structure BoundAfter (c : Config) (m : Memory) (k : Kind) (n : BitVec 3) (st : BitVec 4) (j : Nat) (x : Channel) :
    Prop where
  on : (binding k x).on = true
  table : (binding k x).t = n
  stretch : (binding k x).s = st
  position : (binding k x).idx.toNat = min (j / st.toNat) (tableLen c m k n.toNat - 1)
  value : kindReg k x = tableValue c m k n.toNat (min (j / st.toNat) (tableLen c m k n.toNat - 1))
  ticks : j / st.toNat < tableLen c m k n.toNat - 1 → (binding k x).cnt.toNat = st.toNat - j % st.toNat

/-- The next tick is the next of the same stretch, or the first of the next one. -/
theorem div_mod_succ (j : Nat) {d : Nat} (hd : 0 < d) :
    (j % d + 1 < d ∧ (j + 1) / d = j / d ∧ (j + 1) % d = j % d + 1) ∨
    (j % d + 1 = d ∧ (j + 1) / d = j / d + 1 ∧ (j + 1) % d = 0) := by
  have split := Nat.div_add_mod j d
  have below := Nat.mod_lt j hd
  by_cases last : j % d + 1 = d
  · have next : d * (j / d + 1) = j + 1 := by rw [Nat.mul_add]; omega
    exact .inr ⟨last, (Nat.div_mod_unique hd).mpr ⟨by omega, hd⟩⟩
  · exact .inl ⟨by omega, (Nat.div_mod_unique hd).mpr ⟨by omega, by omega⟩⟩

variable {n : BitVec 3} {st : BitVec 4} {j : Nat}

/-- A table just bound stands at its first value with a whole stretch left. -/
theorem BoundAfter.bind (tables : c.hasTables = true) (inside : n.toNat < c.ntab) (values : 0 < tableLen c m k n.toNat)
    (st : BitVec 4) (x : Channel) : BoundAfter c m k n (stretchOf st) 0 (bindTable c m k n st x) := by
  rw [bindTable_present tables inside, if_pos values]
  constructor <;> simp

/-- One tick takes the closed form to the next. -/
theorem BoundAfter.step (h : BoundAfter c m k n st j x) (cap : c.tabCap ≤ 255) (hst : 0 < st.toNat)
    (values : 0 < tableLen c m k n.toNat) : BoundAfter c m k n st (j + 1) (stepIfBound c m k x) := by
  obtain ⟨on, table, stretch, position, value, ticks⟩ := h
  have short : tableLen c m k n.toNat ≤ 255 := tableLen_le cap _
  rw [stepIfBound_on on]
  have next := div_mod_succ j hst
  by_cases last : tableLen c m k n.toNat - 1 ≤ j / st.toNat
  · have stays : tableLen c m k n.toNat - 1 ≤ (j + 1) / st.toNat := last.trans (Nat.div_le_div_right (Nat.le_succ j))
    rw [Nat.min_eq_right last] at position value
    rw [tableStep_holds (by rw [table, position]; omega)]
    exact ⟨on, table, stretch, by rw [Nat.min_eq_right stays]; exact position,
      by rw [Nat.min_eq_right stays]; exact value, fun below => absurd below stays.not_gt⟩
  · have before : j / st.toNat < tableLen c m k n.toNat - 1 := Nat.lt_of_not_le last
    have left := ticks before
    rw [Nat.min_eq_left before.le] at position value
    have inside : (binding k x).idx.toNat + 1 < tableLen c m k (binding k x).t.toNat := by
      rw [table, position]
      omega
    obtain ⟨more, sameDiv, nextMod⟩ | ⟨full, nextDiv, zeroMod⟩ := next
    · have early : (binding k x).cnt - 1 ≠ 0 := by bv_omega
      rw [tableStep_waits inside early]
      constructor
      case on => simpa using on
      case table => simpa using table
      case stretch => simpa using stretch
      case position => simpa [sameDiv, Nat.min_eq_left before.le] using position
      case value => simpa [sameDiv, Nat.min_eq_left before.le] using value
      case ticks =>
        intro _
        rw [binding_setBinding, nextMod]
        show ((binding k x).cnt - 1).toNat = _
        bv_omega
    · have due : (binding k x).cnt - 1 = 0 := by bv_omega
      rw [tableStep_moves inside due]
      constructor
      case on => simpa using on
      case table => simpa using table
      case stretch => simpa using stretch
      case position =>
        rw [binding_setKindReg, binding_setBinding, nextDiv, Nat.min_eq_left before]
        show ((binding k x).idx + 1).toNat = _
        bv_omega
      case value => rw [kindReg_setKindReg, nextDiv, Nat.min_eq_left before, table, position]
      case ticks =>
        intro _
        rw [binding_setKindReg, binding_setBinding, zeroMod]
        exact congrArg BitVec.toNat stretch

theorem BoundAfter.iterate (tables : c.hasTables = true) (inside : n.toNat < c.ntab)
    (values : 0 < tableLen c m k n.toNat) (cap : c.tabCap ≤ 255) (st : BitVec 4) (x : Channel) (j : Nat) :
    BoundAfter c m k n (stretchOf st) j ((stepIfBound c m k)^[j] (bindTable c m k n st x)) := by
  induction j with
  | zero => exact .bind tables inside values st x
  | succ j ih =>
    rw [Function.iterate_succ_apply']
    exact ih.step cap (stretchOf_pos st) values

theorem stretchOf_toNat (st : BitVec 4) : (stretchOf st).toNat = max st.toNat 1 := by
  have := st.isLt
  rw [stretchOf_eq, BitVec.toNat_ofNat]
  omega

/-! ## Tick step 1 -/

/-- A step of one kind leaves the other kinds' bindings and registers alone. -/
theorem stepIfBound_other {i : Kind} (h : i ≠ k) (x : Channel) :
    binding i (stepIfBound c m k x) = binding i x ∧ kindReg i (stepIfBound c m k x) = kindReg i x := by
  obtain ⟨f, hf⟩ := stepIfBound_cases c m k
  rw [hf, binding_setKindReg, kindReg_setKindReg_other h, kindReg_setBinding, binding_setBinding_other h]
  exact ⟨rfl, rfl⟩

/-- What a step writes depends on the binding and the register of its kind alone. -/
theorem stepIfBound_congr {y : Channel} (hb : binding k x = binding k y) (hr : kindReg k x = kindReg k y) :
    binding k (stepIfBound c m k x) = binding k (stepIfBound c m k y) ∧
      kindReg k (stepIfBound c m k x) = kindReg k (stepIfBound c m k y) := by
  obtain ⟨f, hf⟩ := stepIfBound_cases c m k
  simp only [hf, hb, hr, binding_setKindReg, binding_setBinding, kindReg_setKindReg, and_self]

/-- Tick step 1 steps each kind as if it were the only one. -/
theorem tableSteps_kind (k : Kind) (x : Channel) :
    binding k (tableSteps c m x) = binding k (stepIfBound c m k x) ∧
      kindReg k (tableSteps c m x) = kindReg k (stepIfBound c m k x) := by
  have volDuty := fun y => stepIfBound_other (c := c) (m := m) (k := .vol) (i := .duty) nofun y
  have volPan := fun y => stepIfBound_other (c := c) (m := m) (k := .vol) (i := .pan) nofun y
  have dutyVol := fun y => stepIfBound_other (c := c) (m := m) (k := .duty) (i := .vol) nofun y
  have dutyPan := fun y => stepIfBound_other (c := c) (m := m) (k := .duty) (i := .pan) nofun y
  have panVol := fun y => stepIfBound_other (c := c) (m := m) (k := .pan) (i := .vol) nofun y
  have panDuty := fun y => stepIfBound_other (c := c) (m := m) (k := .pan) (i := .duty) nofun y
  unfold tableSteps
  cases k with
  | vol => exact ⟨(panVol _).1.trans (dutyVol _).1, (panVol _).2.trans (dutyVol _).2⟩
  | duty =>
    have stepped := stepIfBound_congr (c := c) (m := m) (volDuty x).1 (volDuty x).2
    exact ⟨(panDuty _).1.trans stepped.1, (panDuty _).2.trans stepped.2⟩
  | pan =>
    exact stepIfBound_congr ((dutyPan _).1.trans (volPan x).1) ((dutyPan _).2.trans (volPan x).2)

/-- `y` is `x` but for the bound registers and their bindings. -/
def OnlyTables (x y : Channel) : Prop :=
  y = { x with vol := y.vol, duty := y.duty, pan := y.pan, tbVol := y.tbVol, tbDuty := y.tbDuty, tbPan := y.tbPan }

theorem OnlyTables.trans {y z : Channel} (h : OnlyTables x y) (g : OnlyTables y z) : OnlyTables x z := by
  refine Eq.trans g ?_
  conv_lhs => rw [h]

theorem stepIfBound_onlyTables (k : Kind) (x : Channel) : OnlyTables x (stepIfBound c m k x) := by
  obtain ⟨f, hf⟩ := stepIfBound_cases c m k
  rw [hf]
  cases k <;> rfl

/-- Tick step 1 writes the bound registers and their bindings and nothing else of the channel. -/
theorem tableSteps_onlyTables (x : Channel) : OnlyTables x (tableSteps c m x) :=
  ((stepIfBound_onlyTables .vol x).trans (stepIfBound_onlyTables .duty _)).trans (stepIfBound_onlyTables .pan _)

theorem tablesDone_voice {i : Nat} (h : i < s.voices.length) :
    s.tablesDone.voice i = { s.voice i with ch := tableSteps s.cfg s.store (s.ch i) } :=
  voice_of_map (f := fun v => { v with ch := tableSteps s.cfg s.store v.ch }) rfl h

/-- Settles O26: the closed form by induction over the ticks, the cases of one step, and tick step 1 channel by channel
and kind by kind. -/
theorem boundTableStepsAndHolds : Obligations.BoundTableStepsAndHolds := by
  refine ⟨?closedForm, ?edges, fun c m k x off => stepIfBound_off off, ?tick⟩
  case closedForm =>
    intro c m k n st x j tables inside cap values y pos
    obtain ⟨on, table, -, position, value, -⟩ := BoundAfter.iterate tables inside values cap st x j
    rw [stretchOf_toNat] at position value
    exact ⟨value, position, on, table⟩
  case edges =>
    intro c m k x cap on len
    rw [stepIfBound_on on]
    refine ⟨fun empty => tableStep_empty empty, fun values past => ?_⟩
    rw [tableStep_past values past, kindReg_setKindReg, binding_setKindReg, binding_setBinding]
    exact ⟨rfl, rfl⟩
  case tick =>
    intro s hp bound
    refine ⟨s.tablesDone, (step_tables hp).trans (tablesStep_of_bound bound), rfl, List.length_map _, fun i hi => ?_⟩
    have voice := tablesDone_voice hi
    have ch : s.tablesDone.ch i = tableSteps s.cfg s.store (s.ch i) := congrArg Voice.ch voice
    dsimp only
    rw [ch]
    exact ⟨voice, fun k => tableSteps_kind k _, tableSteps_onlyTables _⟩

/-! ## Tick step 3 away from a song pattern's start -/

theorem rowPhase_of_idle (idle : s.eng.mode = .idle) : rowPhase s = .next { s with cur := 0, phase := .run } := by
  simp [rowPhase, rowDue, idle]

/-- In PATTERN mode the one channel plays its row (43_sequencer.md R245). -/
theorem playRows_pattern (h : s.eng.mode = .pattern) :
    s.playRows = s.mapCh s.eng.patCh.toNat
      (processRow s.cfg s.store (readRow s.cfg s.store s.eng.patIdx.toNat s.eng.row.toNat) 0) := if_pos h

/-- Settles O29: idle, waiting, and a row of every channel or of the one. -/
theorem rowStepWaitsOrPlaysRows : Obligations.RowStepWaitsOrPlaysRows := by
  intro s hp inside _ advanced played
  have running : s.eng.mode ≠ .idle → step s = .next { s.rowStep with cur := 0, phase := .run } :=
    fun mode => (step_row hp).trans (rowPhase_of_running mode inside)
  refine ⟨fun idle => (step_row hp).trans (rowPhase_of_idle idle), fun mode wait => ?waits,
    fun song wait start => ?song, fun pattern wait present => ?pattern⟩
  case waits => rw [running mode, rowStep_waits wait]
  case song =>
    have rows : s.rowStep = s.reloadWait.playRows.nextRow := rowStep_rows wait fun both => start both.2
    have stepped := running (by rw [song]; nofun)
    rw [rows, playRows_song (s := s.reloadWait) song] at stepped
    exact ⟨_, stepped, rfl, List.length_map _, fun i hi =>
      voice_of_map (s := s) (f := playVoice s.cfg s.store s.eng.row.toNat) rfl hi⟩
  case pattern =>
    have rows : s.rowStep = s.reloadWait.playRows.nextRow :=
      rowStep_rows wait fun both => by rw [pattern] at both; cases both.1
    have stepped := running (by rw [pattern]; nofun)
    rw [rows, playRows_pattern (s := s.reloadWait) pattern] at stepped
    exact ⟨_, stepped, rfl, fun i hi => State.mapCh_voice_other s.reloadWait _ i _ hi,
      State.mapCh_voice_same s.reloadWait _ _ present⟩

end Sys2Proof.Machine
end

section
/-! PROOFS. The host's commands (46_host.md): the store commands and the answers out of range, the commands that stop
everything, the play commands and the queries. -/

namespace Sys2Proof.Machine

variable {s : State} {c : Config} {x : Channel} {rest : List Command}

/-! ## The store -/

theorem readByte_write (m : Memory) (a k : Nat) (b : Byte) :
    (m.write a b).read k = if k = a then b else m.read k := by
  split
  next same => rw [same, Memory.read_write_same]
  next other => exact Memory.read_write_other m b other

/-- An argument out of range is answered `ERR_RANGE` (46_host.md R375). -/
theorem runCommand_errRange {cmd : Command}
    (h : (∃ p r k, cmd = .playPatternFrom p r k ∧ s.cfg.nch ≤ k) ∨ (∃ n k i d, cmd = .plonk n k i d ∧ s.cfg.nch ≤ k) ∨
      (∃ a b, cmd = .writeStore a b ∧ storeSize s.cfg ≤ a) ∨ (∃ a, cmd = .readStore a ∧ storeSize s.cfg ≤ a)) :
    runCommand cmd s = s.answer .errRange := by
  obtain ⟨p, r, k, rfl, past⟩ | ⟨n, k, i, d, rfl, past⟩ | ⟨a, b, rfl, past⟩ | ⟨a, rfl, past⟩ := h
  · exact if_neg past.not_gt
  · exact if_neg past.not_gt
  · exact if_neg past.not_gt
  · exact if_neg past.not_gt

/-- Settles O47: each store command does its work inside the store, and an argument out of range does nothing. -/
theorem storeCommandsAndRangeRefusals : Obligations.StoreCommandsAndRangeRefusals := by
  intro s cmd rest hp issued hopen hcfg
  have stepped := step_command hp hopen hcfg issued
  refine ⟨?write, ?read, fun outside => stepped.trans (congrArg _ (runCommand_errRange outside))⟩
  case write =>
    rintro a b rfl inside
    exact ⟨_, stepped.trans (congrArg _ (if_pos inside)), rfl, fun k => readByte_write s.store a k b⟩
  case read =>
    rintro a rfl inside
    exact stepped.trans (congrArg _ (if_pos inside))

/-! ## Stopping -/

/-- `Stop` writes a channel's stop column and clears its live-preview latch (43_sequencer.md R262). -/
theorem stopAll_voice {k : Nat} (h : k < s.voices.length) :
    s.stopAll.voice k = { s.voice k with ch := channelStop (s.ch k), plonk := .none } :=
  voice_of_map (f := fun v => { v with ch := channelStop v.ch, plonk := .none }) rfl h

theorem silence_voice {k : Nat} (h : k < s.voices.length) :
    s.silence.voice k = silenceVoice s.cfg { s.voice k with ch := channelStop (s.ch k), plonk := .none } := by
  have stopped : k < s.stopAll.voices.length := by rw [State.stopAll_length]; exact h
  rw [← stopAll_voice h]
  exact voice_of_map (s := s.stopAll) rfl stopped

theorem gateOf_channelStop (d : Dialect) (x : Channel) : gateOf d (channelStop x) = false := by
  cases d with
  | A => rfl
  | B => exact BitVec.getLsbD_zero

/-- Settles O48: the three commands leave every channel stopped; `Silence` clears the synthesizer too, `NewSong` the
store. -/
theorem stopSilenceAndNewSong : Obligations.StopSilenceAndNewSong := by
  intro s cmd rest hp hopen hcfg issued which
  have stepped := step_command hp hopen hcfg issued
  have gate := fun k => gateOf_channelStop s.cfg.dialect (s.ch k)
  obtain rfl | rfl | rfl := which
  case inl =>
    refine ⟨_, stepped, rfl, nofun, fun _ => rfl, fun _ => rfl, nofun, State.stopAll_length s, fun k hk => ?_⟩
    have voice : (runCommand .stop { s with cmds := rest }).voice k = _ := stopAll_voice hk
    rw [State.ch, voice]
    exact ⟨rfl, gate k, rfl, rfl, rfl, rfl, rfl, rfl, nofun, fun _ => ⟨rfl, rfl⟩⟩
  case inr.inl =>
    refine ⟨_, stepped, rfl, fun _ => rfl, fun h => absurd rfl h, fun _ => rfl, nofun,
      (List.length_map _).trans (State.stopAll_length s), fun k hk => ?_⟩
    have voice : (runCommand .silence { s with cmds := rest }).voice k = _ := silence_voice hk
    rw [State.ch, voice]
    exact ⟨rfl, gate k, rfl, rfl, rfl, rfl, rfl, rfl, fun _ => ⟨rfl, rfl⟩, fun h => absurd rfl h⟩
  case inr.inr =>
    refine ⟨_, stepped, rfl, nofun, fun _ => rfl, fun h => absurd rfl h, fun _ a => rfl, State.stopAll_length s,
      fun k hk => ?_⟩
    have voice : (runCommand .newSong { s with cmds := rest }).voice k = _ := stopAll_voice hk
    rw [State.ch, voice]
    exact ⟨rfl, gate k, rfl, rfl, rfl, rfl, rfl, rfl, nofun, fun _ => ⟨rfl, rfl⟩⟩

/-! ## Playing -/

/-- Stopping keeps a channel's oscillator and its synthesizer state (70_reset_and_hazards.md R412). -/
theorem stopAll_voice_kept {k : Nat} (h : k < s.voices.length) :
    (s.stopAll.voice k).osc = (s.voice k).osc ∧ (s.stopAll.voice k).left = (s.voice k).left ∧
      (s.stopAll.voice k).right = (s.voice k).right := by
  rw [stopAll_voice h]
  exact ⟨rfl, rfl, rfl⟩

/-- Settles O49: a play command is `Stop` and the start of its mode. -/
theorem playCommandsStopThenStart : Obligations.PlayCommandsStopThenStart := by
  intro s p r k rest hp hopen hcfg kept
  have counts := configOk_counts hcfg
  refine ⟨fun issued => ?song, fun issued inside => ?pattern⟩
  case song =>
    refine ⟨_, step_command hp hopen hcfg issued, rfl,
      ⟨rfl, rfl, rfl, rfl, fun i hi => stopAll_voice_kept (s := s) hi⟩, rfl, ?_⟩
    exact BitVec.toNat_setWidth_of_le (by decide)
  case pattern =>
    have started := (step_command hp hopen hcfg issued).trans (congrArg _ (if_pos inside))
    refine ⟨_, started, rfl, ⟨rfl, rfl, rfl, rfl, fun i hi => stopAll_voice_kept (s := s) hi⟩, rfl, ?patCh, ?row⟩
    case patCh => exact (BitVec.toNat_ofNat ..).trans (Nat.mod_eq_of_lt (by omega))
    case row =>
      have below : r.toNat % s.cfg.patLen < s.cfg.patLen := Nat.mod_lt _ (by omega)
      have fits : r.toNat % s.cfg.patLen < 2 ^ 8 := by omega
      exact (BitVec.toNat_ofNat ..).trans (Nat.mod_eq_of_lt fits)

/-! ## Queries -/

/-- The mode is the lowest digit of `STATUS`, whatever stands above it (10_state.md R32). -/
theorem isPlayingBit_eq (s : State) : isPlayingBit s = decide (s.eng.mode ≠ .idle) := by
  have low : ((statusWord s).extractLsb' 0 2).toNat = modeCode s.eng.mode := by
    have := modeCode_le s.eng.mode
    rw [BitVec.extractLsb'_toNat, statusWord, BitVec.toNat_ofNat, Nat.shiftRight_zero]
    split <;> omega
  rw [Bool.eq_iff_iff, isPlayingBit, bne_iff_ne, decide_eq_true_iff, ne_eq, ← BitVec.toNat_inj, low]
  exact not_congr (modeCode_eq_zero_iff _)

/-- Settles O51: each query answers what it reads of the state, which the queue of commands is no part of. -/
theorem queriesAnswerAndChangeNothing : Obligations.QueriesAnswerAndChangeNothing := by
  intro s rest hp hopen hcfg answers
  have stepped := fun {cmd} => step_command (cmd := cmd) (rest := rest) hp hopen hcfg
  refine ⟨stepped, fun issued => ?playing, stepped, stepped, stepped, stepped⟩
  case playing =>
    rw [← isPlayingBit_eq s]
    exact stepped issued

end Sys2Proof.Machine
end

section
/-! PROOFS. The modulation of dialect A (44_oscillator.md R290 to R294): the slew by its three cases, and what is
latched in each vibrato mode. -/

namespace Sys2Proof.Machine

variable {c : Config} {v : Voice}

/-! ## The slew -/

/-- Near the target, or with inertia off, the step goes onto it (44_oscillator.md R290). -/
theorem slew_onto {i a t : Int} (h : i = 0 ∨ |t - a| ≤ i) : slew i a t = t :=
  if_pos (by rwa [Int.natCast_natAbs])

theorem slew_up {i a t : Int} (h0 : 0 < i) (h : i < t - a) : slew i a t = a + i := by
  have far : ¬(i = 0 ∨ ((t - a).natAbs : Int) ≤ i) := by omega
  refine (if_neg far).trans ?_
  rw [Int.sign_eq_one_of_pos (by omega), one_mul]

theorem slew_down {i a t : Int} (h0 : 0 < i) (h : i < a - t) : slew i a t = a - i := by
  have far : ¬(i = 0 ∨ ((t - a).natAbs : Int) ≤ i) := by omega
  refine (if_neg far).trans ?_
  rw [Int.sign_eq_neg_one_of_neg (by omega), neg_one_mul, sub_eq_add_neg]

/-! ## What a tick latches -/

/-- The registers a tick modulates with: the volume faded and the pitch bent (44_oscillator.md R280). -/
def bentChannel (v : Voice) : Channel := bendPitch (fadeVolume v.ch)

/-- The step after a tick's slew, as an integer (44_oscillator.md R290). -/
def slewedStep (c : Config) (v : Voice) : Int :=
  slew v.ch.inertia.toNat v.osc.curStep.toNat (pitchTarget c (bentChannel v))

/-- With vibrato on pitch, the step takes the offset and the duty is the channel's (44_oscillator.md R293). -/
theorem modulateA_osc_pitch (h : v.ch.vibMode = false) :
    (modulateA c v).osc =
      { v.osc with
        curStep := BitVec.ofInt 32 (slewedStep c v)
        step := BitVec.ofInt 32 (clamp (slewedStep c v +
          vibOffset (sineAt c v.ch.vibPhase) v.ch.vibDepth.toNat (slewedStep c v)) 0 maxStep)
        duty := v.ch.duty } :=
  if_neg (by rw [show (bendPitch (fadeVolume v.ch)).vibMode = false from h]; exact Bool.false_ne_true)

/-- With vibrato on duty, the step is the slewed one and the duty takes the offset (44_oscillator.md R294). -/
theorem modulateA_osc_duty (h : v.ch.vibMode = true) :
    (modulateA c v).osc =
      { v.osc with
        curStep := BitVec.ofInt 32 (slewedStep c v)
        step := BitVec.ofInt 32 (slewedStep c v)
        duty := BitVec.ofInt 8 (clamp (v.ch.duty.toNat +
          asr (sineAt c v.ch.vibPhase * v.ch.vibDepth.toNat) 7) 0 255) } :=
  if_pos h

theorem modulateA_curStep (c : Config) (v : Voice) :
    (modulateA c v).osc.curStep = BitVec.ofInt 32 (slewedStep c v) := by
  cases mode : v.ch.vibMode with
  | false => rw [modulateA_osc_pitch mode]
  | true => rw [modulateA_osc_duty mode]

theorem modulateA_osc_frame (c : Config) (v : Voice) :
    let o := (modulateA c v).osc
    o = { v.osc with curStep := o.curStep, step := o.step, duty := o.duty } := by
  cases mode : v.ch.vibMode with
  | false => rw [modulateA_osc_pitch mode]
  | true => rw [modulateA_osc_duty mode]

/-- From a step in range the slewed step is in range, and its register keeps it. -/
theorem modulateA_curStep_toNat (h : v.osc.curStep.toNat ≤ 0x7FFFFFFF) :
    ((modulateA c v).osc.curStep.toNat : Int) = slewedStep c v ∧ slewedStep c v ≤ 0x7FFFFFFF := by
  have old : 0 ≤ (v.osc.curStep.toNat : Int) ∧ (v.osc.curStep.toNat : Int) ≤ maxStep :=
    ⟨by omega, show (v.osc.curStep.toNat : Int) ≤ 0x7FFFFFFF by omega⟩
  have range := slew_range v.ch.inertia.toNat v.osc.curStep.toNat (pitchTarget c (bentChannel v)) (by omega) old
    (clamp_range _ 0 maxStep (by decide))
  rw [modulateA_curStep]
  exact ⟨ofInt_toNat _ range.1 (range.2.trans_lt (by decide)), range.2⟩

/-- The target is the note's step and the bend, in the range of steps (44_oscillator.md R280). -/
theorem pitchTarget_bent (c : Config) (v : Voice) :
    pitchTarget c (bentChannel v) =
      min (max ((c.freqA.getD v.ch.progNote.toNat 0 : Int) +
        min (max (v.ch.bendAcc.toInt + 256 * v.ch.bendRate.toInt) (-2 ^ 31)) (2 ^ 31 - 1)) 0) 0x7FFFFFFF :=
  congrArg (fun bend => clamp (freqAAt c v.ch.progNote + bend) 0 maxStep) (bendPitch_bendAcc (fadeVolume v.ch))

/-- Settles O36: the slew's three cases, and the latch in each vibrato mode, read back as integers. -/
theorem dialectASlewsAndLatches : Obligations.DialectASlewsAndLatches := by
  intro c v w old limit bend target new sine depth
  refine ⟨⟨rfl, rfl, modulateA_osc_frame c v⟩, ⟨fadeVolume_vol v.ch, bendPitch_bendAcc _, rfl⟩, fun inRange => ?_⟩
  obtain ⟨stepped, bound⟩ := modulateA_curStep_toNat (c := c) inRange
  have slewed : new = slew limit old target :=
    stepped.trans (congrArg (slew limit old) (pitchTarget_bent c v))
  refine ⟨fun near => slewed.trans (slew_onto near), fun on up => slewed.trans (slew_up (by omega) up),
    fun on down => slewed.trans (slew_down (by omega) down), stepped.trans_le bound, fun pitch => ⟨?step, ?duty⟩,
    fun duty => ⟨?sameStep, ?swung⟩⟩
  case step =>
    have latched := modulateA_osc_pitch (c := c) pitch
    rw [← stepped] at latched
    rw [latched]
    exact ofInt_clamp_toNat _ (by decide) (by decide)
  case duty => exact congrArg Osc.duty (modulateA_osc_pitch pitch)
  case sameStep =>
    have latched : w.osc = _ := modulateA_osc_duty duty
    rw [latched]
  case swung =>
    have latched : w.osc = _ := modulateA_osc_duty duty
    rw [latched]
    exact ofInt_clamp_toNat _ (by decide) (by decide)

end Sys2Proof.Machine
end

section
/-! PROOFS. The oscillators (44_oscillator.md R300 to R308): one clock of one channel, its source and its sync, and the
levels of both dialects. -/

namespace Sys2Proof.Machine

variable {c cfg : Config} {m : Memory} {v u : Voice} {vs : List Voice}

/-! ## One clock -/

/-- TEST holds the oscillator (44_oscillator.md R300). -/
def heldByTest (cfg : Config) (v : Voice) : Prop := cfg.dialect = .B ∧ v.ch.ctrl.getLsbD 3 = true

theorem clockOsc_held (h : heldByTest cfg v) :
    clockOsc cfg v = { v.osc with phase := 0, lfsr := cfg.noiseSeed, wrapped := false } :=
  if_pos (by simpa [heldByTest] using h)

theorem clockOsc_free (h : ¬heldByTest cfg v) : clockOsc cfg v = advancePhase cfg v.osc :=
  if_neg (by simpa [heldByTest] using h)

/-- A channel has wrapped just when TEST does not hold it and its phase overflows (44_oscillator.md R300). -/
theorem clockOsc_wrapped :
    (clockOsc cfg v).wrapped = true ↔ ¬heldByTest cfg v ∧ 2 ^ 32 ≤ v.osc.phase.toNat + v.osc.step.toNat := by
  by_cases held : heldByTest cfg v
  · rw [clockOsc_held held]
    simp [held]
  · rw [clockOsc_free held]
    simp [advancePhase, held]

/-- The channel's SYNC bit is set and its source wraps at this clock (44_oscillator.md R307). -/
def syncedBy (cfg : Config) (v u : Voice) : Prop :=
  cfg.dialect = .B ∧ v.ch.ctrl.getLsbD 1 = true ∧ ¬heldByTest cfg u ∧ 2 ^ 32 ≤ u.osc.phase.toNat + u.osc.step.toNat

/-- The channels after every phase has advanced, before hard sync. -/
def advancedVoices (cfg : Config) (vs : List Voice) : List Voice := vs.map fun v => { v with osc := clockOsc cfg v }

theorem clockVoices_getElem? {i : Nat} (h : vs[i]? = some v) :
    (clockVoices cfg vs)[i]? = some (syncVoice cfg (advancedVoices cfg vs) i { v with osc := clockOsc cfg v }) := by
  simp [clockVoices, advancedVoices, h]

theorem sourceOsc_advanced {i : Nat} (h : vs[sourceOf cfg.nch i]? = some u) :
    sourceOsc cfg (advancedVoices cfg vs) i = clockOsc cfg u := by
  simp [sourceOsc, advancedVoices, h]

/-- A clock is the phase's advance, and a restart of the phase if the channel is synced. -/
theorem clockVoices_voice {i : Nat} (hv : vs[i]? = some v) (hu : vs[sourceOf cfg.nch i]? = some u) :
    ∃ w, (clockVoices cfg vs)[i]? = some w ∧ w = { v with osc := w.osc } ∧
      (syncedBy cfg v u ∧ w.osc = { clockOsc cfg v with phase := 0 } ∨ ¬syncedBy cfg v u ∧ w.osc = clockOsc cfg v) := by
  refine ⟨_, clockVoices_getElem? hv, ?_⟩
  have test : (cfg.dialect = .B && v.ch.ctrl.getLsbD 1 && (sourceOsc cfg (advancedVoices cfg vs) i).wrapped) = true ↔
      syncedBy cfg v u := by
    rw [sourceOsc_advanced hu, Bool.and_eq_true, Bool.and_eq_true, clockOsc_wrapped, decide_eq_true_eq, and_assoc]
    rfl
  unfold syncVoice
  by_cases synced : syncedBy cfg v u
  · rw [if_pos (test.mpr synced)]
    exact ⟨rfl, .inl ⟨synced, rfl⟩⟩
  · rw [if_neg fun h => synced (test.mp h)]
    exact ⟨rfl, .inr ⟨synced, rfl⟩⟩

/-- What the phase's advance leaves in the noise register (44_oscillator.md R303). -/
theorem advancePhase_lfsr (cfg : Config) (o : Osc) :
    ((o.phase + o.step).extractLsb' 28 4 = o.phase.extractLsb' 28 4 → (advancePhase cfg o).lfsr = o.lfsr) ∧
    ((o.phase + o.step).extractLsb' 28 4 ≠ o.phase.extractLsb' 28 4 →
      (advancePhase cfg o).lfsr = if o.lfsr.getLsbD 0 then (o.lfsr >>> 1) ^^^ cfg.noiseTaps else o.lfsr >>> 1) :=
  ⟨fun same => if_pos same, fun changed => if_neg changed⟩

/-- Settles O39: the two cases of TEST, each with or without the restart. -/
theorem oscillatorClock : Obligations.OscillatorClock := by
  intro cfg vs i v u _ _ hv hu held next synced
  obtain ⟨w, clocked, frame, osc⟩ := clockVoices_voice hv hu
  refine ⟨w, clocked, frame, ?kept, fun hold => ?held, fun free => ?free⟩
  case kept =>
    by_cases hold : heldByTest cfg v
    · rw [clockOsc_held hold] at osc
      obtain ⟨-, osc⟩ | ⟨-, osc⟩ := osc <;> rw [osc]
    · rw [clockOsc_free hold] at osc
      obtain ⟨-, osc⟩ | ⟨-, osc⟩ := osc <;> (rw [osc]; rfl)
  case held =>
    rw [clockOsc_held hold] at osc
    obtain ⟨-, osc⟩ | ⟨-, osc⟩ := osc <;> exact osc
  case free =>
    rw [clockOsc_free free] at osc
    obtain ⟨noiseKept, noiseShifts⟩ := advancePhase_lfsr cfg v.osc
    obtain ⟨restarts, osc⟩ | ⟨runs, osc⟩ := osc
    · rw [osc]
      exact ⟨rfl, fun _ => rfl, fun h => absurd restarts h, noiseKept, noiseShifts⟩
    · rw [osc]
      exact ⟨rfl, fun h => absurd h runs, fun _ => rfl, noiseKept, noiseShifts⟩

/-! ## Levels -/

theorem phaseTop_toNat (ph : BitVec 32) : (phaseTop ph).toNat = ph.toNat / 2 ^ 24 := by
  have := ph.isLt
  rw [phaseTop, BitVec.extractLsb'_toNat, Nat.shiftRight_eq_div_pow]
  omega

/-- The triangle with its fold bit, bit by bit: folded, the ramp is inverted (44_oscillator.md R301). -/
theorem triLevel_getLsbD (fold : Bool) (ph : BitVec 32) {j : Nat} (hj : j < 8) :
    (triLevel fold ph).getLsbD j = (ph.getLsbD (23 + j) != fold) := by
  unfold triLevel
  cases fold with
  | false => simp [hj]
  | true =>
    have inverted : 255#8 - ph.extractLsb' 23 8 = ~~~(ph.extractLsb' 23 8) := BitVec.allOnes_sub_eq_not _
    rw [if_pos rfl, inverted, BitVec.getLsbD_not, BitVec.getLsbD_extractLsb']
    simp [hj]

theorem triLevel_toNat (ph : BitVec 32) :
    (triLevel (ph.getLsbD 31) ph).toNat =
      if ph.toNat < 2 ^ 31 then ph.toNat / 2 ^ 23 else 511 - ph.toNat / 2 ^ 23 := by
  have bound := ph.isLt
  have ramp : (ph.extractLsb' 23 8).toNat = ph.toNat / 2 ^ 23 % 256 := by
    rw [BitVec.extractLsb'_toNat, Nat.shiftRight_eq_div_pow]
  have fold : ph.getLsbD 31 = decide (2 ^ 31 ≤ ph.toNat) := by
    rw [← BitVec.testBit_toNat, Nat.testBit_eq_decide_div_mod_eq, decide_eq_decide]
    omega
  unfold triLevel
  rw [fold]
  by_cases low : ph.toNat < 2 ^ 31
  · rw [if_pos low, decide_eq_false low.not_ge, if_neg Bool.false_ne_true, ramp]
    omega
  · rw [if_neg low, decide_eq_true (Nat.le_of_not_lt low), if_pos rfl, BitVec.toNat_sub, ramp,
      show (255#8).toNat = 255 from rfl]
    omega

/-- A wavetable of length `len` is read below its length, at the scaled phase (44_oscillator.md R304). -/
theorem waveLevel_read (w : Nat) (ph : BitVec 32) :
    let len := min (m.read (waveAddr c w)).toNat c.waveCap
    (len = 0 → waveLevel c m w ph = 128) ∧
    (len ≠ 0 → (ph.toNat / 2 ^ 24) * len / 256 < len ∧
      waveLevel c m w ph = m.read (waveAddr c w + 1 + (ph.toNat / 2 ^ 24) * len / 256)) := by
  intro len
  obtain ⟨empty, level⟩ | ⟨values, level⟩ := waveLevel_cases (c := c) (m := m) w ph
  · exact ⟨fun _ => level, fun values => absurd empty values⟩
  · refine ⟨fun empty => absurd empty values, fun nonzero => ⟨?_, level⟩⟩
    have top : ph.toNat / 2 ^ 24 < 256 := by have := ph.isLt; omega
    exact Nat.div_lt_of_lt_mul (Nat.mul_lt_mul_of_pos_right top (Nat.pos_of_ne_zero nonzero))

/-- Settles O40: one waveform after the other. -/
theorem levelsOfDialectA : Obligations.LevelsOfDialectA := by
  intro c m v ph u
  have level : ∀ {w}, v.ch.wave = w → levelA c m v = levelA c m { v with ch := { v.ch with wave := w } } :=
    fun h => by rw [← h]
  refine ⟨fun h => ?pulse, fun h => ?saw, fun h low => ?rising, fun h high => ?falling, fun h => ?noise,
    fun w h => ?table⟩
  case pulse =>
    have pulse : u = (if (phaseTop v.osc.phase).toNat < v.osc.duty.toNat then (255 : Byte) else 0).toNat :=
      congrArg BitVec.toNat (level h)
    rw [pulse, phaseTop_toNat]
    split <;> rfl
  case saw => exact (congrArg BitVec.toNat (level h)).trans (phaseTop_toNat _)
  case rising => exact (congrArg BitVec.toNat (level h)).trans ((triLevel_toNat _).trans (if_pos low))
  case falling => exact (congrArg BitVec.toNat (level h)).trans ((triLevel_toNat _).trans (if_neg high.not_gt))
  case noise =>
    refine (congrArg BitVec.toNat (level h)).trans ?_
    exact BitVec.extractLsb'_toNat ..
  case table =>
    have table : levelA c m v = waveLevel c m w.toNat v.osc.phase := level h
    intro len
    obtain ⟨empty, values⟩ := waveLevel_read (c := c) (m := m) w.toNat v.osc.phase
    exact ⟨fun h0 => congrArg BitVec.toNat (table.trans (empty h0)),
      fun h1 => ⟨(values h1).1, table.trans (values h1).2⟩⟩

/-! ## The level of dialect B -/

theorem levelB_table {w : BitVec 7} (src : Osc) (ext : v.ch.ext = true) (wave : v.ch.wave = .table w) :
    levelB c m src v = waveLevel c m w.toNat v.osc.phase := by
  rw [levelB, ext, wave]

theorem levelB_ctrl (src : Osc) (h : ¬(v.ch.ext = true ∧ ∃ w, v.ch.wave = .table w)) :
    levelB c m src v = ctrlLevel src v := by
  unfold levelB
  split
  next w ext wave => exact absurd ⟨ext, w, wave⟩ h
  next => rfl

/-- A waveform that is not enabled leaves every bit of the AND as it is (44_oscillator.md R305). -/
theorem enabled_getLsbD (enabled : Bool) (b : Byte) {j : Nat} (hj : j < 8) :
    (if enabled then b else 0xFF#8).getLsbD j = (!enabled || b.getLsbD j) := by
  have ones : (0xFF#8).getLsbD j = true := (BitVec.getLsbD_allOnes (v := 8)).trans (decide_eq_true hj)
  cases enabled with
  | false => exact ones
  | true => rfl

theorem pulse_getLsbD (p : Prop) [Decidable p] {j : Nat} (hj : j < 8) :
    (if p then 0xFF#8 else 0x00#8).getLsbD j = decide p := by
  have ones : (0xFF#8).getLsbD j = true := (BitVec.getLsbD_allOnes (v := 8)).trans (decide_eq_true hj)
  split
  next h => rw [ones, decide_eq_true h]
  next h => rw [BitVec.getLsbD_zero, decide_eq_false h]

theorem phaseTop_getLsbD (ph : BitVec 32) {j : Nat} (hj : j < 8) : (phaseTop ph).getLsbD j = ph.getLsbD (24 + j) := by
  rw [phaseTop, BitVec.getLsbD_extractLsb', decide_eq_true hj, Bool.true_and]

/-- The triangle's fold bit, crossed with the source's top phase bit under RING (44_oscillator.md R308). -/
theorem triB_getLsbD (src : Osc) (v : Voice) {j : Nat} (hj : j < 8) :
    (triB src v).getLsbD j =
      (v.osc.phase.getLsbD (23 + j) !=
        (v.osc.phase.getLsbD 31 != (v.ch.ctrl.getLsbD 2 && src.phase.getLsbD 31))) := by
  rw [triB, triLevel_getLsbD _ _ hj]
  cases v.ch.ctrl.getLsbD 2 <;> simp

theorem pulseWidth_eq (o : Osc) : pulseWidth o = o.reg2.toNat + 256 * (o.reg3.toNat % 16) := by
  rw [pulseWidth, BitVec.extractLsb'_toNat, Nat.shiftRight_zero]

theorem ctrlLevel_silent {src : Osc} (h : v.ch.ctrl.extractLsb' 4 4 = 0) : ctrlLevel src v = 128 := if_pos h

/-- The enabled waveforms combine by AND (44_oscillator.md R305). -/
theorem ctrlLevel_sounds {src : Osc} (h : v.ch.ctrl.extractLsb' 4 4 ≠ 0) :
    ctrlLevel src v =
      (if v.ch.ctrl.getLsbD 4 then triB src v else 0xFF#8) &&&
      (if v.ch.ctrl.getLsbD 5 then phaseTop v.osc.phase else 0xFF#8) &&&
      (if v.ch.ctrl.getLsbD 6 then
        (if (v.osc.phase.extractLsb' 20 12).toNat < pulseWidth v.osc then 0xFF#8 else 0x00#8) else 0xFF#8) &&&
      (if v.ch.ctrl.getLsbD 7 then v.osc.lfsr.extractLsb' 0 8 else 0xFF#8) := if_neg h

theorem phase_top12 (ph : BitVec 32) : (ph.extractLsb' 20 12).toNat = ph.toNat / 2 ^ 20 := by
  have := ph.isLt
  rw [BitVec.extractLsb'_toNat, Nat.shiftRight_eq_div_pow]
  omega

/-- Settles O41: the external wavetable, silence, and each bit of the AND. -/
theorem levelsOfDialectB : Obligations.LevelsOfDialectB := by
  intro c m src v ph ctrl fold width tables
  refine ⟨fun w ext wave => ?table, fun none silent => ?silent, fun none sounds j hj => ?sounds⟩
  case table =>
    rw [levelB_table src ext wave]
    exact waveLevel_read w.toNat v.osc.phase
  case silent => exact (levelB_ctrl src none).trans (ctrlLevel_silent silent)
  case sounds =>
    rw [levelB_ctrl src none, ctrlLevel_sounds sounds, BitVec.getLsbD_and, BitVec.getLsbD_and, BitVec.getLsbD_and,
      enabled_getLsbD _ _ hj, enabled_getLsbD _ _ hj, enabled_getLsbD _ _ hj, enabled_getLsbD _ _ hj,
      triB_getLsbD src v hj, phaseTop_getLsbD _ hj, pulse_getLsbD _ hj, phase_top12, pulseWidth_eq,
      BitVec.getLsbD_extractLsb', decide_eq_true hj, Bool.true_and, Nat.zero_add]

end Sys2Proof.Machine
end

section
/-! PROOFS. Amplitudes and edge synthesis on one side (45_synth.md R325 to R332): what a clock and a flush do to the
running sum, the pending contributions and the level. -/

namespace Sys2Proof.Machine

variable {c : Config} {d : Side} {row : List Int} {a : Int}

/-! ## Amplitudes -/

theorem amplitude_muted {g : Dialect} {x : Channel} (h : gateOf g x = false) (gain : Nat) (u : Byte) :
    amplitude g x gain u = 0 := if_neg (by rw [h]; exact Bool.false_ne_true)

theorem amplitude_sounds {g : Dialect} {x : Channel} (h : gateOf g x = true) (gain : Nat) (u : Byte) :
    amplitude g x gain u = ((u.toNat : Int) - 128) * x.vol.toNat * gain / 256 := if_pos h

/-- The level is a byte, the volume and the gain are at most 255 (45_synth.md R325). -/
theorem amplitude_range (g : Dialect) (x : Channel) {gain : Nat} (hg : gain ≤ 255) (u : Byte) :
    AmplitudeOk (amplitude g x gain u) := by
  cases h : gateOf g x with
  | false =>
    rw [amplitude_muted h]
    exact ⟨by decide, by decide⟩
  | true =>
    have level := u.isLt
    have loudness : x.vol.toNat * gain ≤ 255 * 255 := Nat.mul_le_mul (by omega) hg
    rw [amplitude_sounds h, mul_assoc, ← Nat.cast_mul]
    generalize x.vol.toNat * gain = p at loudness
    have low : -128 * (65025 : Int) ≤ ((u.toNat : Int) - 128) * p := by nlinarith
    have high : ((u.toNat : Int) - 128) * p ≤ 127 * (65025 : Int) := by nlinarith
    exact ⟨by omega, by omega⟩

theorem gainLeft_le (x : Channel) : gainLeft x ≤ 255 := Nat.sub_le _ _

theorem gainRight_le (x : Channel) : gainRight x ≤ 255 := Nat.le_of_lt_succ x.pan.isLt

/-- Settles O42: the product of the rule, and its range. -/
theorem sideAmplitudes : Obligations.SideAmplitudes := by
  intro g x u
  refine ⟨fun muted => ⟨amplitude_muted muted _ u, amplitude_muted muted _ u⟩, fun sounds => ⟨?left, ?right⟩,
    amplitude_range g x (gainLeft_le x) u, amplitude_range g x (gainRight_le x) u⟩
  case left =>
    rw [amplitude_sounds sounds, gainLeft, Int.ofNat_sub (show x.pan.toNat ≤ 255 from gainRight_le x)]
    rfl
  case right => exact amplitude_sounds sounds _ u

/-! ## Sums -/

theorem sumInt_append (xs ys : List Int) : sumInt (xs ++ ys) = sumInt xs + sumInt ys := by
  induction xs with
  | nil => simp [sumInt]
  | cons x xs ih => simp only [List.cons_append, sumInt, ih, add_assoc]

theorem sumInt_zeros (n : Nat) : sumInt (List.replicate n 0) = 0 := by
  induction n with
  | zero => rfl
  | succ n ih => rw [List.replicate_succ, sumInt, ih, add_zero]

/-- The contributions pending on a side (45_synth.md R326). -/
def pendingSum (blep : List (BitVec 64)) : Int := sumInt (blep.map fun b => b.toInt)

theorem pendingSum_blank (n : Nat) : pendingSum (List.replicate n 0) = 0 := by
  rw [pendingSum, List.map_replicate]
  exact sumInt_zeros n

/-! ## A clock -/

/-- The cells after a clock whose level changes by `δ` (45_synth.md R326). -/
def injected (δ : Int) (row : List Int) (blep : List (BitVec 64)) : List (BitVec 64) :=
  List.zipWith (fun b k => toAcc (b.toInt + δ * k)) blep row

theorem edgeClock_same (h : a = d.last.toInt) : edgeClock row a d = d := if_pos h

theorem edgeClock_changed (h : a ≠ d.last.toInt) :
    edgeClock row a d = { d with last := BitVec.ofInt 32 a, blep := injected (a - d.last.toInt) row d.blep } :=
  if_neg h

/-- The level last emitted is the clock's amplitude (45_synth.md R328). -/
theorem edgeClock_last (row : List Int) (d : Side) (ha : AmplitudeOk a) : (edgeClock row a d).last.toInt = a := by
  obtain ⟨low, high⟩ := ha
  by_cases same : a = d.last.toInt
  · rw [edgeClock_same same, same]
  · rw [edgeClock_changed same]
    exact BitVec.toInt_ofInt_eq_self (by decide) (by omega) (by omega)

/-- The contributions of a clock sum to the change of level times the sum of the kernel row (45_synth.md R329). -/
theorem pendingSum_injected (δ : Int) (row : List Int) (blep : List (BitVec 64)) (len : blep.length = row.length)
    (fits : ∀ p ∈ List.zip blep row, fitsSigned 64 (p.1.toInt + δ * p.2) = true) :
    pendingSum (injected δ row blep) = pendingSum blep + δ * sumInt row := by
  induction blep generalizing row with
  | nil =>
    cases row with
    | nil => simp [pendingSum, injected, sumInt]
    | cons k row => cases len
  | cons b blep ih =>
    cases row with
    | nil => cases len
    | cons k row =>
      have head := toAcc_toInt (fits (b, k) (by simp))
      have tail := ih row (Nat.succ.inj len) fun p hp => fits p (by simp [hp])
      simp only [pendingSum, injected, List.zipWith_cons_cons, List.map_cons, sumInt] at head tail ⊢
      rw [head, tail]
      ring

/-- A clock whose row sums to 32768 adds 32768 times the change of level (45_synth.md R329). -/
theorem edgeClock_total (len : d.blep.length = row.length) (whole : sumInt row = 32768) (fits : ClockFits row a d) :
    sideTotal (edgeClock row a d) - sideTotal d = 32768 * ((edgeClock row a d).last.toInt - d.last.toInt) := by
  by_cases same : a = d.last.toInt
  · rw [edgeClock_same same]
    ring
  · have pending := pendingSum_injected _ row d.blep len fits.2
    rw [edgeClock_last row d fits.1, edgeClock_changed same]
    simp only [sideTotal, pendingSum] at pending ⊢
    rw [pending, whole]
    ring

/-! ## A flush -/

theorem edgeFlush_cons {b : BitVec 64} {rest : List (BitVec 64)} (h : d.blep = b :: rest) :
    (edgeFlush d).2 = { d with integ := toAcc (d.integ.toInt + b.toInt), blep := rest ++ [0] } := by
  simp [edgeFlush, h]

theorem edgeFlush_output (d : Side) : (edgeFlush d).1 = asr (edgeFlush d).2.integ.toInt 15 := rfl

/-- A flush moves the first contribution into the running sum (45_synth.md R326). -/
theorem edgeFlush_total (fits : fitsSigned 64 (d.integ.toInt + (d.blep.getD 0 0).toInt) = true) :
    sideTotal (edgeFlush d).2 = sideTotal d := by
  have integ := toAcc_toInt fits
  cases cells : d.blep with
  | nil =>
    simp only [cells, List.getD_nil, BitVec.ofNat_eq_ofNat, BitVec.toInt_zero, add_zero] at integ
    simp [sideTotal, edgeFlush, cells, integ]
  | cons b rest =>
    rw [cells] at integ
    rw [edgeFlush_cons cells]
    simp only [sideTotal, List.map_append, sumInt_append, cells, List.map_cons, sumInt]
    simp only [List.getD_cons_zero] at integ
    rw [integ]
    simp [sumInt]
    ring

/-- A running sum of 32768 times the level reads as the level (45_synth.md R329). -/
theorem asr_level (l : Int) : asr (32768 * l) 15 = l := Int.mul_ediv_cancel_left l (by decide)

theorem edgeFlush_level {e : Side} (h : (edgeFlush e).2.integ.toInt = 32768 * a) : (edgeFlush e).1 = a := by
  rw [edgeFlush_output, h, asr_level]

theorem drop_one_blank (n : Nat) : (List.replicate n (0 : BitVec 64) ++ [0]).drop 1 = List.replicate n 0 := by
  rw [← List.replicate_succ', List.replicate_succ, List.drop_one, List.tail_cons]

/-- A level in range, scaled, fits the accumulator. -/
theorem level_fits {l : Int} (h : AmplitudeOk l) : fitsSigned 64 (32768 * l) = true := by
  obtain ⟨low, high⟩ := h
  simp only [fitsSigned, Bool.and_eq_true, decide_eq_true_eq]
  exact ⟨by omega, by omega⟩

/-- With nothing pending a flush changes nothing: the cells are 0 and nothing is added (45_synth.md R329). -/
theorem Flushed.flush_eq (h : Flushed c d) : (edgeFlush d).2 = d := by
  have first : (d.blep.getD 0 0).toInt = 0 := by
    rw [h.blep]
    cases c.blepTaps <;> rfl
  have fits : fitsSigned 64 d.integ.toInt = true := h.integ ▸ level_fits h.last
  have integ : toAcc (d.integ.toInt + (d.blep.getD 0 0).toInt) = d.integ := by
    rw [first, add_zero]
    exact BitVec.eq_of_toInt_eq (toAcc_toInt fits)
  have blep : (d.blep ++ [0]).drop 1 = d.blep := by rw [h.blep, drop_one_blank]
  show ({ d with integ := _, blep := _ } : Side) = d
  rw [integ, blep]

theorem Flushed.flush (h : Flushed c d) : (edgeFlush d).1 = d.last.toInt ∧ Flushed c (edgeFlush d).2 := by
  have integ : (edgeFlush d).2.integ.toInt = 32768 * d.last.toInt := by rw [h.flush_eq, h.integ]
  refine ⟨edgeFlush_level integ, ?_⟩
  rw [h.flush_eq]
  exact h

/-! ## Runs of clocks and of flushes -/

/-- The deltas telescope: each is the next level less the last (45_synth.md R328). -/
theorem deltaSum_eq (d : Side) (clocks : List (List Int × Int)) (h : ∀ p ∈ clocks, AmplitudeOk p.2) :
    (clockSide d clocks).last.toInt - d.last.toInt = deltaSum d clocks := by
  induction clocks generalizing d with
  | nil => exact sub_self _
  | cons p rest ih =>
    have tail := ih (edgeClock p.1 p.2 d) fun q hq => h q (by simp [hq])
    rw [edgeClock_last p.1 d (h p (by simp))] at tail
    rw [deltaSum, ← tail]
    show (clockSide (edgeClock p.1 p.2 d) rest).last.toInt - _ = _
    ring

theorem clockSide_last (d : Side) (clocks : List (List Int × Int)) {p : List Int × Int}
    (h : clocks.getLast? = some p) (hp : AmplitudeOk p.2) : (clockSide d clocks).last.toInt = p.2 := by
  obtain ⟨before, rfl⟩ := List.getLast?_eq_some_iff.mp h
  rw [clockSide, List.foldl_append]
  exact edgeClock_last p.1 _ hp

/-- The side after `k` flushes without a clock. -/
def flushed (k : Nat) (d : Side) : Side := (fun e => (edgeFlush e).2)^[k] d

theorem flushed_succ (k : Nat) (d : Side) : flushed (k + 1) d = (edgeFlush (flushed k d)).2 :=
  Function.iterate_succ_apply' _ k d

/-- Each flush drops a cell and keeps the level and the total (45_synth.md R329). -/
theorem flushed_keeps {k : Nat} (hk : k ≤ d.blep.length)
    (fits : ∀ j, j < k → fitsSigned 64 ((flushed j d).integ.toInt + ((flushed j d).blep.getD 0 0).toInt) = true) :
    (flushed k d).blep = d.blep.drop k ++ List.replicate k 0 ∧ (flushed k d).last = d.last ∧
      sideTotal (flushed k d) = sideTotal d := by
  induction k with
  | zero => exact ⟨by simp [flushed], rfl, rfl⟩
  | succ k ih =>
    obtain ⟨blep, last, total⟩ := ih (by omega) fun j hj => fits j (by omega)
    rw [flushed_succ]
    refine ⟨?_, last, (edgeFlush_total (fits k (by omega))).trans total⟩
    show ((flushed k d).blep ++ [0]).drop 1 = _
    have more : 1 ≤ (d.blep.drop k).length := by rw [List.length_drop]; omega
    rw [blep, List.append_assoc, ← List.replicate_succ', List.drop_append_of_le_length more, List.drop_drop]

/-- As many flushes as there are taps leave nothing pending (45_synth.md R329). -/
theorem flushed_all (len : d.blep.length = c.blepTaps) (level : AmplitudeOk d.last.toInt)
    (total : sideTotal d = 32768 * d.last.toInt)
    (fits : ∀ k, k < c.blepTaps →
      fitsSigned 64 ((flushed k d).integ.toInt + ((flushed k d).blep.getD 0 0).toInt) = true) :
    Flushed c (flushed c.blepTaps d) ∧ (flushed c.blepTaps d).last = d.last ∧
      (flushed c.blepTaps d).integ.toInt = 32768 * d.last.toInt := by
  obtain ⟨blep, last, kept⟩ := flushed_keeps len.ge fits
  rw [← len, List.drop_length, List.nil_append, len] at blep
  have integ : (flushed c.blepTaps d).integ.toInt = 32768 * d.last.toInt := by
    have nothing := pendingSum_blank c.blepTaps
    rw [← blep] at nothing
    rw [total, sideTotal, ← pendingSum, nothing, add_zero] at kept
    exact kept
  exact ⟨⟨blep, by rw [last, integ], by rw [last]; exact level⟩, last, integ⟩

theorem sidePowerOn_total (c : Config) : sideTotal (sidePowerOn c) = 0 := by
  have pending : pendingSum (sidePowerOn c).blep = 0 := by
    unfold sidePowerOn
    dsimp only
    split
    · exact pendingSum_blank _
    · rfl
  rw [sideTotal, ← pendingSum, pending]
  rfl

/-- Settles O43: the deltas, the total along a clock and along a flush, and the side flushed. -/
theorem deltasSumAndTheIntegratorDoesNotLeak : Obligations.DeltasSumAndTheIntegratorDoesNotLeak := by
  refine ⟨fun d clocks ok => ⟨deltaSum_eq d clocks ok, fun p hp => ?last⟩,
    fun row a d len whole fits => ⟨edgeClock_total len whole fits, edgeClock_last row d fits.1⟩,
    fun d fits => ⟨edgeFlush_total fits, rfl⟩, fun c d h => h.flush, fun c => ⟨sidePowerOn_total c, rfl⟩,
    ?flushes⟩
  case last => exact clockSide_last d clocks hp (ok p (List.mem_of_getLast? hp))
  case flushes =>
    intro c d len level total after fits
    obtain ⟨flush, last, integ⟩ := flushed_all len level total fits
    refine ⟨flush, last, integ, fun taps => edgeFlush_level ?_⟩
    have final := flushed_succ (c.blepTaps - 1) d
    rw [Nat.sub_add_cancel taps] at final
    exact (congrArg (fun e => e.integ.toInt) final).symm.trans integ

end Sys2Proof.Machine
end

section
/-! PROOFS. A frame (45_synth.md R322 to R352): the channels' contributions one by one, the post chain, and what a frame
leaves of the latched registers (44_oscillator.md R283). -/

namespace Sys2Proof.Machine

variable {c : Config} {m : Memory} {v : Voice} {vs : List Voice} {i k : Nat} {s t : State}

/-! ## One clock of every channel -/

/-- The registers that only the modulation writes (44_oscillator.md R283). -/
structure LatchesKept (o p : Osc) : Prop where
  step : p.step = o.step
  duty : p.duty = o.duty
  curStep : p.curStep = o.curStep
  reg0 : p.reg0 = o.reg0
  reg1 : p.reg1 = o.reg1
  reg2 : p.reg2 = o.reg2
  reg3 : p.reg3 = o.reg3

theorem LatchesKept.refl (o : Osc) : LatchesKept o o := ⟨rfl, rfl, rfl, rfl, rfl, rfl, rfl⟩

theorem LatchesKept.trans {o p q : Osc} (h : LatchesKept o p) (g : LatchesKept p q) : LatchesKept o q :=
  ⟨g.1.trans h.1, g.2.trans h.2, g.3.trans h.3, g.4.trans h.4, g.5.trans h.5, g.6.trans h.6, g.7.trans h.7⟩

theorem clockOsc_latches (c : Config) (v : Voice) : LatchesKept v.osc (clockOsc c v) := by
  by_cases held : heldByTest c v
  · rw [clockOsc_held held]
    exact ⟨rfl, rfl, rfl, rfl, rfl, rfl, rfl⟩
  · rw [clockOsc_free held]
    exact ⟨rfl, rfl, rfl, rfl, rfl, rfl, rfl⟩

/-- A clock writes a channel's oscillator only, and not its latched registers. -/
theorem clockVoices_osc (h : vs[i]? = some v) :
    ∃ o, (clockVoices c vs)[i]? = some { v with osc := o } ∧ LatchesKept v.osc o := by
  have kept := clockOsc_latches c v
  rw [clockVoices_getElem? h, syncVoice]
  split
  · exact ⟨_, rfl, kept.1, kept.2, kept.3, kept.4, kept.5, kept.6, kept.7⟩
  · exact ⟨_, rfl, kept⟩

theorem clockLevels_getElem? (h : vs[i]? = some v) : (clockLevels c m vs)[i]? = some (levelOf c m vs i v) := by
  simp [clockLevels, h]

/-- The two amplitudes of a channel at a level (45_synth.md R325). -/
def leftAmp (c : Config) (v : Voice) (u : Byte) : Int := amplitude c.dialect v.ch (gainLeft v.ch) u

def rightAmp (c : Config) (v : Voice) (u : Byte) : Int := amplitude c.dialect v.ch (gainRight v.ch) u

theorem leftAmp_ok (c : Config) (v : Voice) (u : Byte) : AmplitudeOk (leftAmp c v u) :=
  amplitude_range _ _ (gainLeft_le _) _

theorem rightAmp_ok (c : Config) (v : Voice) (u : Byte) : AmplitudeOk (rightAmp c v u) :=
  amplitude_range _ _ (gainRight_le _) _

/-- A channel after clock `k` of edge synthesis: its two amplitudes injected with the clock's kernel row. -/
def edgeVoice (c : Config) (k : Nat) (u : Byte) (o : Osc) (v : Voice) : Voice :=
  { v with
    osc := o
    left := edgeClock (c.blepK.getD k []) (leftAmp c v u) v.left
    right := edgeClock (c.blepK.getD k []) (rightAmp c v u) v.right }

/-- Clock `k` takes each channel's amplitudes from its level before the clock (45_synth.md R326). -/
theorem edgeTurn_getElem? (h : vs[i]? = some v) :
    ∃ o, (clockVoices c vs)[i]? = some { v with osc := o } ∧ LatchesKept v.osc o ∧
      (edgeTurn c m vs k)[i]? = some (edgeVoice c k (levelOf c m vs i v) o v) := by
  obtain ⟨o, clocked, kept⟩ := clockVoices_osc (c := c) h
  refine ⟨o, clocked, kept, ?_⟩
  simp [edgeTurn, List.getElem?_zipWith, clocked, clockLevels_getElem? h, edgeVoice, leftAmp, rightAmp]

/-- The channels after the first `k` clocks of a frame of edge synthesis (45_synth.md R326). -/
def clockedTo (c : Config) (m : Memory) (vs : List Voice) (k : Nat) : List Voice :=
  (List.range k).foldl (edgeTurn c m) vs

theorem clockedTo_succ (c : Config) (m : Memory) (vs : List Voice) (k : Nat) :
    clockedTo c m vs (k + 1) = edgeTurn c m (clockedTo c m vs k) k := by
  rw [clockedTo, List.range_succ, List.foldl_append]
  rfl

theorem renderVoices_direct (h : c.synthMode = .direct) :
    renderVoices c m vs = List.zipWith (directTurn c) (clockVoices c vs) (clockLevels c m vs) := by
  rw [renderVoices, h]

theorem renderVoices_edge (h : c.synthMode = .edge) :
    renderVoices c m vs = (clockedTo c m vs c.oversample).map edgeTake := by
  rw [renderVoices, h]
  rfl

theorem renderVoices_direct_getElem? (hd : c.synthMode = .direct) (h : vs[i]? = some v) :
    ∃ o, (clockVoices c vs)[i]? = some { v with osc := o } ∧ LatchesKept v.osc o ∧
      (renderVoices c m vs)[i]? = some
        { left := leftAmp c v (levelOf c m vs i v), right := rightAmp c v (levelOf c m vs i v)
          voice := { v with osc := o } } := by
  obtain ⟨o, clocked, kept⟩ := clockVoices_osc (c := c) h
  refine ⟨o, clocked, kept, ?_⟩
  simp [renderVoices_direct hd, List.getElem?_zipWith, clocked, clockLevels_getElem? h, directTurn, leftAmp, rightAmp]

theorem renderVoices_edge_getElem? (he : c.synthMode = .edge) (h : (clockedTo c m vs c.oversample)[i]? = some v) :
    (renderVoices c m vs)[i]? = some (edgeTake v) := by
  simp [renderVoices_edge he, h]

/-! ## How a frame is put together -/

theorem levelOf_eq (c : Config) (m : Memory) (vs : List Voice) (i : Nat) (v : Voice) :
    levelOf c m vs i v =
      match c.dialect with
      | .A => levelA c m v
      | .B => levelB c m (vs.getD ((i + c.nch - 1) % c.nch) (voicePowerOn c)).osc v := by
  unfold levelOf
  cases c.dialect <;> rfl

theorem getD_zero_toInt_of_le {blep : List (BitVec 64)} {j : Nat} (h : blep.length ≤ j) :
    (blep.getD j 0).toInt = 0 := by
  rw [List.getD_eq_default _ _ h]
  rfl

/-- Each cell takes the change of level times its coefficient, wherever it fits (45_synth.md R326; log entry 8). -/
theorem injected_getD {δ : Int} {row : List Int} {blep : List (BitVec 64)} (len : blep.length = row.length)
    (fits : ∀ p ∈ List.zip blep row, fitsSigned 64 (p.1.toInt + δ * p.2) = true) (j : Nat) :
    ((injected δ row blep).getD j 0).toInt = (blep.getD j 0).toInt + δ * row.getD j 0 := by
  have width : (injected δ row blep).length = blep.length := by simp [injected, len]
  by_cases inside : j < blep.length
  · have inRow : j < row.length := len ▸ inside
    have pair : (blep[j], row[j]) ∈ List.zip blep row := by
      rw [← List.getElem_zip (h := by simp [inside, inRow])]
      exact List.getElem_mem _
    rw [List.getD_eq_getElem _ _ (width ▸ inside), List.getD_eq_getElem _ _ inside, List.getD_eq_getElem _ _ inRow]
    simp only [injected, List.getElem_zipWith]
    exact toAcc_toInt (fits _ pair)
  · have past : blep.length ≤ j := Nat.le_of_not_lt inside
    rw [getD_zero_toInt_of_le (width.trans_le past), getD_zero_toInt_of_le past,
      List.getD_eq_default _ _ (len ▸ past), mul_zero, add_zero]

theorem edgeClock_cells {row : List Int} {a : Int} {d : Side} (len : d.blep.length = row.length)
    (fits : ClockFits row a d) :
    let e := edgeClock row a d
    e = { d with last := e.last, blep := e.blep } ∧ e.last.toInt = a ∧ e.blep.length = d.blep.length ∧
    ∀ j, (e.blep.getD j 0).toInt = (d.blep.getD j 0).toInt + (a - d.last.toInt) * row.getD j 0 := by
  intro e
  by_cases same : a = d.last.toInt
  · have unchanged : e = d := edgeClock_same same
    rw [unchanged]
    exact ⟨rfl, same.symm, rfl, fun j => by rw [same, sub_self, zero_mul, add_zero]⟩
  · have last := edgeClock_last row d fits.1
    have changed : e = _ := edgeClock_changed same
    rw [show edgeClock row a d = e from rfl, changed] at last
    rw [changed]
    exact ⟨rfl, last, by simp [injected, len], injected_getD len fits.2⟩

/-- A flush moves every cell down by one, and a 0 comes in behind (45_synth.md R326). -/
theorem shifted_getD (blep : List (BitVec 64)) (j : Nat) :
    ((blep ++ [0]).drop 1).getD j 0 = blep.getD (j + 1) 0 := by
  rw [List.getD_eq_getElem?_getD, List.getD_eq_getElem?_getD, List.getElem?_drop, Nat.add_comm 1 j]
  by_cases inside : j + 1 < blep.length
  · rw [List.getElem?_append_left inside]
  · have past := Nat.le_of_not_lt inside
    rw [List.getElem?_append_right past, List.getElem?_eq_none past]
    cases j + 1 - blep.length <;> rfl

theorem edgeFlush_cells {d : Side} (fits : fitsSigned 64 (d.integ.toInt + (d.blep.getD 0 0).toInt) = true) :
    let e := (edgeFlush d).2
    (edgeFlush d).1 = (d.integ.toInt + (d.blep.getD 0 0).toInt) / 32768 ∧
    e = { d with integ := e.integ, blep := e.blep } ∧ e.integ.toInt = d.integ.toInt + (d.blep.getD 0 0).toInt ∧
    e.blep.length = d.blep.length ∧ ∀ j, e.blep.getD j 0 = d.blep.getD (j + 1) 0 := by
  have integ : (edgeFlush d).2.integ.toInt = _ := toAcc_toInt fits
  refine ⟨?_, rfl, integ, ?_, shifted_getD d.blep⟩
  · rw [edgeFlush_output, integ]
    rfl
  · show ((d.blep ++ [0]).drop 1).length = _
    rw [List.length_drop, List.length_append, List.length_singleton, Nat.add_sub_cancel]

/-- Settles O60: the contributions channel by channel, a clock and a flush cell by cell, and the frame as the filter
bank, the mixer and the delay on them. -/
theorem frameIsLevelsThenPostChain : Obligations.FrameIsLevelsThenPostChain := by
  refine ⟨?voices, fun row a d len fits => edgeClock_cells len fits, fun d fits => edgeFlush_cells fits, ?frame⟩
  case voices =>
    intro c m vs level left right
    have level_eq : ∀ us i v, levelOf c m us i v = level us i v := fun us i v => levelOf_eq c m us i v
    refine ⟨renderVoices_length vs, fun hd i v hv => ?direct, fun he => ⟨clockedTo c m vs, rfl, fun k _ => ?clock,
      fun i v hv => renderVoices_edge_getElem? he hv⟩⟩
    case direct =>
      obtain ⟨o, clocked, -, made⟩ := renderVoices_direct_getElem? (m := m) hd hv
      rw [level_eq] at made
      exact ⟨_, clocked, made⟩
    case clock =>
      rw [clockedTo_succ]
      refine ⟨edgeTurn_length _ _, fun i v hv => ?_⟩
      obtain ⟨o, clocked, -, turned⟩ := edgeTurn_getElem? (m := m) (k := k) hv
      rw [level_eq] at turned
      exact ⟨_, clocked, turned⟩
  case frame =>
    intro s xs filtered made u
    have left : ((xs.map (filterTurn s.cfg)).map fun x => x.left) = xs.map fun x => (filtered x).1.1 := List.map_map
    have right : ((xs.map (filterTurn s.cfg)).map fun x => x.right) = xs.map fun x => (filtered x).2.1 := List.map_map
    have delayed : delayTurn s.cfg s.delay (mixSide s.cfg ((xs.map (filterTurn s.cfg)).map fun x => x.left))
        (mixSide s.cfg ((xs.map (filterTurn s.cfg)).map fun x => x.right)) = made := by rw [left, right]
    refine ⟨congrArg Prod.fst delayed, ?_, ?_, fun i x hx => ?_⟩
    · rw [← delayed]
      rfl
    · show ((xs.map (filterTurn s.cfg)).map _).length = _
      rw [List.length_map, List.length_map]
      exact renderVoices_length s.voices
    · show ((xs.map (filterTurn s.cfg)).map _)[i]? = _
      rw [List.getElem?_map, List.getElem?_map, hx]
      rfl

/-! ## What a frame leaves of a channel -/

theorem clockedTo_kept (c : Config) (m : Memory) (k : Nat) (h : vs[i]? = some v) :
    ∃ w, (clockedTo c m vs k)[i]? = some w ∧ w.ch = v.ch ∧ LatchesKept v.osc w.osc := by
  induction k with
  | zero => exact ⟨v, h, rfl, .refl _⟩
  | succ k ih =>
    obtain ⟨w, there, ch, kept⟩ := ih
    obtain ⟨o, -, next, turned⟩ := edgeTurn_getElem? (c := c) (m := m) (k := k) there
    rw [clockedTo_succ]
    exact ⟨_, turned, ch, kept.trans next⟩

/-- A contribution keeps its channel's registers and the latched ones of its oscillator. -/
theorem renderVoices_kept (h : vs[i]? = some v) :
    ∃ x, (renderVoices c m vs)[i]? = some x ∧ x.voice.ch = v.ch ∧ LatchesKept v.osc x.voice.osc := by
  cases mode : c.synthMode with
  | direct =>
    obtain ⟨o, -, kept, made⟩ := renderVoices_direct_getElem? (m := m) mode h
    exact ⟨_, made, rfl, kept⟩
  | edge =>
    obtain ⟨w, there, ch, kept⟩ := clockedTo_kept c m c.oversample h
    exact ⟨_, renderVoices_edge_getElem? mode there, ch, kept⟩

theorem State.voice_getElem? (h : i < s.voices.length) : s.voices[i]? = some (s.voice i) := by
  simp [State.voice, h]

theorem State.voice_of_getElem? (h : s.voices[i]? = some v) : s.voice i = v := by
  simp [State.voice, h]

theorem rendered_kept (h : i < s.voices.length) :
    s.rendered.ch i = s.ch i ∧ LatchesKept (s.voice i).osc (s.rendered.voice i).osc := by
  obtain ⟨x, made, ch, kept⟩ := renderVoices_kept (c := s.cfg) (m := s.store) (State.voice_getElem? h)
  have there : s.rendered.voices[i]? = some (filterTurn s.cfg x).voice := by
    show (((renderVoices s.cfg s.store s.voices).map (filterTurn s.cfg)).map _)[i]? = _
    rw [List.getElem?_map, List.getElem?_map, made]
    rfl
  rw [State.ch, State.voice_of_getElem? there]
  exact ⟨ch, kept⟩

/-! ## Steps that keep the oscillators -/

/-- From `s` to `t` every channel keeps its whole oscillator file. -/
structure OscKept (s t : State) : Prop where
  count : t.voices.length = s.voices.length
  osc : ∀ i, i < s.voices.length → (t.voice i).osc = (s.voice i).osc

theorem OscKept.trans {u : State} (h : OscKept s t) (g : OscKept t u) : OscKept s u :=
  ⟨g.count.trans h.count, fun i hi => (g.osc i (h.count.symm ▸ hi)).trans (h.osc i hi)⟩

/-- A write to each channel that leaves its oscillator. -/
theorem OscKept.map {f : Voice → Voice} (h : t.voices = s.voices.map f) (hf : ∀ v, (f v).osc = v.osc) :
    OscKept s t :=
  ⟨by rw [h, List.length_map], fun i hi => by rw [voice_of_map h hi, hf]⟩

theorem OscKept.same (h : t.voices = s.voices) : OscKept s t :=
  .map (f := id) (by rw [h, List.map_id]) fun _ => rfl

theorem mapCh_oscKept (s : State) (k : Nat) (f : Channel → Channel) : OscKept s (s.mapCh k f) := by
  refine ⟨State.mapCh_length s k f, fun i hi => ?_⟩
  by_cases here : i = k
  · rw [here, State.mapCh_voice_same s k f (here ▸ hi)]
  · rw [State.mapCh_voice_other s k i f here]

theorem latchPlonk_oscKept (s : State) (k : Nat) (e : Plonk) : OscKept s (s.latchPlonk k e) := by
  refine ⟨List.length_modify _ _ _, fun i hi => ?_⟩
  by_cases here : i = k
  · rw [here, latchPlonk_voice_same (here ▸ hi)]
  · rw [latchPlonk_voice_other here]

theorem stopAll_oscKept (s : State) : OscKept s s.stopAll := .map rfl fun _ => rfl

theorem playRow_oscKept (s : State) : OscKept s s.playRows.nextRow := by
  unfold State.nextRow State.playRows
  dsimp only
  split
  · exact (mapCh_oscKept s _ _).trans (.same rfl)
  · exact .map rfl fun _ => rfl

theorem loadSongRow_oscKept (s : State) (r : Nat) : OscKept s (s.loadSongRow r) :=
  ⟨State.loadSongRow_length s r, fun i hi => by rw [loadSongRow_voice hi]⟩

theorem rowStep_oscKept (s : State) : OscKept s s.rowStep := by
  have reloaded : OscKept s s.reloadWait := .same rfl
  obtain ⟨-, waits⟩ | rows | ⟨r, -, loaded⟩ | ⟨-, -, -, -, ended⟩ := rowStep_cases s
  · rw [waits]; exact .same rfl
  · rw [rows]; exact reloaded.trans (playRow_oscKept _)
  · rw [loaded]; exact (reloaded.trans (loadSongRow_oscKept _ r)).trans (playRow_oscKept _)
  · rw [ended]; exact stopAll_oscKept s

theorem OscKept.ite {u : State} {p : Prop} [Decidable p] (h : OscKept s t) (g : OscKept s u) :
    OscKept s (if p then t else u) := by
  split
  · exact h
  · exact g

/-- No command but `Init` writes an oscillator (70_reset_and_hazards.md R412). -/
theorem runCommand_oscKept {cmd : Command} (h : cmd ≠ .init) (s : State) : OscKept s (runCommand cmd s) := by
  have stopped := stopAll_oscKept s
  cases cmd with
  | init => exact absurd rfl h
  | playSongFrom | stop | newSong => exact stopped.trans (.same rfl)
  | silence => exact stopped.trans (.map rfl fun _ => rfl)
  | playPatternFrom p r k => exact .ite (stopped.trans (.same rfl)) (.same rfl)
  | plonk note k instr isDown => exact .ite ((latchPlonk_oscKept s k _).trans (.same rfl)) (.same rfl)
  | writeStore | readStore => exact .ite (.same rfl) (.same rfl)
  | shutdown | isPlaying | getSamples | capabilities | readStatus | readGates | readFaults => exact .same rfl

/-- No step but a frame, a modulation and `Init` writes an oscillator. -/
theorem step_oscKept (h : step s = .next t) (modulate : s.phase ≠ .modulate) (render : s.phase ≠ .render)
    (init : s.phase = .command → s.cmds.head? ≠ some .init) : OscKept s t := by
  unfold step at h
  split at h
  next hp =>
    obtain ⟨-, rfl⟩ | ⟨cmd, rest, issued, -, -, rfl⟩ := commandStep_cases h
    · exact .same rfl
    · have other : cmd ≠ .init := fun e => init hp (by rw [issued, e]; rfl)
      exact OscKept.trans (t := { s with cmds := rest }) (.same rfl) (runCommand_oscKept other _)
  next =>
    cases h
    obtain ⟨-, e⟩ | ⟨-, -, e⟩ | ⟨-, -, e⟩ := frameStep_cases s <;>
      exact .same ((congrArg State.voices e).trans rfl)
  next => rw [tablesStep_next h]; exact .map rfl fun _ => rfl
  next => cases h; exact .map rfl fun v => by rw [applyPlonk_eq]
  next =>
    obtain ⟨-, rfl⟩ | ⟨-, rfl⟩ := rowPhase_next h
    · exact .same rfl
    · exact (rowStep_oscKept s).trans (.same rfl)
  next =>
    cases h
    obtain ⟨-, e⟩ | ⟨-, -, e⟩ | ⟨-, -, e⟩ := runEntry_cases s
    · exact .same ((congrArg State.voices e).trans rfl)
    · exact .same ((congrArg State.voices e).trans rfl)
    · exact (mapCh_oscKept s _ countDown).trans (.same ((congrArg State.voices e).trans rfl))
  next =>
    obtain ⟨f, n, p, rfl, -⟩ | ⟨-, rfl⟩ := runTurn_next h
    · exact (mapCh_oscKept s s.cur f).trans (.same rfl)
    · exact .same rfl
  next hp => exact absurd hp modulate
  next => cases h; exact .same rfl
  next hp => exact absurd hp render

/-- At the head of the frame loop and at the snapshot no channel changes. -/
theorem step_voices (h : step s = .next t) (hp : s.phase = .frame ∨ s.phase = .snapshot) : t.voices = s.voices := by
  obtain hp | hp := hp
  · rw [step_frame hp] at h
    cases h
    obtain ⟨-, e⟩ | ⟨-, -, e⟩ | ⟨-, -, e⟩ := frameStep_cases s <;> exact (congrArg State.voices e).trans rfl
  · rw [step_snapshot hp] at h
    cases h
    rfl

/-- Settles O38: a frame keeps the latched registers, and every other step outside the modulation the whole oscillator
file. -/
theorem latchesChangeOnlyAtModulation : Obligations.LatchesChangeOnlyAtModulation := by
  intro s t h modulate init i hi
  by_cases render : s.phase = .render
  case pos =>
    rw [step_render render] at h
    obtain ⟨ch, ⟨step, duty, curStep, reg0, reg1, reg2, reg3⟩⟩ := rendered_kept hi
    rw [renderStep_next h]
    exact ⟨step, duty, curStep, reg0, reg1, reg2, reg3, fun _ => ch⟩
  case neg =>
    have osc := (step_oscKept h modulate render init).osc i hi
    rw [osc]
    refine ⟨rfl, rfl, rfl, rfl, rfl, rfl, rfl, fun place => ?_⟩
    have voices : t.voices = s.voices := step_voices h (by tauto)
    exact congrArg Voice.ch ((voice_of_map (f := id) (by rw [voices, List.map_id]) hi).trans rfl)

end Sys2Proof.Machine
end

section
/-! PROOFS. The post chain (45_synth.md R341 to R350), edge synthesis with one clock (R332) and silence at rest
(R352). -/

namespace Sys2Proof.Machine

variable {c : Config} {m : Memory} {v : Voice} {vs : List Voice} {d : Side} {s : State}

/-! ## The filter bank -/

/-- A 0 coefficient hears nothing. -/
theorem sumInt_zipWith_zeros (n : Nat) (hist : List (BitVec 32)) :
    sumInt (List.zipWith (fun h b => h * b.toInt) (List.replicate n 0) hist) = 0 := by
  induction n generalizing hist with
  | zero => rfl
  | succ n ih =>
    cases hist with
    | nil => rfl
    | cons b hist => rw [List.replicate_succ, List.zipWith_cons_cons, sumInt, ih, zero_mul, add_zero]

/-- The identity kernel passes every 32-bit value, whatever the history (45_synth.md R340). -/
theorem firStage_identity (taps : Nat) (hist : List (BitVec 32)) {a : Int} (fits : fitsSigned 32 a = true) :
    (firStage (identityKernel taps) hist a).1 = a := by
  simp only [fitsSigned, Bool.and_eq_true, decide_eq_true_eq] at fits
  have acc : (identityKernel taps).getD 0 0 * a +
      sumInt (List.zipWith (fun h b => h * b.toInt) ((identityKernel taps).drop 1) hist) = 32768 * a := by
    rw [identityKernel, List.drop_one, List.tail_cons, sumInt_zipWith_zeros, add_zero, List.getD_cons_zero]
  show clamp (asr _ 15) _ _ = a
  rw [acc, asr_level, clamp]
  omega

/-- A sum over two lists of one length, index by index. -/
theorem sumInt_zipWith_range {n : Nat} {ks : List Int} {hist : List (BitVec 32)} (hk : ks.length = n)
    (hh : hist.length = n) :
    sumInt (List.zipWith (fun h b => h * b.toInt) ks hist) =
      sumInt ((List.range n).map fun j => ks.getD j 0 * (hist.getD j 0).toInt) := by
  congr 1
  apply List.ext_getElem
  · simp [hk, hh]
  · intro j h1 h2
    have inside : j < n := by simpa using h2
    simp [hk, hh, inside]

/-- The saturated sum of products of one filter stage, index by index (45_synth.md R341). -/
def stageOutput (taps : Nat) (h : List Int) (hist : List (BitVec 32)) (a : Int) : Int :=
  min (max ((h.getD 0 0 * a +
    sumInt ((List.range (taps - 1)).map fun j => h.getD (j + 1) 0 * (hist.getD j 0).toInt)) / 2 ^ 15)
    (-2 ^ 31)) (2 ^ 31 - 1)

theorem firStage_output {taps : Nat} {h : List Int} {hist : List (BitVec 32)} (hk : h.length = taps)
    (hh : hist.length = taps - 1) (a : Int) : (firStage h hist a).1 = stageOutput taps h hist a := by
  have products := sumInt_zipWith_range (ks := h.drop 1) (by rw [List.length_drop, hk]) hh
  have shifted : ∀ j, (h.drop 1).getD j 0 = h.getD (j + 1) 0 := fun j => by
    rw [List.getD_eq_getElem?_getD, List.getD_eq_getElem?_getD, List.getElem?_drop, Nat.add_comm]
  simp only [shifted] at products
  show clamp (asr (_ + sumInt _) 15) _ _ = _
  rw [products]
  rfl

theorem stageOutput_fits (taps : Nat) (h : List Int) (hist : List (BitVec 32)) (a : Int) :
    fitsSigned 32 (stageOutput taps h hist a) = true := by
  unfold stageOutput
  simp only [fitsSigned, Bool.and_eq_true, decide_eq_true_eq]
  omega

/-- The input comes in front of the history, if it has a cell (45_synth.md R341). -/
theorem firStage_newest (h : List Int) {hist : List (BitVec 32)} (cells : 1 ≤ hist.length) {a : Int}
    (fits : fitsSigned 32 a = true) : ((firStage h hist a).2.getD 0 0).toInt = a := by
  show (((toHist a :: hist).take hist.length).getD 0 0).toInt = a
  rw [← Nat.sub_add_cancel cells, List.take_succ_cons, List.getD_cons_zero]
  exact toHist_toInt fits

/-- Every other cell is the one before it. -/
theorem firStage_older (h : List Int) (hist : List (BitVec 32)) (a : Int) {j : Nat} (inside : j + 1 < hist.length) :
    (firStage h hist a).2.getD (j + 1) 0 = hist.getD j 0 := by
  show ((toHist a :: hist).take hist.length).getD (j + 1) 0 = _
  rw [List.getD_eq_getElem?_getD, List.getD_eq_getElem?_getD, List.getElem?_take_of_lt inside, List.getElem?_cons_succ]

/-- The kernels of both cutoffs have the taps of the configuration, and the fixed ones are the identity
(45_synth.md R340). -/
theorem firKernels (on : c.firEnable = true) (ok : firOk c = true) :
    (∀ b : Byte, (c.firHP.getD b.toNat []).length = c.firTaps ∧ (c.firLP.getD b.toNat []).length = c.firTaps) ∧
    c.firHP.getD 0x00 [] = identityKernel c.firTaps ∧ c.firLP.getD 0xFF [] = identityKernel c.firTaps := by
  simp only [firOk, on, Bool.not_true, Bool.false_or, Bool.and_eq_true, beq_iff_eq, List.all_eq_true,
    List.mem_append] at ok
  obtain ⟨⟨⟨⟨lowCount, highCount⟩, rows⟩, high⟩, low⟩ := ok
  refine ⟨fun b => ⟨?_, ?_⟩, high, low⟩
  · have inside : b.toNat < c.firHP.length := by rw [highCount]; exact b.isLt
    rw [List.getD_eq_getElem _ _ inside]
    exact (rows _ (.inr (List.getElem_mem inside))).1
  · have inside : b.toNat < c.firLP.length := by rw [lowCount]; exact b.isLt
    rw [List.getD_eq_getElem _ _ inside]
    exact (rows _ (.inl (List.getElem_mem inside))).1

theorem filterSide_absent (off : c.firEnable = false) (x : Channel) (d : Side) (a : Int) :
    filterSide c x d a = (a, d) := if_neg (by rw [off]; exact Bool.false_ne_true)

/-- The high-pass stage, then the low-pass stage on its result (45_synth.md R341). -/
theorem filterSide_present (on : c.firEnable = true) (x : Channel) (d : Side) (a : Int) :
    filterSide c x d a =
      let high := firStage (c.firHP.getD x.cutLo.toNat []) d.firh a
      let low := firStage (c.firLP.getD x.cutHi.toNat []) d.firl high.1
      (low.1, { d with firh := high.2, firl := low.2 }) := if_pos on

/-- With the trigger's cutoffs both stages are the identity (45_synth.md R340, R342). -/
theorem filterSide_open (on : c.firEnable = true) (ok : firOk c = true) {x : Channel} (low : x.cutLo = 0x00#8)
    (high : x.cutHi = 0xFF#8) (d : Side) {a : Int} (fits : fitsSigned 32 a = true) : (filterSide c x d a).1 = a := by
  obtain ⟨-, highPass, lowPass⟩ := firKernels on ok
  have first := firStage_identity c.firTaps d.firh fits
  have second := firStage_identity c.firTaps d.firl fits
  rw [filterSide_present on, low, high, show (0x00#8).toNat = 0x00 from rfl, show (0xFF#8).toNat = 0xFF from rfl,
    highPass, lowPass]
  dsimp only
  rw [first, second]

/-! ## The mixer and the delay -/

theorem mixSide_eq (c : Config) (ys : List Int) :
    mixSide c ys = min (max (sumInt ys / 2 ^ c.mixShift) (-32768)) 32767 := by
  rw [mixSide, asr, Nat.cast_pow]
  rfl

/-- Four amplitudes shifted down by 2 need no saturation (45_synth.md R345). -/
theorem mixSide_four {ys : List Int} (shift : c.mixShift = 2) (four : ys.length = 4) (ok : ∀ y ∈ ys, AmplitudeOk y) :
    mixSide c ys = sumInt ys / 4 := by
  match ys, four with
  | [y1, y2, y3, y4], _ =>
    obtain ⟨l1, h1⟩ := ok y1 (by simp)
    obtain ⟨l2, h2⟩ := ok y2 (by simp)
    obtain ⟨l3, h3⟩ := ok y3 (by simp)
    obtain ⟨l4, h4⟩ := ok y4 (by simp)
    rw [mixSide_eq, shift]
    simp only [sumInt]
    omega

/-- A cell of a delay line, as a sample. -/
def delayCell (line : List (Nat × BitVec 16)) (a : Nat) : Int := (sparseGet delayBlank line a).toInt

/-- Each side takes the other side's sample of `DLEN` frames before (45_synth.md R350). -/
theorem delayTurn_frame (c : Config) (d : Delay) (mL mR : Int) :
    (delayTurn c d mL mR).1.left.toInt = min (max (mL + (c.dfb * delayCell d.right d.ptr) / 256) (-32768)) 32767 ∧
    (delayTurn c d mL mR).1.right.toInt = min (max (mR + (c.dfb * delayCell d.left d.ptr) / 256) (-32768)) 32767 :=
  ⟨ofInt_clamp_toInt _ (by decide) (by decide) (by decide), ofInt_clamp_toInt _ (by decide) (by decide) (by decide)⟩

theorem delayCell_set (line : List (Nat × BitVec 16)) (p : Nat) (w : BitVec 16) (a : Nat) :
    delayCell (sparseSet delayBlank line p w) a = if a = p then w.toInt else delayCell line a := by
  unfold delayCell
  split
  next same => rw [same, sparseGet_set_same]
  next other => rw [sparseGet_set_other other]

/-- Settles O45: the filter's two stages, the mixer and the delay. -/
theorem filterMixerAndDelay : Obligations.FilterMixerAndDelay := by
  refine ⟨fun c x d a => ⟨fun on ok low high fits => filterSide_open on ok low high d fits,
    fun off => filterSide_absent off x d a⟩, ?stages, fun c ys => ⟨mixSide_eq c ys, mixSide_four⟩, ?delay⟩
  case stages =>
    intro c x d a on ok lenHigh lenLow stage mid e
    obtain ⟨kernels, -, -⟩ := firKernels on ok
    have highOut : (firStage (c.firHP.getD x.cutLo.toNat []) d.firh a).1 = mid :=
      firStage_output (kernels x.cutLo).1 lenHigh a
    have lowOut := firStage_output (kernels x.cutHi).2 lenLow mid
    have made := filterSide_present on x d a
    dsimp only at made
    rw [highOut] at made
    have side : e = _ := congrArg Prod.snd made
    have midFits : fitsSigned 32 mid = true := stageOutput_fits _ _ _ _
    rw [side, made]
    refine ⟨lowOut, rfl, (firStage_length (c.firHP.getD x.cutLo.toNat []) d.firh a).trans lenHigh,
      (firStage_length (c.firLP.getD x.cutHi.toNat []) d.firl mid).trans lenLow,
      fun taps => ⟨fun fits => ?_, ?_⟩, fun j hj => ⟨?_, ?_⟩⟩
    · exact firStage_newest (c.firHP.getD x.cutLo.toNat []) (by omega) fits
    · exact firStage_newest (c.firLP.getD x.cutHi.toNat []) (by omega) midFits
    · exact firStage_older (c.firHP.getD x.cutLo.toNat []) _ _ (by omega)
    · exact firStage_older (c.firLP.getD x.cutHi.toNat []) _ _ (by omega)
  case delay =>
    intro c d mL mR r cell
    obtain ⟨left, right⟩ := delayTurn_frame c d mL mR
    refine ⟨left, right, fun a => delayCell_set d.left d.ptr _ a, fun a => delayCell_set d.right d.ptr _ a, rfl, ?_⟩
    intro noFeedback lowL highL lowR highR
    rw [noFeedback, Nat.cast_zero, zero_mul, Int.zero_ediv, add_zero] at left right
    exact ⟨by rw [left]; omega, by rw [right]; omega⟩

/-! ## Edge synthesis with one clock -/

theorem clockVoices_mem {w : Voice} (h : w ∈ clockVoices c vs) : ∃ v ∈ vs, ∃ o, w = { v with osc := o } := by
  obtain ⟨i, hi, rfl⟩ := List.getElem_of_mem h
  have inside : i < vs.length := by rwa [clockVoices_length] at hi
  obtain ⟨o, clocked, -⟩ := clockVoices_osc (c := c) (List.getElem?_eq_getElem inside)
  rw [List.getElem?_eq_getElem hi] at clocked
  exact ⟨_, List.getElem_mem inside, o, Option.some.inj clocked⟩

/-- A channel after a clock of edge synthesis is one from before it, its amplitudes injected. -/
theorem edgeTurn_mem {w : Voice} {k : Nat} (h : w ∈ edgeTurn c m vs k) :
    ∃ v ∈ vs, ∃ o u, w = edgeVoice c k u o v := by
  obtain ⟨i, hi, rfl⟩ := List.getElem_of_mem h
  have inside : i < vs.length := by rwa [edgeTurn_length] at hi
  obtain ⟨o, -, -, turned⟩ := edgeTurn_getElem? (c := c) (m := m) (k := k) (List.getElem?_eq_getElem inside)
  rw [List.getElem?_eq_getElem hi] at turned
  exact ⟨_, List.getElem_mem inside, o, _, Option.some.inj turned⟩

/-- The synthesis strategy is no part of the sync and ring source. -/
theorem sourceOsc_synthMode (mode : SynthMode) (i : Nat) :
    sourceOsc { c with synthMode := mode } vs i = sourceOsc c vs i := by
  unfold sourceOsc
  rw [List.getD_eq_getElem?_getD, List.getD_eq_getElem?_getD]
  cases vs[sourceOf c.nch i]? <;> rfl

theorem clockVoices_synthMode (mode : SynthMode) : clockVoices { c with synthMode := mode } vs = clockVoices c vs := by
  have sync : syncVoice { c with synthMode := mode } (advancedVoices c vs) = syncVoice c (advancedVoices c vs) := by
    funext i v
    simp only [syncVoice, sourceOsc_synthMode]
  show (advancedVoices c vs).mapIdx (syncVoice { c with synthMode := mode } (advancedVoices c vs)) = _
  rw [sync]
  rfl

theorem levelOf_synthMode (mode : SynthMode) (i : Nat) (v : Voice) :
    levelOf { c with synthMode := mode } m vs i v = levelOf c m vs i v := by
  have source : (vs.getD ((i + c.nch - 1) % c.nch) (voicePowerOn { c with synthMode := mode })).osc =
      (vs.getD ((i + c.nch - 1) % c.nch) (voicePowerOn c)).osc := sourceOsc_synthMode mode i
  rw [levelOf_eq, levelOf_eq]
  dsimp only
  rw [source]
  rfl

/-- With the whole step in the first tap, a clock and a flush give the amplitude and leave nothing pending
(45_synth.md R332). -/
theorem Flushed.clock_flush (h : Flushed c d) (taps : 1 ≤ c.blepTaps) {a : Int} (ha : AmplitudeOk a) :
    (edgeFlush (edgeClock (identityKernel c.blepTaps) a d)).1 = a ∧
      Flushed c (edgeFlush (edgeClock (identityKernel c.blepTaps) a d)).2 := by
  by_cases same : a = d.last.toInt
  · rw [edgeClock_same same, same]
    exact h.flush
  · have last := edgeClock_last (identityKernel c.blepTaps) d ha
    obtain ⟨low, high⟩ := ha
    obtain ⟨lowest, highest⟩ := h.last
    have deltaFits : fitsSigned 64 ((a - d.last.toInt) * 32768) = true := by
      simp only [fitsSigned, Bool.and_eq_true, decide_eq_true_eq]
      exact ⟨by omega, by omega⟩
    have zero : ∀ δ : Int, toAcc ((0 : BitVec 64).toInt + δ * 0) = 0 := fun δ => by
      rw [mul_zero]
      rfl
    have cells : (edgeClock (identityKernel c.blepTaps) a d).blep =
        toAcc ((a - d.last.toInt) * 32768) :: List.replicate (c.blepTaps - 1) 0 := by
      rw [edgeClock_changed same, h.blep, identityKernel]
      obtain ⟨n, hn⟩ : ∃ n, c.blepTaps = n + 1 := ⟨c.blepTaps - 1, by omega⟩
      simp only [hn, Nat.add_sub_cancel, injected, List.replicate_succ, List.zipWith_cons_cons,
        List.zipWith_replicate, min_self, zero]
      congr 2
      simp
    have integ : (edgeFlush (edgeClock (identityKernel c.blepTaps) a d)).2.integ.toInt = 32768 * a := by
      rw [edgeFlush_cons cells, toAcc_toInt deltaFits]
      have before : (edgeClock (identityKernel c.blepTaps) a d).integ = d.integ := by rw [edgeClock_changed same]
      rw [before, h.integ]
      refine (toAcc_toInt ?_).trans (by ring)
      rw [show 32768 * d.last.toInt + (a - d.last.toInt) * 32768 = 32768 * a by ring]
      exact level_fits ⟨low, high⟩
    refine ⟨edgeFlush_level integ, ?_, ?_, ?_⟩
    · rw [edgeFlush_cons cells, ← List.replicate_succ', Nat.sub_add_cancel taps]
    · exact integ.trans (congrArg _ last.symm)
    · show AmplitudeOk (edgeClock (identityKernel c.blepTaps) a d).last.toInt
      rw [last]
      exact ⟨low, high⟩

/-- Settles O44: channel by channel, the one clock reads the level that direct evaluation reads, and its flush gives
it. -/
theorem edgeWithOneClockIsDirect : Obligations.EdgeWithOneClockIsDirect := by
  intro c m vs he once taps kernel flushed edge direct
  have row : c.blepK.getD 0 [] = identityKernel c.blepTaps := by rw [kernel, List.getD_cons_zero]
  have made : edge = (edgeTurn c m vs 0).map edgeTake := by
    have clocked := renderVoices_edge (m := m) (vs := vs) he
    rw [once] at clocked
    exact clocked
  refine ⟨List.ext_getElem? fun i => ?same, fun x hx => ?flush⟩
  case same =>
    rw [List.getElem?_map, List.getElem?_map]
    cases hv : vs[i]? with
    | none =>
      have past : vs.length ≤ i := List.getElem?_eq_none_iff.mp hv
      rw [List.getElem?_eq_none ((renderVoices_length vs).trans_le past),
        List.getElem?_eq_none ((renderVoices_length vs).trans_le past)]
    | some v =>
      obtain ⟨left, right⟩ := flushed v (List.mem_of_getElem? hv)
      obtain ⟨o, clocked, -, turned⟩ := edgeTurn_getElem? (c := c) (m := m) (k := 0) hv
      obtain ⟨o', clocked', -, given⟩ :=
        renderVoices_direct_getElem? (c := { c with synthMode := .direct }) (m := m) rfl hv
      rw [clockVoices_synthMode, clocked] at clocked'
      have osc : o = o' := congrArg Voice.osc (Option.some.inj clocked')
      have turned' : edge[i]? = some (edgeTake (edgeVoice c 0 (levelOf c m vs i v) o v)) := by
        rw [made, List.getElem?_map, turned]
        rfl
      rw [levelOf_synthMode] at given
      have outLeft := (left.clock_flush taps (leftAmp_ok c v (levelOf c m vs i v))).1
      have outRight := (right.clock_flush taps (rightAmp_ok c v (levelOf c m vs i v))).1
      rw [← row] at outLeft outRight
      rw [turned', show direct[i]? = _ from given, ← osc]
      exact congrArg some (Prod.ext outLeft (Prod.ext outRight rfl))
  case flush =>
    rw [made] at hx
    obtain ⟨w, hw, rfl⟩ := List.mem_map.mp hx
    obtain ⟨v, hv, o, u, rfl⟩ := edgeTurn_mem hw
    obtain ⟨left, right⟩ := flushed v hv
    have afterLeft := (left.clock_flush taps (leftAmp_ok c v u)).2
    have afterRight := (right.clock_flush taps (rightAmp_ok c v u)).2
    rw [← row] at afterLeft afterRight
    exact ⟨afterLeft, afterRight⟩

/-! ## Silence -/

/-- A channel at rest: its gate is at 0 and its synthesizer state clear (45_synth.md R352). -/
structure AtSilence (c : Config) (v : Voice) : Prop where
  gate : gateOf c.dialect v.ch = false
  left : v.left = sidePowerOn c
  right : v.right = sidePowerOn c

/-- A clock injects nothing into a channel at rest. -/
theorem AtSilence.edgeVoice (h : AtSilence c v) (k : Nat) (u : Byte) (o : Osc) : AtSilence c (edgeVoice c k u o v) := by
  have level : (0 : Int) = (sidePowerOn c).last.toInt := rfl
  refine ⟨h.gate, ?_, ?_⟩
  · show edgeClock _ (leftAmp c v u) v.left = _
    rw [leftAmp, amplitude_muted h.gate, h.left, edgeClock_same level]
  · show edgeClock _ (rightAmp c v u) v.right = _
    rw [rightAmp, amplitude_muted h.gate, h.right, edgeClock_same level]

theorem clockedTo_silent (h : ∀ v ∈ vs, AtSilence c v) (k : Nat) : ∀ v ∈ clockedTo c m vs k, AtSilence c v := by
  induction k with
  | zero => exact h
  | succ k ih =>
    rw [clockedTo_succ]
    intro w hw
    obtain ⟨v, hv, o, u, rfl⟩ := edgeTurn_mem hw
    exact (ih v hv).edgeVoice k u o

/-- At power-on nothing is pending. -/
theorem Flushed.powerOn (he : c.synthMode = .edge) : Flushed c (sidePowerOn c) :=
  have zero : AmplitudeOk 0 := ⟨by decide, by decide⟩
  ⟨if_pos he, rfl, zero⟩

/-- A channel at rest contributes 0 to both sides and stays at rest. -/
theorem renderVoices_silent (h : ∀ v ∈ vs, AtSilence c v) :
    ∀ x ∈ renderVoices c m vs, x.left = 0 ∧ x.right = 0 ∧ AtSilence c x.voice := by
  intro x hx
  cases mode : c.synthMode with
  | direct =>
    obtain ⟨i, hi, rfl⟩ := List.getElem_of_mem hx
    have inside : i < vs.length := by rwa [renderVoices_length] at hi
    obtain ⟨o, -, -, made⟩ := renderVoices_direct_getElem? (m := m) mode (List.getElem?_eq_getElem inside)
    have silent := h _ (List.getElem_mem inside)
    rw [List.getElem?_eq_getElem hi] at made
    rw [Option.some.inj made]
    exact ⟨amplitude_muted silent.gate _ _, amplitude_muted silent.gate _ _, silent.gate, silent.left, silent.right⟩
  | edge =>
    rw [renderVoices_edge mode] at hx
    obtain ⟨v, hv, rfl⟩ := List.mem_map.mp hx
    obtain ⟨gate, left, right⟩ := clockedTo_silent h c.oversample v hv
    have blank := Flushed.powerOn mode
    refine ⟨?_, ?_, gate, ?_, ?_⟩
    · show (edgeFlush v.left).1 = 0
      rw [left, blank.flush.1]
      rfl
    · show (edgeFlush v.right).1 = 0
      rw [right, blank.flush.1]
      rfl
    · show (edgeFlush v.left).2 = _
      rw [left, blank.flush_eq]
    · show (edgeFlush v.right).2 = _
      rw [right, blank.flush_eq]

theorem sumInt_eq_zero {ys : List Int} (h : ∀ y ∈ ys, y = 0) : sumInt ys = 0 := by
  rw [List.eq_replicate_of_mem h]
  exact sumInt_zeros _

theorem mixSide_silent {ys : List Int} (h : ∀ y ∈ ys, y = 0) : mixSide c ys = 0 := by
  rw [mixSide_eq, sumInt_eq_zero h, Int.zero_ediv]
  rfl

theorem filterTurn_absent (off : c.firEnable = false) (x : Contribution) : filterTurn c x = x := by
  rw [filterTurn, filterSide_absent off, filterSide_absent off]

/-- With no feedback two silent sides give the silent frame. -/
theorem delayTurn_silent (noFeedback : c.dfb = 0) (d : Delay) : (delayTurn c d 0 0).1 = { left := 0, right := 0 } := by
  obtain ⟨left, right⟩ := delayTurn_frame c d 0 0
  rw [noFeedback, Nat.cast_zero, zero_mul, Int.zero_ediv] at left right
  have zeroLeft : (delayTurn c d 0 0).1.left = 0 := BitVec.eq_of_toInt_eq left
  have zeroRight : (delayTurn c d 0 0).1.right = 0 := BitVec.eq_of_toInt_eq right
  exact congrArg₂ Frame.mk zeroLeft zeroRight

/-- Settles O46: every contribution is 0, and the post chain keeps it so. -/
theorem silenceAtRest : Obligations.SilenceAtRest := by
  intro s gates off noFeedback _ clear
  have silent := renderVoices_silent (m := s.store) fun v hv => ⟨gates v hv, (clear v hv).1, (clear v hv).2⟩
  have passed : (renderVoices s.cfg s.store s.voices).map (filterTurn s.cfg) = renderVoices s.cfg s.store s.voices :=
    List.map_id'' (filterTurn_absent off) _
  refine ⟨?frame, fun v hv => ?voices⟩
  case frame =>
    rw [State.renderFrame, passed]
    dsimp only
    rw [mixSide_silent fun y hy => ?left, mixSide_silent fun y hy => ?right]
    · exact delayTurn_silent noFeedback s.delay
    · obtain ⟨x, hx, rfl⟩ := List.mem_map.mp hy
      exact (silent x hx).2.1
    · obtain ⟨x, hx, rfl⟩ := List.mem_map.mp hy
      exact (silent x hx).1
  case voices =>
    rw [State.renderFrame, passed] at hv
    obtain ⟨x, hx, rfl⟩ := List.mem_map.mp hv
    obtain ⟨-, -, rest⟩ := silent x hx
    exact ⟨rest.left, rest.right⟩

end Sys2Proof.Machine
end

section
/-! PROOFS. The tick periods (43_sequencer.md R241, R242) and the frame loop between its ticks (45_synth.md R320). -/

namespace Sys2Proof.Machine

variable {s t u : State} {c : Config}

/-! ## Runs of steps -/

theorem core_run_add (M : Host.Core) {m n : Nat} {a b : M.State} (h : M.run m a = .next b) :
    M.run (m + n) a = M.run n b := by
  induction m generalizing a with
  | zero =>
    cases h
    rw [Nat.zero_add]
  | succ m ih =>
    rw [Nat.add_right_comm]
    cases next : M.step a with
    | next a' =>
      simp only [Host.Core.run, next] at h ⊢
      exact ih h
    | fault | refused => simp [Host.Core.run, next] at h

theorem runSteps_add {m : Nat} (n : Nat) (h : runSteps m s = .next t) : runSteps (m + n) s = runSteps n t :=
  core_run_add Sys2Proof.core h

/-! ## The tick timer -/

/-- The remainder after `j` ticks from a reset of the timer: what the frames of `j` periods leave (43_sequencer.md
R242). -/
theorem tickTimer_iterate_tickRem (hc : configOk c = true) {e : Engine} (start : e.tickRem = 0) (j : Nat) :
    ((tickTimer c)^[j] e).tickRem.toNat = j * c.fs % c.tickHz := by
  have counts := configOk_counts hc
  induction j with
  | zero =>
    rw [Function.iterate_zero_apply, start, Nat.zero_mul, Nat.zero_mod]
    rfl
  | succ j ih =>
    have below : ((tickTimer c)^[j] e).tickRem.toNat < c.tickHz := ih ▸ Nat.mod_lt _ (by omega)
    rw [Function.iterate_succ_apply', (tickTimer_toNat hc below).2, ih, Nat.mod_add_mod, Nat.succ_mul]

theorem tickTimer_iterate_tickRem_lt (hc : configOk c = true) {e : Engine} (start : e.tickRem = 0) (j : Nat) :
    ((tickTimer c)^[j] e).tickRem.toNat < c.tickHz := by
  have counts := configOk_counts hc
  rw [tickTimer_iterate_tickRem hc start]
  exact Nat.mod_lt _ (by omega)

/-- The frames of `k` periods never drift from `k FS / TICK_HZ` (43_sequencer.md R242). -/
theorem sum_tickTimer_sptCnt (hc : configOk c = true) {e : Engine} (start : e.tickRem = 0) (k : Nat) :
    sumInt ((List.range k).map fun j => (((tickTimer c)^[j + 1] e).sptCnt.toNat : Int)) =
      ((k * c.fs / c.tickHz : Nat) : Int) := by
  have counts := configOk_counts hc
  induction k with
  | zero => rw [Nat.zero_mul, Nat.zero_div]; rfl
  | succ k ih =>
    have period : ((tickTimer c)^[k + 1] e).sptCnt.toNat = (k * c.fs % c.tickHz + c.fs) / c.tickHz := by
      rw [Function.iterate_succ_apply', (tickTimer_toNat hc (tickTimer_iterate_tickRem_lt hc start k)).1,
        tickTimer_iterate_tickRem hc start]
    have total : (k + 1) * c.fs / c.tickHz = k * c.fs / c.tickHz + (k * c.fs % c.tickHz + c.fs) / c.tickHz := by
      have split : (k + 1) * c.fs = k * c.fs % c.tickHz + c.fs + c.tickHz * (k * c.fs / c.tickHz) := by
        have := Nat.mod_add_div (k * c.fs) c.tickHz
        rw [Nat.succ_mul]
        omega
      rw [split, Nat.add_mul_div_left _ _ (by omega), Nat.add_comm]
    rw [List.range_succ, List.map_append, sumInt_append, ih, total, Nat.cast_add]
    simp only [List.map_cons, List.map_nil, sumInt, period, add_zero]

/-! ## Frames between ticks -/

theorem frameStep_ends (done : s.framesLeft = 0) :
    frameStep s = { s with phase := .command, out := [], reply := some (.frames s.out) } := if_pos done

theorem frameStep_tick (owed : s.framesLeft ≠ 0) (due : s.eng.sptCnt = 0) :
    frameStep s = { s with phase := .tables } := (if_neg owed).trans (if_pos due)

theorem frameStep_frame (owed : s.framesLeft ≠ 0) (due : s.eng.sptCnt ≠ 0) :
    frameStep s = { s with phase := .render } := (if_neg owed).trans (if_neg due)

/-- The head of the frame loop and the frame it leads to. -/
theorem Inv.frame_between_ticks (h : Inv s) (hp : s.phase = .frame) (owed : s.framesLeft ≠ 0) (due : s.eng.sptCnt ≠ 0) :
    runSteps 2 s = .next { s with phase := Phase.render }.rendered ∧ Inv { s with phase := Phase.render }.rendered := by
  have head : step s = .next { s with phase := .render } :=
    (step_frame hp).trans (congrArg _ (frameStep_frame owed due))
  have rendering : Inv { s with phase := .render } := everyStepKeepsTheInvariant s _ h head
  exact ⟨(runSteps_succ head).trans (runSteps_one (rendering.step_render rfl)), rendering.rendered⟩

/-- A counter of at least `n` lets `n` frames pass with no tick between them. -/
theorem Inv.frames_between_ticks {n : Nat} (h : Inv s) (hp : s.phase = .frame) (owed : n ≤ s.framesLeft)
    (counter : n ≤ s.eng.sptCnt.toNat) :
    ∃ t, runSteps (2 * n) s = .next t ∧ t.phase = .frame ∧ t.framesLeft = s.framesLeft - n ∧
      t.eng = { s.eng with sptCnt := t.eng.sptCnt } ∧ t.eng.sptCnt.toNat = s.eng.sptCnt.toNat - n ∧
      t.out.length = s.out.length + n ∧ t.snap = s.snap := by
  induction n generalizing s with
  | zero => exact ⟨s, rfl, hp, rfl, rfl, rfl, rfl, rfl⟩
  | succ n ih =>
    have due : s.eng.sptCnt ≠ 0 := by
      intro zero
      rw [zero] at counter
      exact absurd counter (by simp)
    obtain ⟨made, inv⟩ := h.frame_between_ticks hp (by omega) due
    have lower : (s.eng.sptCnt - 1).toNat = s.eng.sptCnt.toNat - 1 := by bv_omega
    obtain ⟨t, run, place, left, eng, count, out, snap⟩ :=
      ih inv rfl (show n ≤ s.framesLeft - 1 by omega) (show n ≤ (s.eng.sptCnt - 1).toNat by omega)
    refine ⟨t, ?_, place, left.trans ?_, eng, count.trans ?_, out.trans ?_, snap⟩
    · rw [Nat.mul_succ, Nat.add_comm, runSteps_add _ made, run]
    · show s.framesLeft - 1 - n = _
      omega
    · show (s.eng.sptCnt - 1).toNat - n = _
      omega
    · show (s.out ++ [_]).length + n = _
      rw [List.length_append, List.length_singleton]
      omega

/-- Settles O33: the closed form of the periods, and the steps that spend them. -/
theorem tickPeriodsNeverDrift : Obligations.TickPeriodsNeverDrift := by
  refine ⟨fun c e k hc start => ⟨sum_tickTimer_sptCnt hc start k, ?period, tickTimer_iterate_tickRem_lt hc start k⟩,
    fun s hp => ⟨fun done => ?_, fun owed due => ?_, fun owed due => ?_⟩, fun s hp hc rem => ?timer,
    fun s hp waves => (step_render hp).trans (renderStep_of_waves waves),
    fun s n h hp owed counter => h.frames_between_ticks hp owed counter⟩
  case period =>
    show 1 ≤ ((tickTimer c)^[k + 1] e).sptCnt.toNat
    rw [Function.iterate_succ_apply']
    exact tickTimer_sptCnt_pos hc (tickTimer_iterate_tickRem_lt hc start k)
  · rw [step_frame hp, frameStep_ends done]
  · rw [step_frame hp, frameStep_tick owed due]
  · rw [step_frame hp, frameStep_frame owed due]
  case timer => exact ⟨_, step_snapshot hp, rfl, rfl, rfl, tickTimer_toNat hc rem⟩

end Sys2Proof.Machine
end

section
/-! PROOFS. A request for frames (45_synth.md R320, R321): the steps inside it read nothing of the host's side, so the
same frames are made under any request that still owes them. -/

namespace Sys2Proof.Machine

variable {s t u : State}

/-! ## The host's side of a state -/

/-- The host's side: what the request still owes, the frames made for it, the commands to come, the last answer and
whether the host has called `Shutdown`. -/
structure Request where
  left : Nat
  out : List Frame
  cmds : List Command
  reply : Option Reply
  closed : Bool

/-- The request with these frames made. -/
def Request.made (q : Request) (fs : List Frame) : Request :=
  { q with left := q.left - fs.length, out := q.out ++ fs }

/-- The same engine under another request. -/
def State.under (s : State) (q : Request) : State :=
  { s with framesLeft := q.left, out := q.out, cmds := q.cmds, reply := q.reply, closed := q.closed }

/-- A state's own host side. -/
def State.request (s : State) : Request := ⟨s.framesLeft, s.out, s.cmds, s.reply, s.closed⟩

theorem State.under_request (s : State) : s.under s.request = s := rfl

theorem Request.made_nil (q : Request) : q.made [] = q := by rw [Request.made, List.append_nil]; rfl

theorem Request.made_made (q : Request) (fs gs : List Frame) : (q.made fs).made gs = q.made (fs ++ gs) := by
  simp only [Request.made, List.length_append, List.append_assoc, Nat.sub_sub]

/-- Where no step of a tick is in progress the invariant says nothing of the request. -/
theorem Inv.under (h : Inv s) (hp : s.phase = .command ∨ s.phase = .frame) (q : Request) : Inv (s.under q) :=
  h.sameEngine rfl rfl rfl rfl rfl rfl (.between hp)

/-! ## The steps of a tick under another request -/

theorem playRows_under (s : State) (q : Request) : (s.under q).playRows = s.playRows.under q := by
  show (if s.eng.mode = .pattern then _ else _) = (if s.eng.mode = .pattern then _ else _ : State).under q
  split <;> rfl

theorem playRow_under (s : State) (q : Request) :
    (s.under q).playRows.nextRow = s.playRows.nextRow.under q := by
  rw [playRows_under]
  rfl

theorem advanceSong_under (s : State) (q : Request) :
    (s.under q).advanceSong = (s.advanceSong.1.under q, s.advanceSong.2) := by
  obtain ⟨below, loads⟩ | ⟨past, loop, rows, wraps⟩ | ⟨past, spent, ends⟩ := advanceSong_cases s
  · rw [loads]; exact advanceSong_next (s := s.under q) below
  · rw [wraps]; exact advanceSong_wraps (s := s.under q) past loop rows
  · rw [ends]; exact advanceSong_ends (s := s.under q) past spent

theorem rowStep_under (s : State) (q : Request) : (s.under q).rowStep = s.rowStep.under q := by
  by_cases wait : s.eng.rowWait = 0
  case neg => rw [rowStep_waits wait]; exact rowStep_waits (s := s.under q) wait
  case pos =>
    by_cases start : s.eng.mode = .song ∧ s.eng.row = 0
    case neg =>
      rw [rowStep_rows wait start, ← playRow_under]
      exact rowStep_rows (s := s.under q) wait start
    case pos =>
      have stepped := rowStep_patternStart (s := s.under q) wait start.1 start.2
      rw [show (s.under q).reloadWait = s.reloadWait.under q from rfl, advanceSong_under, playRow_under] at stepped
      rw [rowStep_patternStart wait start.1 start.2, stepped]
      cases s.reloadWait.advanceSong.2 <;> rfl

theorem exec_under {i : Instr} (h : exec i s = .next t) (q : Request) : exec i (s.under q) = .next (t.under q) := by
  cases i with
  | aLoop p =>
    by_cases zero : p = 0
    · rw [exec_aLoop_end zero] at h
      cases h
      exact exec_aLoop_end zero
    · rw [exec_aLoop_back zero] at h
      cases h
      exact exec_aLoop_back zero
  | bLoop o =>
    by_cases zero : o = 0
    · rw [exec_bLoop_end zero] at h
      cases h
      exact exec_bLoop_end zero
    · rw [exec_bLoop_back zero] at h
      cases h
      exact exec_bLoop_back zero
  | _ =>
    cases h
    rfl

theorem tablesStep_under (h : tablesStep s = .next t) (q : Request) : tablesStep (s.under q) = .next (t.under q) := by
  unfold tablesStep at h
  split_ifs at h with bound
  cases h
  exact if_pos bound

theorem rowPhase_under (h : rowPhase s = .next t) (q : Request) : rowPhase (s.under q) = .next (t.under q) := by
  unfold rowPhase at h
  split_ifs at h with outside idle
  · cases h
    refine (if_neg outside).trans ?_
    rw [if_pos (show (s.under q).eng.mode = .idle from idle)]
    rfl
  · cases h
    refine (if_neg outside).trans ?_
    rw [if_neg (show (s.under q).eng.mode ≠ .idle from idle), rowStep_under]
    rfl

theorem runEntry_under (s : State) (q : Request) : runEntry (s.under q) = (runEntry s).under q := by
  obtain ⟨inactive, left⟩ | ⟨active, wait, starts⟩ | ⟨active, wait, waits⟩ := runEntry_cases s
  · rw [left]; exact runEntry_inactive (s := s.under q) inactive
  · rw [starts]; exact runEntry_starts (s := s.under q) active wait
  · rw [waits]; exact runEntry_waits (s := s.under q) active wait

theorem runTurn_of_limit (goesOn : programOver s = false) (limit : s.runCount = s.cfg.stepLimit) :
    runTurn s = .next s.raiseRunaway := (if_neg (by rw [goesOn]; exact Bool.false_ne_true)).trans (if_pos limit)

theorem runTurn_under (h : runTurn s = .next t) (q : Request) : runTurn (s.under q) = .next (t.under q) := by
  obtain ⟨ended, stops⟩ | ⟨goesOn, limit, runaway⟩ | ⟨goesOn, below, i, fetched, runs⟩ := runTurn_cases s
  · rw [stops] at h
    cases h
    exact runTurn_of_over (s := s.under q) ended
  · rw [runaway] at h
    cases h
    exact runTurn_of_limit (s := s.under q) goesOn limit
  · rw [runs] at h
    exact (runTurn_of_instr (s := s.under q) goesOn below fetched).trans (exec_under h q)

theorem modulateStep_under (h : modulateStep s = .next t) (q : Request) :
    modulateStep (s.under q) = .next (t.under q) := by
  unfold modulateStep at h
  split_ifs at h with above inside
  · cases h
    exact (if_neg above).trans (if_pos inside)
  · cases h
    exact (if_neg above).trans (if_neg inside)

/-- A step of a tick reads nothing of the host's side and leaves it alone. -/
theorem step_under (hp : inTick s.phase = true) (h : step s = .next t) (q : Request) :
    step (s.under q) = .next (t.under q) := by
  unfold step at h
  split at h
  next place => rw [place] at hp; contradiction
  next place => rw [place] at hp; contradiction
  next place => exact (step_tables (s := s.under q) place).trans (tablesStep_under h q)
  next place => cases h; exact step_plonks (s := s.under q) place
  next place => exact (step_row (s := s.under q) place).trans (rowPhase_under h q)
  next place =>
    cases h
    rw [step_run (s := s.under q) place, runEntry_under]
  next place => exact (step_fetch (s := s.under q) place).trans (runTurn_under h q)
  next place => exact (step_modulate (s := s.under q) place).trans (modulateStep_under h q)
  next place => cases h; exact step_snapshot (s := s.under q) place
  next place => rw [place] at hp; contradiction

/-! ## A tick completes -/

/-- From `s` the steps of a tick lead to `t`, under every request. -/
structure TickReaches (s t : State) : Prop where
  run : ∀ q, ∃ n, runSteps n (s.under q) = .next (t.under q)
  inv : Inv t
  memory : MemoryKept s t

theorem TickReaches.refl (h : Inv s) : TickReaches s s := ⟨fun _ => ⟨0, rfl⟩, h, rfl, rfl⟩

theorem TickReaches.trans (h : TickReaches s t) (g : TickReaches t u) : TickReaches s u where
  run q := by
    obtain ⟨m, first⟩ := h.run q
    obtain ⟨n, second⟩ := g.run q
    exact ⟨m + n, (runSteps_add n first).trans second⟩
  inv := g.inv
  memory := h.memory.trans g.memory

theorem TickReaches.step (h : Inv s) (hp : inTick s.phase = true) (hs : step s = .next t) : TickReaches s t where
  run q := ⟨1, runSteps_one (step_under hp hs q)⟩
  inv := everyStepKeepsTheInvariant s t h hs
  memory := step_keeps_memory (fun place => by rw [place] at hp; contradiction) hs

/-- A turn after which the run goes on has counted one instruction below the limit. -/
theorem runTurn_counts (h : runTurn s = .next t) (goesOn : t.phase = .fetch) :
    s.runCount ≠ s.cfg.stepLimit ∧ t.runCount = s.runCount + 1 := by
  obtain ⟨-, ended⟩ | ⟨-, -, runaway⟩ | ⟨-, below, i, -, runs⟩ := runTurn_cases s
  · rw [ended] at h
    cases h
    contradiction
  · rw [runaway] at h
    cases h
    contradiction
  · obtain ⟨f, p, rfl, -⟩ := exec_next (runs ▸ h)
    exact ⟨below, rfl⟩

/-- A run comes to its channel's modulation within the turns its limit leaves (40_interpreter.md R155). -/
theorem Inv.fetch_reaches {d : Nat} (h : Inv s) (hp : s.phase = .fetch) (left : s.runCount + d = s.cfg.stepLimit) :
    ∃ t, TickReaches s t ∧ t.phase = .modulate ∧ t.cur = s.cur := by
  induction d generalizing s with
  | zero =>
    obtain ⟨t, turn⟩ := runTurn_total s
    have next := TickReaches.step h (hp ▸ rfl) ((step_fetch hp).trans turn)
    obtain ⟨cur, goesOn | ends⟩ := runTurn_place hp turn
    · exact absurd left (runTurn_counts turn goesOn).1
    · exact ⟨t, next, ends, cur⟩
  | succ d ih =>
    obtain ⟨t, turn⟩ := runTurn_total s
    have next := TickReaches.step h (hp ▸ rfl) ((step_fetch hp).trans turn)
    obtain ⟨cur, goesOn | ends⟩ := runTurn_place hp turn
    · have count := (runTurn_counts turn goesOn).2
      obtain ⟨u, rest, place, cur'⟩ := ih next.inv goesOn (by rw [count, next.memory.cfg]; omega)
      exact ⟨u, next.trans rest, place, cur'.trans cur⟩
    · exact ⟨t, next, ends, cur⟩

/-- A channel's entry comes to its modulation. -/
theorem Inv.run_reaches (h : Inv s) (hp : s.phase = .run) :
    ∃ t, TickReaches s t ∧ t.phase = .modulate ∧ t.cur = s.cur := by
  have next := TickReaches.step h (hp ▸ rfl) (step_run hp)
  obtain ⟨cur, starts | left⟩ := runEntry_place s
  · have limit := next.inv.phase.count starts
    obtain ⟨u, rest, place, cur'⟩ := next.inv.fetch_reaches starts (Nat.add_sub_cancel' limit)
    exact ⟨u, next.trans rest, place, cur'.trans cur⟩
  · exact ⟨_, next, left, cur⟩

/-- Tick step 4, channel by channel in index order, comes to the snapshot (43_sequencer.md R240). -/
theorem Inv.channels_reach {d : Nat} (h : Inv s) (hp : s.phase = .run) (left : s.cur + d = s.cfg.nch) :
    ∃ t, TickReaches s t ∧ t.phase = .snapshot := by
  induction d generalizing s with
  | zero =>
    have inside := h.phase.channel (hp ▸ rfl)
    omega
  | succ d ih =>
    obtain ⟨t, run, place, cur⟩ := h.run_reaches hp
    obtain ⟨u, modulated, outcome⟩ := run.inv.modulateStep_cases place
    have next := run.trans (.step run.inv (place ▸ rfl) ((step_modulate place).trans modulated))
    obtain ⟨-, cur', runs⟩ | ⟨-, -, last⟩ := outcome
    · obtain ⟨v, rest, last⟩ := ih next.inv runs (by rw [cur', cur, next.memory.cfg]; omega)
      exact ⟨v, next.trans rest, last⟩
    · exact ⟨u, next, last⟩

/-- A tick comes to the frame after it (43_sequencer.md R240). -/
theorem Inv.tick_reaches (h : Inv s) (hp : s.phase = .tables) : ∃ t, TickReaches s t ∧ t.phase = .render := by
  have tables := TickReaches.step h (hp ▸ rfl) (h.step_tables hp)
  have plonks := tables.trans (.step tables.inv rfl (step_plonks rfl))
  obtain ⟨r, row⟩ := rowPhase_of_inside plonks.inv.engine.row
  obtain ⟨place, cur⟩ := rowPhase_place row
  have rows := plonks.trans (.step plonks.inv rfl ((step_row rfl).trans row))
  obtain ⟨t, channels, last⟩ := rows.inv.channels_reach place (by rw [cur, Nat.zero_add])
  have all := rows.trans channels
  exact ⟨_, all.trans (.step all.inv (last ▸ rfl) (step_snapshot last)), rfl⟩

/-! ## Frames -/

/-- From the head of the frame loop at `s` the frames `fs` are made, up to its head at `t`, under every request that
still owes them. -/
structure Makes (s : State) (fs : List Frame) (t : State) : Prop where
  run : ∀ q, fs.length ≤ q.left → ∃ n, runSteps n (s.under q) = .next (t.under (q.made fs))
  inv : Inv t
  place : t.phase = .frame
  memory : MemoryKept s t

theorem Makes.nil (h : Inv s) (hp : s.phase = .frame) : Makes s [] s :=
  ⟨fun q _ => ⟨0, by rw [q.made_nil]; rfl⟩, h, hp, rfl, rfl⟩

theorem Makes.append {fs gs : List Frame} (h : Makes s fs t) (g : Makes t gs u) : Makes s (fs ++ gs) u where
  run q owed := by
    rw [List.length_append] at owed
    obtain ⟨m, first⟩ := h.run q (by omega)
    obtain ⟨n, second⟩ := g.run (q.made fs) (show gs.length ≤ q.left - fs.length by omega)
    rw [q.made_made] at second
    exact ⟨m + n, (runSteps_add n first).trans second⟩
  inv := g.inv
  place := g.place
  memory := h.memory.trans g.memory

/-- Where the frames start, the host's side does not matter. -/
theorem Makes.congr {fs : List Frame} (h : Makes s fs t) (same : ∀ q, u.under q = s.under q) : Makes u fs t where
  run q owed := by
    rw [same]
    exact h.run q owed
  inv := h.inv
  place := h.place
  memory := ⟨h.memory.cfg.trans (congrArg State.cfg (same s.request)).symm,
    h.memory.store.trans (congrArg State.store (same s.request)).symm⟩

/-- The head of the frame loop comes to a frame, through a tick if one is due (45_synth.md R320). -/
theorem Inv.frame_reaches (h : Inv s) (hp : s.phase = .frame) :
    ∃ t, (∀ q : Request, 1 ≤ q.left → ∃ n, runSteps n (s.under q) = .next (t.under q)) ∧ Inv t ∧ t.phase = .render ∧
      MemoryKept s t := by
  have head : ∀ q : Request, step (s.under q) = .next (Machine.frameStep (s.under q)) :=
    fun q => step_frame (s := s.under q) hp
  by_cases due : s.eng.sptCnt = 0
  · have begun : Inv { s with phase := .tables, framesLeft := 1 } :=
      h.sameEngine rfl rfl rfl rfl rfl rfl ⟨fun _ => ⟨Nat.one_ne_zero, due⟩, nofun, nofun, nofun⟩
    obtain ⟨t, tick, place⟩ := begun.tick_reaches rfl
    refine ⟨t, fun q owed => ?_, tick.inv, place, tick.memory.cfg, tick.memory.store⟩
    obtain ⟨n, run⟩ := tick.run q
    have starts := head q
    rw [frameStep_tick (s := s.under q) (by exact Nat.one_le_iff_ne_zero.mp owed) due] at starts
    exact ⟨n + 1, (runSteps_succ starts).trans run⟩
  · refine ⟨{ s with phase := .render, framesLeft := 1 }, fun q owed => ⟨1, ?_⟩,
      h.sameEngine rfl rfl rfl rfl rfl rfl ⟨nofun, nofun, nofun, fun _ => ⟨Nat.one_ne_zero, due⟩⟩, rfl, rfl, rfl⟩
    have starts := head q
    rw [frameStep_frame (s := s.under q) (by exact Nat.one_le_iff_ne_zero.mp owed) due] at starts
    exact runSteps_one starts

/-- The frame made at a render step goes to the request that owes it. -/
theorem Inv.step_render_under (h : Inv s) (hp : s.phase = .render) (q : Request) :
    step (s.under q) = .next (s.rendered.under (q.made [s.renderFrame.1])) :=
  (Machine.step_render (s := s.under q) hp).trans
    (renderStep_of_waves (s := s.under q) fun v hv => (h.voices v hv).ch.wave)

theorem Inv.makes_one (h : Inv s) (hp : s.phase = .frame) : ∃ f t, Makes s [f] t := by
  obtain ⟨r, begins, inv, place, memory⟩ := h.frame_reaches hp
  refine ⟨r.renderFrame.1, r.rendered, fun q owed => ?_, inv.rendered, rfl, memory.cfg, memory.store⟩
  obtain ⟨n, run⟩ := begins q owed
  exact ⟨n + 1, (runSteps_add 1 run).trans (runSteps_one (inv.step_render_under place q))⟩

/-- From the head of the frame loop any number of frames is made. -/
theorem Inv.makes (n : Nat) (h : Inv s) (hp : s.phase = .frame) : ∃ fs t, fs.length = n ∧ Makes s fs t := by
  induction n generalizing s with
  | zero => exact ⟨[], s, rfl, .nil h hp⟩
  | succ n ih =>
    obtain ⟨f, t, first⟩ := h.makes_one hp
    obtain ⟨fs, u, count, rest⟩ := ih first.inv first.place
    exact ⟨[f] ++ fs, u, by rw [List.length_append, count, List.length_singleton, Nat.add_comm], first.append rest⟩

/-! ## A request from its command to its answer -/

/-- The head of the frame loop that a request starts from. -/
def State.frameHead (s : State) : State := { s with phase := .frame }

/-- The engine back between commands, the frames answered. -/
def State.answered (s : State) (fs : List Frame) (rest : List Command) : State :=
  { s with phase := .command }.under ⟨0, [], rest, some (.frames fs), false⟩

/-- A request completes with the frames that its count of frame loops makes. -/
theorem getSamples_answers {n : BitVec 32} {fs : List Frame} {rest : List Command} (h : Inv s) (hp : s.phase = .command)
    (issued : s.cmds = .getSamples n :: rest) (opened : s.closed = false) (count : fs.length = n.toNat)
    (made : Makes s.frameHead fs t) : ∃ k, runSteps k s = .next (t.answered fs rest) := by
  have starts : step s = .next (s.frameHead.under ⟨n.toNat, [], rest, s.reply, false⟩) := by
    rw [step_command hp opened h.config issued, ← opened]
    rfl
  obtain ⟨k, run⟩ := made.run ⟨n.toNat, [], rest, s.reply, false⟩ count.le
  have ends : step (t.under (Request.made ⟨n.toNat, [], rest, s.reply, false⟩ fs)) = .next (t.answered fs rest) := by
    have none : n.toNat - fs.length = 0 := by omega
    refine (step_frame (s := t.under _) made.place).trans ?_
    rw [frameStep_ends none]
    show Host.Outcome.next _ = _
    simp only [State.under, Request.made, none]
    rfl
  exact ⟨k + 1 + 1, (runSteps_succ starts).trans ((runSteps_add 1 run).trans (runSteps_one ends))⟩

theorem Inv.answered (h : Inv s) (fs : List Frame) (rest : List Command) : Inv (s.answered fs rest) :=
  h.sameEngine rfl rfl rfl rfl rfl rfl (.between (.inl rfl))

/-- Settles O58: as many frame loops as the request owes. -/
theorem getSamplesGivesExactlyNFrames : Obligations.GetSamplesGivesExactlyNFrames := by
  intro s n rest h hp issued opened
  have head : Inv s.frameHead := h.sameEngine rfl rfl rfl rfl rfl rfl (.between (.inr rfl))
  obtain ⟨fs, t, count, made⟩ := head.makes n.toNat rfl
  obtain ⟨k, run⟩ := getSamples_answers h hp issued opened count made
  exact ⟨k, _, fs, run, rfl, rfl, rfl, count, made.memory.store, made.memory.cfg, made.inv.answered fs rest⟩

/-- Settles O59: the second request goes on from the frame loop's head where the first one ended, and the whole request
makes the frames of both. -/
theorem splittingARequestChangesNothing : Obligations.SplittingARequestChangesNothing := by
  intro s a b whole h rest opened sum
  obtain ⟨hp, -⟩ := rest
  have issued : ∀ cmds, Inv { s with cmds := cmds } := fun _ =>
    h.sameEngine rfl rfl rfl rfl rfl rfl (.between (.inl hp))
  have head : Inv s.frameHead := h.sameEngine rfl rfl rfl rfl rfl rfl (.between (.inr rfl))
  obtain ⟨fs, t, countA, first⟩ := head.makes a.toNat rfl
  obtain ⟨gs, u, countB, second⟩ := first.inv.makes b.toNat first.place
  have both := first.append second
  have again : ∀ q, State.under { t with phase := .frame } q = t.under q := fun q => by rw [← first.place]
  obtain ⟨i, runA⟩ := getSamples_answers (s := { s with cmds := [.getSamples a] }) (issued _) hp rfl opened countA
    (first.congr fun _ => rfl)
  obtain ⟨j, runB⟩ := getSamples_answers (s := { t.answered fs [] with cmds := [.getSamples b] })
    ((first.inv.answered fs []).sameEngine rfl rfl rfl rfl rfl rfl (.between (.inl rfl))) rfl rfl rfl countB
    (second.congr again)
  obtain ⟨k, runW⟩ := getSamples_answers (s := { s with cmds := [.getSamples whole] }) (issued _) hp rfl opened
    (by rw [List.length_append, countA, countB, sum]) (both.congr fun _ => rfl)
  exact ⟨i, j, k, _, _, _, runA, ⟨rfl, rfl⟩, runB, ⟨rfl, rfl⟩, runW, ⟨rfl, rfl⟩, rfl, rfl⟩

end Sys2Proof.Machine
end
